-- ==== Sys2Proof/Word.lean ====
section
/-! DEFINITION. The unit types of HUFFCODEC: the byte, the symbol, the 32-bit register word and the bit string
(00_scope.md rules R6, R8 and R10). -/

namespace Sys2Proof

/-- One byte of a buffer or of an artifact (20_memory.md R60: the unit of IBUF and OBUF). -/
abbrev Byte := BitVec 8

/-- A Symbol is one byte: SYM_W = 8 (00_scope.md R6). -/
abbrev Symbol := BitVec 8

/-- A host-visible register is 32 bits wide (10_state.md R21). -/
abbrev Word := BitVec 32

/-- A bit string c[0] c[1] ..., first (most significant) bit first (00_scope.md R10). -/
abbrev BitString := List Bool

end Sys2Proof
end

