-- ==== Sys2Proof/Syntax.lean ====
section
/-! DEFINITION. The instructions of HUFFCODEC: one constructor per row of spec/opcode_table.json. The three host commands are
the words the HOST writes to CMD; the nine stage operations are what the hardwired sequencer executes
(30_encoding.md R80, R83). None has an operand: what they work on is implicit (30_encoding.md R80). -/

namespace Sys2Proof

/-- The instructions (30_encoding.md R80 for the commands, R83 for the stage operations). -/
inductive Instr where
  | clr
  | encode
  | decode
  | eFreq
  | eBuild
  | eCodes
  | eMeasure
  | eHeader
  | ePack
  | dHeader
  | dTable
  | dWalk
  deriving DecidableEq, Repr

end Sys2Proof
end

