-- ==== Sys2Proof/Decode.lean ====
section
/-! DEFINITION. Decoding of the two control encodings and, after it, the encoder. The hardware selects an instruction in two
places only: the 32-bit word written to CMD (30_encoding.md R80) and the PHASE field STATUS[7:4] (30_encoding.md R83). -/

namespace Sys2Proof

/-- The two places an instruction is read from. -/
inductive InstrWord where
  /-- The word of a write to CMD, REG offset 0x00 (30_encoding.md R80). -/
  | command (w : Word)
  /-- The low byte of STATUS, whose bits 7:4 are PHASE (30_encoding.md R83). -/
  | stage (status : BitVec 8)
  deriving DecidableEq, Repr

/-- Why a word selects no instruction. -/
inductive DecodeReject where
  /-- A command word other than the three of R80 (30_encoding.md R81). -/
  | illegalCommand (w : Word)
  /-- PHASE 0: the ENGINE has no step (30_encoding.md R83). -/
  | idlePhase
  /-- PHASE 7 or 11 to 15 (30_encoding.md R84). -/
  | reservedPhase (p : BitVec 4)
  deriving DecidableEq, Repr

/-- Field OPC of a command word (30_encoding.md R80). -/
def opcField (w : Word) : BitVec 8 := w.extractLsb' 0 8

/-- Field ZERO of a command word (30_encoding.md R80). -/
def zeroField (w : Word) : BitVec 24 := w.extractLsb' 8 24

/-- Field PHASE of the low byte of STATUS (30_encoding.md R83). -/
def phaseField (status : BitVec 8) : BitVec 4 := status.extractLsb' 4 4

/-- The command a CMD word selects: ZERO must be 0 and OPC is 0, 1 or 2 (30_encoding.md R80); every other word is illegal
(R81). -/
def decodeCommand (w : Word) : Except DecodeReject Instr :=
  if zeroField w = 0 ∧ opcField w = 0x00 then .ok .clr
  else if zeroField w = 0 ∧ opcField w = 0x01 then .ok .encode
  else if zeroField w = 0 ∧ opcField w = 0x02 then .ok .decode
  else .error (.illegalCommand w)

/-- The stage operation PHASE selects (30_encoding.md R83, R84). -/
def decodePhase (p : BitVec 4) : Except DecodeReject Instr :=
  if p = 1 then .ok .eFreq
  else if p = 2 then .ok .eBuild
  else if p = 3 then .ok .eCodes
  else if p = 4 then .ok .eMeasure
  else if p = 5 then .ok .eHeader
  else if p = 6 then .ok .ePack
  else if p = 8 then .ok .dHeader
  else if p = 9 then .ok .dTable
  else if p = 10 then .ok .dWalk
  else if p = 0 then .error .idlePhase
  else .error (.reservedPhase p)

/-- Decoding is total on both kinds of word. Bits 3:0 of the STATUS byte do not select (mask 0xF0 of the table). -/
def decode : InstrWord → Except DecodeReject Instr
  | .command w => decodeCommand w
  | .stage b => decodePhase (phaseField b)

/-- The encoder: the match value of the instruction's row (30_encoding.md R80, R83). -/
def encode : Instr → InstrWord
  | .clr      => .command 0x00000000
  | .encode   => .command 0x00000001
  | .decode   => .command 0x00000002
  | .eFreq    => .stage 0x10
  | .eBuild   => .stage 0x20
  | .eCodes   => .stage 0x30
  | .eMeasure => .stage 0x40
  | .eHeader  => .stage 0x50
  | .ePack    => .stage 0x60
  | .dHeader  => .stage 0x80
  | .dTable   => .stage 0x90
  | .dWalk    => .stage 0xA0

/-- The instruction read from `nbits` bits `w` numbered as spec/opcode_table.json numbers them: a row of 32 bits is a
command word, a row of 8 bits is the low byte of STATUS; no row has another length. -/
def decodeTableWord (nbits w : Nat) : Option Instr :=
  if nbits = 32 ∧ w < 2 ^ 32 then (decode (.command (BitVec.ofNat 32 w))).toOption
  else if nbits = 8 ∧ w < 2 ^ 8 then (decode (.stage (BitVec.ofNat 8 w))).toOption
  else none

end Sys2Proof
end

