-- ==== Sys2Proof/Config.lean ====
section
/-! DEFINITION. The parameters of the hardware (00_scope.md R6): the fixed ones as constants, the OPEN ones as the record
`Params` that a state carries unchanged, and the free values that no rule of the spec states. -/

namespace Sys2Proof.Config

/-- MAGIC = `48 55 46 46` in artifact order (30_encoding.md R89). -/
def magic : List Byte := [0x48, 0x55, 0x46, 0x46]

/-- VERSION = `01` (30_encoding.md R89). -/
def version : Byte := 0x01

/-- NSYM_MAX = 256, the largest number of distinct symbols (00_scope.md R6). -/
def nsymMax : Nat := 256

/-- NODE_CAP = 511, the entries of the node table (00_scope.md R6). -/
def nodeCap : Nat := 511

/-- VARINT_MAX_BYTES = 5 (00_scope.md R6). -/
def varintMaxBytes : Nat := 5

/-- CNT_W = 32, the bits of a symbol count (00_scope.md R6). -/
def cntW : Nat := 32

/-- L_MAX = 255, the largest code length (00_scope.md R6). -/
def lMax : Nat := 255

/-- NIL, the absent child: the 9-bit value 511 (10_state.md R38). -/
def nil : BitVec 9 := 511

/-- The parameters that R6 leaves OPEN, fixed for one instance of the hardware. A 32-bit size gives the upper bound
2^32 - 1 of R6 by its type; the lower bound 1 is `Params.wellFormed` (Sys2Proof/WellFormed.lean). PLATFORM_BASES =
(REG_BASE, IBUF_BASE, OBUF_BASE) is kept as R6 lists it; 20_memory.md R75: no rule of the block reads it. -/
structure Params where
  ibufSize : Word
  obufSize : Word
  regBase  : Nat
  ibufBase : Nat
  obufBase : Nat
  deriving DecidableEq, Repr

/-- The instance that `State.reset` is an instance of. DESIGN CHOICE (log entry 2): the spec leaves the sizes and bases
OPEN; unsafe for a claim about `State.reset` alone. 2048 is the size 95_test_vectors.md assumes unless a vector says otherwise. -/
def instanceParams : Params :=
  { ibufSize := 2048, obufSize := 2048, regBase := 0, ibufBase := 0, obufBase := 0 }

/-- FREE VALUE (log entry 5; DESIGN CHOICE, safe): what a field of `w` bits receives when a rule computes for it the
integer `v` that it cannot hold. 10_state.md R36: no run does that, so no rule says. -/
opaque outsideWidth : (w : Nat) → Int → BitVec w

/-- FREE VALUE (log entry 6; DESIGN CHOICE, safe): the symbol D_WALK emits when several symbols have the accumulated
code. 42_decoder_stages.md R155: impossible after D_TABLE, so no rule says which. -/
opaque ambiguousSymbol : List Symbol → Symbol

/-- FREE VALUE (log entry 7; DESIGN CHOICE, safe): the bit `stream[i]` of 41_encoder_stages.md R141 at an index the
stream does not have. In a run |stream| = 8·PAYLOAD_LEN, so no rule says. -/
opaque outsideStream : BitString → Nat → Bool

end Sys2Proof.Config
end

