-- ==== Sys2Proof/Machine/State.lean ====
section
/-! DEFINITION. The state of HUFFCODEC as plain data (10_state.md R20 to R45), the steps the HOST and RESET can take
(20_memory.md R61, 70_reset_and_hazards.md R190), the reasons a step can stop, and the state after reset. -/

namespace Sys2Proof.Machine

/-- The contents of a byte buffer: (address, byte) pairs, addresses strictly rising, no pair holding the byte an unlisted
address reads as (Machine/Ops.lean). -/
abbrev Memory := List Host.Cell

/-- The two byte-addressed spaces (20_memory.md R60). -/
inductive Space where
  | ibuf
  | obuf
  deriving DecidableEq, Repr

/-- An entry of table NODE (10_state.md R38). `kind` is the constructor; the fields R38 calls meaningless for a kind are
not stored (log entry 14). `low` and `high` are NODE indices, `high` may be NIL. -/
inductive Node where
  | leaf (weight : BitVec 32) (sym : Symbol)
  | internal (weight : BitVec 32) (low high : BitVec 9)
  deriving DecidableEq, Repr

/-- An entry of table CT: a PrefixCode as the pair of its length and its value (10_state.md R39). -/
structure Code where
  len : BitVec 8
  val : BitVec 255
  deriving DecidableEq, Repr

/-- The engine-private state: the ten working registers (10_state.md R33) and the five tables PRESENT, COUNT, NODE,
CT_VALID and CT (R37 to R39). No HOST access reaches it (R40). -/
structure Work where
  nsym       : BitVec 9
  nnode      : BitVec 9
  root       : BitVec 9
  maxlen     : BitVec 8
  total      : BitVec 32
  totalBits  : BitVec 40
  pad        : BitVec 3
  payloadLen : BitVec 37
  hdrLen     : BitVec 14
  payloadOff : BitVec 32
  present    : Vector Bool 256
  count      : Vector (BitVec 32) 256
  node       : Vector Node 511
  ctValid    : Vector Bool 256
  ct         : Vector Code 256
  deriving DecidableEq, Repr

/-- The four steps of the HOST (20_memory.md R61). A register offset that is no multiple of 4 is refused when the step is
taken (R63; 93_implementation_defined.md U8). -/
inductive HostStep where
  | regRead (off : Word)
  | regWrite (off : Word) (word : Word)
  | bufRead (space : Space) (addr : Word)
  | bufWrite (space : Space) (addr : Word) (byte : Byte)
  deriving DecidableEq, Repr

/-- What a read step delivers to the HOST (20_memory.md R61). -/
inductive Reply where
  | word (w : Word)
  | byte (b : Byte)
  deriving DecidableEq, Repr

/-- What one RESET leaves where 70_reset_and_hazards.md R190 says "unspecified": the buffers' bytes, the working
registers and the tables. The event carries them, so every content is some RESET (log entry 8). -/
structure ResetContents where
  ibuf : List Host.Cell
  obuf : List Host.Cell
  work : Work
  deriving DecidableEq, Repr

/-- The steps of the three agents (00_scope.md R12). -/
inductive Event where
  | engine
  | host (h : HostStep)
  | reset (c : ResetContents)
  deriving DecidableEq, Repr

/-- The state. `params` are the OPEN parameters, which no step changes; IBUF_CAP and OBUF_CAP read them. STATUS, ERRCODE
and CTRL are held as their fields: their reserved bits read 0 and cannot be written (93_implementation_defined.md U5).
CMD holds no state and irq is a function of the registers (10_state.md R20). `schedule` and `replies` are the model's own:
which agent steps next, oldest first, and what the HOST has read, newest first (log entries 1 and 9). -/
structure State where
  params   : Config.Params
  busy     : Bool
  done     : Bool
  err      : Bool
  phase    : BitVec 4
  errcode  : BitVec 4
  ie       : Bool
  inLen    : Word
  outLen   : Word
  ibuf     : Memory
  obuf     : Memory
  work     : Work
  schedule : List Event
  replies  : List Reply
  deriving DecidableEq, Repr

/-- Why a step stops. No HOST input reaches any of them from reset: each is a state the spec gives no step. -/
inductive Fault where
  /-- Raised by the ENGINE's turn with BUSY = 1 and PHASE 0, 7 or 11 to 15: stuck (30_encoding.md R83, R84). Safe. -/
  | noStage (phase : BitVec 4)
  /-- Raised by E_MEASURE, E_PACK and D_WALK on a read at or beyond IBUF_SIZE, an address that does not exist
  (20_memory.md R60, R65). Safe. -/
  | ibufOutside (addr : Nat)
  /-- Raised by E_HEADER and E_PACK on a write at or beyond OBUF_SIZE, an address that does not exist
  (20_memory.md R60, R65). Safe. -/
  | obufOutside (addr : Nat)
  /-- Raised by E_BUILD and E_CODES on a NODE index above 510, an entry that does not exist (10_state.md R38). Safe. -/
  | nodeOutside (index : Nat)
  /-- Raised by E_CODES when the traversal of NODE never ends (40_commands.md R115: every stage terminates). Safe. -/
  | traversalUnending
  deriving DecidableEq, Repr

/-- Why a step is refused. -/
inductive Refusal where
  /-- Raised by an arm of exec whose instruction has no meaning yet. Safe. -/
  | notModelled (mnemonic : String)
  /-- Raised by a HOST register access whose offset is no multiple of 4: no such HOST step exists (20_memory.md R63;
  93_implementation_defined.md U8 says refuse). Safe. -/
  | misalignedRegister (off : Word)
  deriving DecidableEq, Repr

/-- Working state of all zeros, every NODE entry a leaf. DESIGN CHOICE (log entry 4): 10_state.md R41 leaves it
unspecified. -/
def Work.zero : Work :=
  { nsym := 0, nnode := 0, root := 0, maxlen := 0, total := 0, totalBits := 0, pad := 0, payloadLen := 0, hdrLen := 0,
    payloadOff := 0
    present := Vector.replicate 256 false
    count := Vector.replicate 256 0
    node := Vector.replicate 511 (.leaf 0 0)
    ctValid := Vector.replicate 256 false
    ct := Vector.replicate 256 { len := 0, val := 0 } }

/-- The state after RESET (10_state.md R41) of the instance `Config.instanceParams` (log entry 2). The buffers list
nothing and the working state is zero (DESIGN CHOICE, log entries 3 and 4). -/
def State.reset : State :=
  { params := Config.instanceParams
    busy := false, done := false, err := false, phase := 0, errcode := 0, ie := false, inLen := 0, outLen := 0
    ibuf := [], obuf := [], work := Work.zero, schedule := [], replies := [] }

end Sys2Proof.Machine
end

