-- ==== Sys2Proof/Machine/Ops.lean ====
section
/-! DEFINITION. The operations every meaning is written with: one byte of a buffer, one entry of a table, one write to a
register, the acceptance of a command, completion, and `raise` with the way back from it. -/

namespace Sys2Proof.Machine

/-! ### One byte of a buffer (20_memory.md R60, R65) -/

/-- What an address that no cell lists reads as. DESIGN CHOICE (log entry 3). -/
def Memory.unlisted : Byte := 0x00

/-- The byte at an address. -/
def memRead : Memory → Nat → Byte
  | [], _ => Memory.unlisted
  | c :: m, a => if c.1 = a then c.2 else memRead m a

/-- The memory with the byte at an address written. Keeps the canonical form. -/
def memWrite : Memory → Nat → Byte → Memory
  | [], a, v => if v = Memory.unlisted then [] else [(a, v)]
  | c :: m, a, v =>
    if a < c.1 then (if v = Memory.unlisted then c :: m else (a, v) :: c :: m)
    else if a = c.1 then (if v = Memory.unlisted then m else (a, v) :: m)
    else c :: memWrite m a v

/-- Successive bytes written from an address upward. -/
def memWriteRun : Memory → Nat → List Byte → Memory
  | m, _, [] => m
  | m, a, b :: bs => memWriteRun (memWrite m a b) (a + 1) bs

/-- The canonical form: addresses strictly rising from `lo`, no cell that an unlisted address would read alike. -/
def memWfFrom : Nat → Memory → Bool
  | _, [] => true
  | lo, c :: m => lo ≤ c.1 && c.2 != Memory.unlisted && memWfFrom (c.1 + 1) m

/-- The canonical form of a buffer's contents. -/
def Memory.wf (m : Memory) : Bool := memWfFrom 0 m

/-- Every listed address is one of the buffer's, 0 .. size - 1 (10_state.md R34, R35). -/
def Memory.within (m : Memory) (size : Nat) : Bool := m.all fun c => c.1 < size

/-- The contents a list of cells gives a buffer of `size` bytes; cells outside it give nothing (log entry 8). -/
def memOfCells (size : Nat) (cells : List Host.Cell) : Memory :=
  cells.foldl (fun m c => if c.1 < size then memWrite m c.1 c.2 else m) []

/-! ### Entries of tables (00_scope.md R11) -/

/-- s in 0..255, ascending. -/
def symbols : List Symbol := (List.range Config.nsymMax).map (BitVec.ofNat 8)

/-- `T[s]` of a table indexed by symbol. -/
def tableGet {α : Type} (t : Vector α 256) (s : Symbol) : α := t[s.toNat]'s.isLt

/-- `T[s] <- v` of a table indexed by symbol. -/
def tablePut {α : Type} (t : Vector α 256) (s : Symbol) (v : α) : Vector α 256 := t.set s.toNat v s.isLt

/-- The symbols s with `T[s] = 1`, ascending. -/
def symbolsIn (t : Vector Bool 256) : List Symbol := ((symbols.zip t.toList).filter (·.2)).map (·.1)

/-- `NODE[i]`; none when the table has no entry i (10_state.md R38). -/
def nodeGet (t : Vector Node 511) (i : Nat) : Option Node := t[i]?

/-- `NODE[i] <- v`; every caller has i ≤ 510. -/
def nodePut (t : Vector Node 511) (i : Nat) (v : Node) : Vector Node 511 := t.setIfInBounds i v

/-- The weight field of a node (10_state.md R38). -/
def Node.weight : Node → BitVec 32
  | .leaf w _ => w
  | .internal w _ _ => w

/-- A computed natural number stored in a field of `w` bits (00_scope.md R7, 10_state.md R36). It fits in every run; where
it does not, the field's value is free (log entry 5). -/
def fit (w v : Nat) : BitVec w := if v < 2 ^ w then BitVec.ofNat w v else Config.outsideWidth w v

/-! ### Register updates -/

/-- `PHASE <- p`, the sequencer's control transfer (00_scope.md R11). -/
def State.setPhase (s : State) (p : BitVec 4) : State := { s with phase := p }

/-- Replace the engine-private state. -/
def State.setWork (s : State) (w : Work) : State := { s with work := w }

/-- Replace the contents of OBUF. -/
def State.setObuf (s : State) (m : Memory) : State := { s with obuf := m }

/-- Replace the contents of IBUF. -/
def State.setIbuf (s : State) (m : Memory) : State := { s with ibuf := m }

/-- Deliver a read value to the HOST. -/
def State.reply (s : State) (r : Reply) : State := { s with replies := r :: s.replies }

/-! ### Accepting a command, completing it, raising an error -/

/-- The common prologue of an accepted CMD write (40_commands.md R110). It is also what leaves the error-stopped state
(60_exceptions.md R178). -/
def State.prologue (s : State) : State := { s with done := false, err := false, errcode := 0 }

/-- The start of ENCODE or DECODE at its first stage (40_commands.md R112, R113). -/
def State.startAt (s : State) (p : BitVec 4) : State := { s with outLen := 0, busy := true, phase := p }

/-- A CMD write: ignored while BUSY = 1, else the prologue and then the command's own effect (40_commands.md R110). -/
def accept (s : State) (effect : State → State) : State := if s.busy then s else effect s.prologue

/-- The eight errors (60_exceptions.md R170). -/
inductive ErrorCode where
  | emptyInput
  | invalidFrequency
  | corruptHeader
  | truncatedStream
  | invalidCode
  | inputRange
  | outputOverflow
  | illegalCommand
  deriving DecidableEq, Repr

/-- The value of ERRCODE[3:0] (60_exceptions.md R170). -/
def ErrorCode.code : ErrorCode → BitVec 4
  | .emptyInput       => 1
  | .invalidFrequency => 2
  | .corruptHeader    => 3
  | .truncatedStream  => 4
  | .invalidCode      => 5
  | .inputRange       => 6
  | .outputOverflow   => 7
  | .illegalCommand   => 8

/-- `raise E` inside a stage: the command ends in the error-stopped state; PHASE keeps the failing stage, DONE and OUT_LEN
stay as they are (60_exceptions.md R174). -/
def State.raise (s : State) (e : ErrorCode) : State := { s with errcode := e.code, err := true, busy := false }

/-- The effect of an illegal command word after the prologue (40_commands.md R114). -/
def State.rejectCommand (s : State) : State :=
  { s with outLen := 0, phase := 0, err := true, errcode := ErrorCode.illegalCommand.code }

/-- Completion with a result of `n` bytes (40_commands.md R117). -/
def State.complete (s : State) (n : Nat) : State :=
  { s with outLen := fit 32 n, phase := 0, busy := false, done := true }

/-! ### The ENGINE's accesses to the buffers -/

/-- IBUF[0 .. IN_LEN-1] (10_state.md R34). -/
def inputBytes (s : State) : List Byte := (List.range s.inLen.toNat).map (memRead s.ibuf)

/-- The ENGINE's reading of all of IBUF[0 .. IN_LEN-1]; an index at or beyond IBUF_SIZE is no address (20_memory.md R60). -/
def engineInput (s : State) : Except Fault (List Byte) :=
  if s.params.ibufSize < s.inLen then .error (.ibufOutside s.params.ibufSize.toNat) else .ok (inputBytes s)

/-- The ENGINE's writing of `bytes` to OBUF[base ..]; an index at or beyond OBUF_SIZE is no address (20_memory.md R60). -/
def enginePut (s : State) (base : Nat) (bytes : List Byte) : Except Fault State :=
  if bytes.length = 0 ∨ base + bytes.length ≤ s.params.obufSize.toNat then
    .ok (s.setObuf (memWriteRun s.obuf base bytes))
  else .error (.obufOutside (max base s.params.obufSize.toNat))

/-- Continue with a value, or stop with the fault. -/
def orFault {α : Type} (r : Except Fault α) (k : α → Host.Outcome State Fault Refusal) :
    Host.Outcome State Fault Refusal :=
  match r with
  | .ok a => k a
  | .error f => .fault f

end Sys2Proof.Machine
end

