-- ==== Sys2Proof/Machine/Commands.lean ====
section
/-! DEFINITION. The three host commands and the illegal command: a write of the word to CMD, whole, in one step
(40_commands.md R110 to R114). -/

namespace Sys2Proof.Machine

/-- CLR: back to the idle-clear state; OUT_LEN and the buffers keep what they hold (40_commands.md R111). -/
def execClr (s : State) : Host.Outcome State Fault Refusal := .next (accept s fun s => s.setPhase 0)

/-- ENCODE: OUT_LEN ← 0, BUSY ← 1, PHASE ← 1, E_FREQ (40_commands.md R112). -/
def execEncode (s : State) : Host.Outcome State Fault Refusal := .next (accept s fun s => s.startAt 1)

/-- DECODE: OUT_LEN ← 0, BUSY ← 1, PHASE ← 8, D_HEADER (40_commands.md R113). -/
def execDecode (s : State) : Host.Outcome State Fault Refusal := .next (accept s fun s => s.startAt 8)

/-- Any other command word: IllegalCommandError at once (40_commands.md R114). -/
def illegalCommand (s : State) : Host.Outcome State Fault Refusal := .next (accept s State.rejectCommand)

end Sys2Proof.Machine
end

