-- ==== Sys2Proof/Machine/Operands.lean ====
section
/-! DEFINITION. The operand forms of the artifact: bit strings and codes (00_scope.md R9, R10), varints (30_encoding.md R92),
codeBits (R91), the header layout (R88) and the payload's bits (R96). -/

namespace Sys2Proof.Machine

/-! ### Bit strings (00_scope.md R10) -/

/-- `val(c)`: the first bit is the most significant. -/
def val (c : BitString) : Nat := c.foldl (fun a b => 2 * a + b.toNat) 0

/-- `bits(v, L)`: the bit string of length L with value v. R10 requires v < 2^L; a value that does not fit is free
(log entry 5). -/
def bits (v L : Nat) : BitString := (List.range L).map fun j => (fit L v).getMsbD j

/-- `c` is a prefix of `d`, equality included. -/
def isPrefix (c d : BitString) : Bool := c.isPrefixOf d

/-- `c` is a proper prefix of `d`. -/
def isProperPrefix (c d : BitString) : Bool := c.length < d.length && isPrefix c d

/-- `code(s) = bits(CT[s].val, CT[s].len)` (10_state.md R39). -/
def codeOf (w : Work) (s : Symbol) : BitString := bits (tableGet w.ct s).val.toNat (tableGet w.ct s).len.toNat

/-- The symbols with CT_VALID = 1, ascending (30_encoding.md R100). -/
def validSymbols (w : Work) : List Symbol := symbolsIn w.ctValid

/-- The bits of a byte in stream order: bit 7 first (00_scope.md R9). -/
def bitsOfByte (b : Byte) : BitString := (List.range 8).map fun t => b.getLsbD (7 - t)

/-- The stream bits of a byte sequence (00_scope.md R9). -/
def streamOf (bs : List Byte) : BitString := bs.flatMap bitsOfByte

/-- `stream[i]` of 41_encoder_stages.md R141; free at an index the stream does not have (log entry 7). -/
def streamBit (st : BitString) (i : Nat) : Bool := (st[i]?).getD (Config.outsideStream st i)

/-- Payload byte j: `Σ_{t=0}^{7} stream[8j+t]·2^(7-t)` (30_encoding.md R96). -/
def packByte (st : BitString) (j : Nat) : Byte :=
  BitVec.ofNat 8 (((List.range 8).map fun t => (streamBit st (8 * j + t)).toNat * 2 ^ (7 - t)).sum)

/-! ### Varints (30_encoding.md R92) -/

/-- `put_varint` with at most `fuel` groups; 5 groups hold every value below 2^35. -/
def putVarintFrom : Nat → Nat → List Byte
  | 0, _ => []
  | fuel + 1, x =>
    if x / 128 ≠ 0 then BitVec.ofNat 8 (x % 128 + 128) :: putVarintFrom fuel (x / 128)
    else [BitVec.ofNat 8 (x % 128)]

/-- `put_varint(x)`, 0 ≤ x < 2^32. -/
def putVarint (x : Nat) : List Byte := putVarintFrom Config.varintMaxBytes x

/-- The varint length `v(x)`. -/
def varintLen (x : Nat) : Nat :=
  if x < 2 ^ 7 then 1 else if x < 2 ^ 14 then 2 else if x < 2 ^ 21 then 3 else if x < 2 ^ 28 then 4 else 5

/-- `get_varint` from byte number k with the value x so far and `fuel` bytes allowed; none is CorruptHeaderError. -/
def getVarintFrom : Nat → Nat → Nat → List Byte → Option (Nat × List Byte)
  | 0, _, _, _ => none
  | _ + 1, _, _, [] => none
  | fuel + 1, k, x, b :: bs =>
    let x' := x + b.toNat % 128 * 2 ^ (7 * k)
    if b.toNat < 128 then
      if k > 0 ∧ b.toNat = 0 then none
      else if x' ≥ 2 ^ Config.cntW then none
      else some (x', bs)
    else getVarintFrom fuel (k + 1) x' bs

/-- `get_varint()`: the value and the bytes after it. -/
def getVarint (bs : List Byte) : Option (Nat × List Byte) := getVarintFrom Config.varintMaxBytes 0 0 bs

/-! ### codeBits (30_encoding.md R91) -/

/-- `B = ceil(L / 8)`. -/
def codeBytes (len : Nat) : Nat := (len + 7) / 8

/-- The B bytes of the big-endian representation of V. -/
def putCodeBits (v nbytes : Nat) : List Byte :=
  (List.range nbytes).map fun k => BitVec.ofNat 8 (v / 2 ^ (8 * (nbytes - 1 - k)) % 256)

/-- Reading B bytes big-endian after the value v so far; none when the artifact ends first. -/
def getCodeBits : Nat → Nat → List Byte → Option (Nat × List Byte)
  | 0, v, bs => some (v, bs)
  | _ + 1, _, [] => none
  | n + 1, v, b :: bs => getCodeBits n (v * 256 + b.toNat) bs

/-! ### The header (30_encoding.md R88) -/

/-- One table entry: symbol, bitLength, codeBits (30_encoding.md R88 fields 4.e.a to 4.e.c). -/
def entryBytes (w : Work) (s : Symbol) : List Byte :=
  let c := tableGet w.ct s
  s :: c.len :: putCodeBits c.val.toNat (codeBytes c.len.toNat)

/-- The header bytes E_HEADER emits, in artifact order (41_encoder_stages.md R139). -/
def headerBytes (w : Work) : List Byte :=
  Config.magic ++ [Config.version] ++ putVarint w.nsym.toNat ++ (validSymbols w).flatMap (entryBytes w)
    ++ putVarint w.total.toNat ++ [w.pad.setWidth 8]

/-- `HDR_LEN = 5 + v(numEntries) + Σ_e (2 + ceil(L_e/8)) + v(total) + 1` (30_encoding.md R88). -/
def headerLen (w : Work) (total : Nat) : Nat :=
  5 + varintLen w.nsym.toNat + ((validSymbols w).map fun s => 2 + codeBytes (tableGet w.ct s).len.toNat).sum
    + varintLen total + 1

/-! ### The payload (30_encoding.md R96) -/

/-- The code bits of the input followed by the pad bits (41_encoder_stages.md R141). -/
def packStream (w : Work) (input : List Byte) : BitString := input.flatMap (codeOf w) ++ List.replicate w.pad.toNat false

/-- `TOTAL_BITS = Σ_i CT[IBUF[i]].len` (41_encoder_stages.md R138). -/
def codeLenSum (w : Work) (input : List Byte) : Nat := (input.map fun b => (tableGet w.ct b).len.toNat).sum

/-- `avail = 8·(IN_LEN - PAYLOAD_OFF) - PAD`; as a count of bits 0 stands for every avail ≤ 0 (42_decoder_stages.md R156). -/
def availBits (s : State) : Nat := 8 * (s.inLen.toNat - s.work.payloadOff.toNat) - s.work.pad.toNat

/-- The data bits of the payload that lie in IBUF, in stream order (42_decoder_stages.md R156, R157). -/
def dataBits (s : State) : BitString :=
  (streamOf (((inputBytes s).take s.params.ibufSize.toNat).drop s.work.payloadOff.toNat)).take (availBits s)

end Sys2Proof.Machine
end

