-- ==== Sys2Proof/Machine/Encoder.lean ====
section
/-! DEFINITION. The six stage operations of ENCODE, each one atomic ENGINE step (41_encoder_stages.md). -/

namespace Sys2Proof.Machine

/-! ### E_FREQ (41_encoder_stages.md R130) -/

/-- The working state with PRESENT and COUNT cleared. -/
def clearCounts (w : Work) : Work :=
  { w with present := Vector.replicate 256 false, count := Vector.replicate 256 0 }

/-- `PRESENT[s] <- 1; COUNT[s] <- COUNT[s] + 1`. -/
def countSymbol (w : Work) (s : Symbol) : Work :=
  { w with present := tablePut w.present s true
           count := tablePut w.count s (fit 32 ((tableGet w.count s).toNat + 1)) }

/-- The symbols with PRESENT = 1, ascending. -/
def presentSymbols (w : Work) : List Symbol := symbolsIn w.present

/-- `NSYM <- the number of s in 0..255 with PRESENT[s] = 1`. -/
def setNsym (w : Work) : Work := { w with nsym := fit 9 (presentSymbols w).length }

/-- The frequency table of an input. -/
def frequencies (w : Work) (input : List Byte) : Work := setNsym (input.foldl countSymbol (clearCounts w))

/-- E_FREQ: the frequency analyzer. -/
def execEFreq (s : State) : Host.Outcome State Fault Refusal :=
  if s.params.ibufSize < s.inLen then .next (s.raise .inputRange)
  else if s.inLen = 0 then .next (s.raise .emptyInput)
  else .next ((s.setWork (frequencies s.work (inputBytes s))).setPhase 2)

/-! ### E_BUILD (41_encoder_stages.md R132 to R135) -/

/-- The defensive check: a symbol present with count 0 (R135). -/
def zeroWeight (w : Work) : Bool := (presentSymbols w).any fun s => tableGet w.count s == 0

/-- `NODE[k] <- leaf` for each present symbol in turn, from index k upward. -/
def placeLeaves (w : Work) : Nat → List Symbol → Vector Node 511 → Vector Node 511
  | _, [], t => t
  | k, s :: ss, t => placeLeaves w (k + 1) ss (nodePut t k (.leaf (tableGet w.count s) s))

/-- `w(i)` = NODE[i].weight; every caller has i ≤ 510. -/
def weightAt (t : Vector Node 511) (i : Nat) : Nat := ((nodeGet t i).map fun n => n.weight.toNat).getD 0

/-- The order ≺: smaller (weight, index) first (R133; log entry 15). -/
def precedes (t : Vector Node 511) (x y : Nat) : Bool :=
  weightAt t x < weightAt t y || (weightAt t x == weightAt t y && x < y)

/-- The ≺-least member of the queue. -/
def least (t : Vector Node 511) : List Nat → Option Nat
  | [] => none
  | x :: xs =>
    match least t xs with
    | none => some x
    | some y => if precedes t y x then some y else some x

/-- The merges: while the queue has two members, the first removed becomes `low`, the second `high`, and the new node
enters the queue. Each round takes one member off the queue, so `fuel` = |Q| rounds suffice. -/
def mergeNodes : Nat → List Nat → Nat → Vector Node 511 → Vector Node 511
  | 0, _, _, t => t
  | fuel + 1, q, next, t =>
    match least t q with
    | none => t
    | some a =>
      match least t (q.erase a) with
      | none => t
      | some b =>
        mergeNodes fuel ((q.erase a).erase b ++ [next]) (next + 1)
          (nodePut t next (.internal (fit 32 (weightAt t a + weightAt t b)) (BitVec.ofNat 9 a) (BitVec.ofNat 9 b)))

/-- The tree over n = NSYM symbols. n = 1 is R134's synthetic root. For n = 0 R132 gives no meaning: 2n - 2 and 2n - 1 are
no 9-bit values, so ROOT and NNODE are free (log entry 5). -/
def buildTree (w : Work) : Work :=
  let n := w.nsym.toNat
  let leaves := placeLeaves w 0 (presentSymbols w) w.node
  if n = 1 then
    { w with node := nodePut leaves 1 (.internal (fit 32 (weightAt leaves 0)) 0 Config.nil), root := 1, nnode := 2 }
  else if n = 0 then
    { w with node := leaves, root := Config.outsideWidth 9 (-2), nnode := Config.outsideWidth 9 (-1) }
  else
    { w with node := mergeNodes n (List.range n) n leaves, root := fit 9 (2 * n - 2), nnode := fit 9 (2 * n - 1) }

/-- E_BUILD: the tree builder. NSYM above 256 would need NODE entries the table does not have (log entry 11). -/
def execEBuild (s : State) : Host.Outcome State Fault Refusal :=
  if zeroWeight s.work then .next (s.raise .invalidFrequency)
  else if Config.nsymMax < s.work.nsym.toNat then .fault (.nodeOutside Config.nodeCap)
  else .next ((s.setWork (buildTree s.work)).setPhase 3)

/-! ### E_CODES (41_encoder_stages.md R136) -/

/-- `CT[s] <- (|path|, val(path)); CT_VALID[s] <- 1; MAXLEN <- max(MAXLEN, |path|)`. -/
def putCode (w : Work) (s : Symbol) (path : BitString) : Work :=
  { w with ct := tablePut w.ct s { len := fit 8 path.length, val := fit 255 (val path) }
           ctValid := tablePut w.ctValid s true
           maxlen := fit 8 (max w.maxlen.toNat path.length) }

/-- `visit(i, path)`: `low` before `high`. A path of more than 511 nodes repeats one, so the visit would never end: with
`fuel` nodes left it stops at 0 (log entry 11). -/
def visit (t : Vector Node 511) : Nat → Nat → BitString → Work → Except Fault Work
  | 0, _, _, _ => .error .traversalUnending
  | fuel + 1, i, path, w =>
    match nodeGet t i with
    | none => .error (.nodeOutside i)
    | some (.leaf _ s) => .ok (putCode w s path)
    | some (.internal _ low high) =>
      match visit t fuel low.toNat (path ++ [false]) w with
      | .error f => .error f
      | .ok w' => if high = Config.nil then .ok w' else visit t fuel high.toNat (path ++ [true]) w'

/-- CT_VALID cleared and MAXLEN 0: the start of every new code table (R136, 42_decoder_stages.md R150). -/
def clearCodes (w : Work) : Work := { w with ctValid := Vector.replicate 256 false, maxlen := 0 }

/-- E_CODES: the code-table generator. -/
def execECodes (s : State) : Host.Outcome State Fault Refusal :=
  orFault (visit s.work.node Config.nodeCap s.work.root.toNat [] (clearCodes s.work)) fun w =>
    .next ((s.setWork w).setPhase 4)

/-! ### E_MEASURE (41_encoder_stages.md R138) -/

/-- PAD for a number of code bits: `(8 - (TOTAL_BITS mod 8)) mod 8`. -/
def padFor (totalBits : Nat) : Nat := (8 - totalBits % 8) % 8

/-- The payload's bytes for a number of code bits: `(TOTAL_BITS + PAD) div 8`. -/
def payloadBytesFor (totalBits : Nat) : Nat := (totalBits + padFor totalBits) / 8

/-- The five registers E_MEASURE writes. -/
def measure (w : Work) (inLen : Word) (input : List Byte) : Work :=
  let totalBits := codeLenSum w input
  { w with total := inLen
           totalBits := fit 40 totalBits
           pad := fit 3 (padFor totalBits)
           payloadLen := fit 37 (payloadBytesFor totalBits)
           hdrLen := fit 14 (headerLen w inLen.toNat) }

/-- E_MEASURE: the first pass of the bit packer. The sum HDR_LEN + PAYLOAD_LEN is formed without wrap-around. -/
def execEMeasure (s : State) : Host.Outcome State Fault Refusal :=
  orFault (engineInput s) fun input =>
    let s' := s.setWork (measure s.work s.inLen input)
    if s.params.obufSize.toNat < s'.work.hdrLen.toNat + s'.work.payloadLen.toNat then .next (s'.raise .outputOverflow)
    else .next (s'.setPhase 5)

/-! ### E_HEADER (41_encoder_stages.md R139) -/

/-- E_HEADER: the header encoder. -/
def execEHeader (s : State) : Host.Outcome State Fault Refusal :=
  orFault (enginePut s 0 (headerBytes s.work)) fun s' => .next (s'.setPhase 6)

/-! ### E_PACK (41_encoder_stages.md R141) -/

/-- The payload bytes of an input. -/
def payloadBytes (w : Work) (input : List Byte) : List Byte :=
  (List.range w.payloadLen.toNat).map (packByte (packStream w input))

/-- E_PACK: the second pass of the bit packer; completes ENCODE. -/
def execEPack (s : State) : Host.Outcome State Fault Refusal :=
  orFault (engineInput s) fun input =>
    orFault (enginePut s s.work.hdrLen.toNat (payloadBytes s.work input)) fun s' =>
      .next (s'.complete (s.work.hdrLen.toNat + s.work.payloadLen.toNat))

end Sys2Proof.Machine
end

