-- ==== Sys2Proof/Machine/Decoder.lean ====
section
/-! DEFINITION. The three stage operations of DECODE, each one atomic ENGINE step (42_decoder_stages.md). -/

namespace Sys2Proof.Machine

/-! ### D_HEADER (42_decoder_stages.md R150)

Each reader takes the header bytes not yet read and answers the working state as written so far, with the bytes left, or
with none for CorruptHeaderError: what was written before the raise stays written (60_exceptions.md R176). -/

/-- Reading bytes that must be as given (MAGIC, VERSION). -/
def expectBytes : List Byte → List Byte → Option (List Byte)
  | [], bs => some bs
  | _ :: _, [] => none
  | e :: es, b :: bs => if b = e then expectBytes es bs else none

/-- `CT[s] <- (L, V); CT_VALID[s] <- 1; MAXLEN <- max(MAXLEN, L)`. -/
def putEntry (w : Work) (s : Symbol) (len : Byte) (v : Nat) : Work :=
  { w with ct := tablePut w.ct s { len := len, val := fit 255 v }
           ctValid := tablePut w.ctValid s true
           maxlen := if w.maxlen < len then len else w.maxlen }

/-- One entry of the header: symbol, bitLength, codeBits. -/
def readEntry (w : Work) (bs : List Byte) : Work × Option (List Byte) :=
  match bs with
  | s :: len :: rest =>
    if len = 0 then (w, none)
    else
      match getCodeBits (codeBytes len.toNat) 0 rest with
      | none => (w, none)
      | some (v, rest') =>
        if v ≥ 2 ^ len.toNat then (w, none)
        else if tableGet w.ctValid s then (w, none)
        else (putEntry w s len v, some rest')
  | _ => (w, none)

/-- `for e in 0..n-1`. -/
def readEntries : Nat → Work → List Byte → Work × Option (List Byte)
  | 0, w, bs => (w, some bs)
  | n + 1, w, bs =>
    match readEntry w bs with
    | (w', none) => (w', none)
    | (w', some rest) => readEntries n w' rest

/-- totalSymbolCount, padBitCount and the offset of the payload. -/
def readTrailer (inLen : Nat) (w : Work) (bs : List Byte) : Work × Option (List Byte) :=
  match getVarint bs with
  | none => (w, none)
  | some (t, rest) =>
    if t = 0 then (w, none)
    else
      let w1 := { w with total := fit 32 t }
      match rest with
      | [] => (w1, none)
      | q :: rest' =>
        if q.toNat > 7 then (w1, none)
        else ({ w1 with pad := fit 3 q.toNat, payloadOff := fit 32 (inLen - rest'.length) }, some rest')

/-- The whole header of an artifact of `inLen` bytes. -/
def readHeader (inLen : Nat) (w : Work) (bs : List Byte) : Work × Option (List Byte) :=
  match expectBytes (Config.magic ++ [Config.version]) bs with
  | none => (w, none)
  | some rest =>
    match getVarint rest with
    | none => (clearCodes w, none)
    | some (n, rest') =>
      if n = 0 ∨ n > Config.nsymMax then (clearCodes w, none)
      else
        match readEntries n { clearCodes w with nsym := fit 9 n } rest' with
        | (w', none) => (w', none)
        | (w', some rest'') => readTrailer inLen w' rest''

/-- D_HEADER: the header decoder. -/
def execDHeader (s : State) : Host.Outcome State Fault Refusal :=
  if s.params.ibufSize < s.inLen then .next (s.raise .inputRange)
  else
    match readHeader s.inLen.toNat s.work (inputBytes s) with
    | (w, none) => .next ((s.setWork w).raise .corruptHeader)
    | (w, some _) => .next ((s.setWork w).setPhase 9)

/-! ### D_TABLE (42_decoder_stages.md R154) -/

/-- Two different symbols, the code of one a prefix of (or equal to) the code of the other. -/
def prefixClash (w : Work) : Bool :=
  (validSymbols w).any fun s => (validSymbols w).any fun t => s != t && isPrefix (codeOf w s) (codeOf w t)

/-- D_TABLE: table reconstruction and check. -/
def execDTable (s : State) : Host.Outcome State Fault Refusal :=
  if prefixClash s.work then .next (s.raise .corruptHeader) else .next (s.setPhase 10)

/-! ### D_WALK (42_decoder_stages.md R156, R157) -/

/-- How the walk over the payload ends. -/
inductive WalkResult where
  /-- All symbols recovered, in order. -/
  | recovered (out : List Symbol)
  /-- A bit was needed and none was left. -/
  | truncated
  /-- The accumulated bits are a prefix of no code. -/
  | invalid
  deriving DecidableEq, Repr

/-- `append s to out`. -/
def WalkResult.prepend (s : Symbol) : WalkResult → WalkResult
  | .recovered out => .recovered (s :: out)
  | .truncated => .truncated
  | .invalid => .invalid

/-- The symbol whose code is `acc`, if some symbol's is. Which of several is free (log entry 6). -/
def symbolOf (w : Work) (acc : BitString) : Option Symbol :=
  match (validSymbols w).filter fun s => codeOf w s == acc with
  | [] => none
  | [s] => some s
  | s :: ss => some (Config.ambiguousSymbol (s :: ss))

/-- `acc` is a proper prefix of some code. -/
def extends_ (w : Work) (acc : BitString) : Bool := (validSymbols w).any fun s => isProperPrefix acc (codeOf w s)

/-- The walk: `need` symbols still to recover, `acc` the bits since the last symbol. -/
def walk (w : Work) : BitString → BitString → Nat → WalkResult
  | _, _, 0 => .recovered []
  | [], _, _ + 1 => .truncated
  | b :: bs, acc, need + 1 =>
    match symbolOf w (acc ++ [b]) with
    | some s => (walk w bs [] need).prepend s
    | none => if extends_ w (acc ++ [b]) then walk w bs (acc ++ [b]) (need + 1) else .invalid

/-- D_WALK: the bitstream reader and symbol reconstructor; completes DECODE. A bit needed at or beyond IBUF_SIZE is no bit of
the address space: the fault names the first such address of the payload (log entry 11). -/
def execDWalk (s : State) : Host.Outcome State Fault Refusal :=
  if s.params.obufSize < s.work.total then .next (s.raise .outputOverflow)
  else
    match walk s.work (dataBits s) [] s.work.total.toNat with
    | .truncated =>
      if (dataBits s).length < availBits s then .fault (.ibufOutside (max s.params.ibufSize.toNat s.work.payloadOff.toNat))
      else .next (s.raise .truncatedStream)
    | .invalid => .next (s.raise .invalidCode)
    | .recovered out => orFault (enginePut s 0 out) fun s' => .next (s'.complete s.work.total.toNat)

end Sys2Proof.Machine
end

