-- ==== Sys2Proof/Machine/Dispatch.lean ====
section
/-! DEFINITION. One arm per instruction. -/

namespace Sys2Proof.Machine

def exec (i : Instr) (s : State) : Host.Outcome State Fault Refusal :=
  match i with
  | .clr => Sys2Proof.Machine.execClr s
  | .encode => Sys2Proof.Machine.execEncode s
  | .decode => Sys2Proof.Machine.execDecode s
  | .eFreq => Sys2Proof.Machine.execEFreq s
  | .eBuild => Sys2Proof.Machine.execEBuild s
  | .eCodes => Sys2Proof.Machine.execECodes s
  | .eMeasure => Sys2Proof.Machine.execEMeasure s
  | .eHeader => Sys2Proof.Machine.execEHeader s
  | .ePack => Sys2Proof.Machine.execEPack s
  | .dHeader => Sys2Proof.Machine.execDHeader s
  | .dTable => Sys2Proof.Machine.execDTable s
  | .dWalk => Sys2Proof.Machine.execDWalk s

end Sys2Proof.Machine
end

