-- ==== Sys2Proof/Machine/Flags.lean ====
section
/-! DEFINITION. The words the HOST reads of the status registers, and the interrupt line. -/

namespace Sys2Proof.Machine

/-- STATUS: bit 0 BUSY, bit 1 DONE, bit 2 ERR, bits 7:4 PHASE, all others 0 (10_state.md R23). -/
def statusWord (s : State) : Word :=
  (0#24 ++ s.phase ++ 0#1 ++ BitVec.ofBool s.err ++ BitVec.ofBool s.done ++ BitVec.ofBool s.busy : BitVec 32)

/-- ERRCODE: bits 3:0, all others 0 (10_state.md R24). -/
def errcodeWord (s : State) : Word := s.errcode.setWidth 32

/-- CTRL: bit 0 IE, all others 0 (10_state.md R25). -/
def ctrlWord (s : State) : Word := (BitVec.ofBool s.ie).setWidth 32

/-- A command has ended and its end has not been cleared: what makes the interrupt pending (60_exceptions.md R180). -/
def commandEnded (s : State) : Bool := s.done || s.err

/-- irq = CTRL.IE AND (STATUS.DONE OR STATUS.ERR) (10_state.md R32). -/
def irq (s : State) : Bool := s.ie && commandEnded s

end Sys2Proof.Machine
end

