-- ==== Sys2Proof/WellFormed.lean ====
section
/-! DEFINITION. What makes a term legal before the machine sees it: an instruction, an instance's parameters, a HOST step. -/

namespace Sys2Proof

/-- An instruction has no operand (30_encoding.md R80), so nothing can be ill-formed in it. -/
def Instr.wellFormed : Instr → Bool
  | .clr      => true
  | .encode   => true
  | .decode   => true
  | .eFreq    => true
  | .eBuild   => true
  | .eCodes   => true
  | .eMeasure => true
  | .eHeader  => true
  | .ePack    => true
  | .dHeader  => true
  | .dTable   => true
  | .dWalk    => true

/-- 1 ≤ IBUF_SIZE and 1 ≤ OBUF_SIZE (00_scope.md R6). The type bounds both by 2^32 - 1. -/
def Config.Params.wellFormed (p : Config.Params) : Bool := p.ibufSize != 0 && p.obufSize != 0

/-- A register offset is a multiple of 4 (20_memory.md R63). -/
def alignedOffset (off : Word) : Bool := off.toNat % 4 == 0

/-- The HOST steps that exist (20_memory.md R61). The widths bound addresses, words and bytes. -/
def Machine.HostStep.wellFormed : Machine.HostStep → Bool
  | .regRead off      => alignedOffset off
  | .regWrite off _   => alignedOffset off
  | .bufRead _ _      => true
  | .bufWrite _ _ _   => true

/-- A scheduled step that exists. -/
def Machine.Event.wellFormed : Machine.Event → Bool
  | .engine  => true
  | .host h  => h.wellFormed
  | .reset _ => true

end Sys2Proof
end

