-- ==== Sys2Proof/Machine/Agents.lean ====
section
/-! DEFINITION. The steps of the three agents: the ENGINE's turn (40_commands.md R115), the HOST's four accesses
(20_memory.md R61 to R69) and RESET (70_reset_and_hazards.md R190). -/

namespace Sys2Proof.Machine

/-! ### The ENGINE -/

/-- The ENGINE's turn: with BUSY = 1 the stage PHASE selects, whole; with BUSY = 0 nothing (40_commands.md R115). PHASE 0
and the reserved codes select no stage: stuck (30_encoding.md R84). -/
def engineTurn (s : State) : Host.Outcome State Fault Refusal :=
  if s.busy then
    match decodePhase s.phase with
    | .ok i => exec i s
    | .error _ => .fault (.noStage s.phase)
  else .next s

/-! ### The HOST -/

/-- A write to CMD (40_commands.md R110). -/
def cmdWrite (word : Word) (s : State) : Host.Outcome State Fault Refusal :=
  match decodeCommand word with
  | .ok i => exec i s
  | .error _ => illegalCommand s

/-- The value a register read returns at any time (10_state.md R21 to R29; 20_memory.md R64, R68). -/
def regRead (s : State) (off : Word) : Word :=
  if off = 0x00 then 0
  else if off = 0x04 then statusWord s
  else if off = 0x08 then errcodeWord s
  else if off = 0x0C then ctrlWord s
  else if off = 0x10 then s.inLen
  else if off = 0x14 then s.outLen
  else if off = 0x18 then s.params.ibufSize
  else if off = 0x1C then s.params.obufSize
  else 0

/-- A register write: CTRL at any time, CMD and IN_LEN when BUSY = 0; the other offsets ignore writes
(10_state.md R21 to R29; 20_memory.md R64, R66). -/
def regWrite (s : State) (off word : Word) : Host.Outcome State Fault Refusal :=
  if off = 0x0C then .next { s with ie := word.getLsbD 0 }
  else if off = 0x00 then cmdWrite word s
  else if off = 0x10 then .next (if s.busy then s else { s with inLen := word })
  else .next s

/-- The byte a buffer read returns: 0 while BUSY = 1 and beyond the buffer (20_memory.md R65, R67). -/
def bufRead (s : State) (space : Space) (addr : Word) : Byte :=
  if s.busy then 0
  else
    match space with
    | .ibuf => if addr < s.params.ibufSize then memRead s.ibuf addr.toNat else 0
    | .obuf => if addr < s.params.obufSize then memRead s.obuf addr.toNat else 0

/-- A buffer write: IBUF when BUSY = 0 and in range; never OBUF (20_memory.md R65, R66). -/
def bufWrite (s : State) (space : Space) (addr : Word) (byte : Byte) : State :=
  match space with
  | .ibuf => if !s.busy && addr < s.params.ibufSize then s.setIbuf (memWrite s.ibuf addr.toNat byte) else s
  | .obuf => s

/-- One HOST step (20_memory.md R61). A register offset that is no multiple of 4 is refused (R63). -/
def hostStep (h : HostStep) (s : State) : Host.Outcome State Fault Refusal :=
  match h with
  | .regRead off =>
    if alignedOffset off then .next (s.reply (.word (regRead s off))) else .refused (.misalignedRegister off)
  | .regWrite off word =>
    if alignedOffset off then regWrite s off word else .refused (.misalignedRegister off)
  | .bufRead space addr => .next (s.reply (.byte (bufRead s space addr)))
  | .bufWrite space addr byte => .next (bufWrite s space addr byte)

/-! ### RESET -/

/-- RESET, at any state: the registers as R190 gives them, the buffers and the working state as the event has them. The
parameters stay; the schedule and the replies are outside the block. -/
def resetStep (c : ResetContents) (s : State) : State :=
  { params := s.params
    busy := false, done := false, err := false, phase := 0, errcode := 0, ie := false, inLen := 0, outLen := 0
    ibuf := memOfCells s.params.ibufSize.toNat c.ibuf
    obuf := memOfCells s.params.obufSize.toNat c.obuf
    work := c.work
    schedule := s.schedule
    replies := s.replies }

/-! ### One step of the system -/

/-- The step of the agent whose turn it is (00_scope.md R12; 20_memory.md R70). -/
def eventStep (e : Event) (s : State) : Host.Outcome State Fault Refusal :=
  match e with
  | .engine => engineTurn s
  | .host h => hostStep h s
  | .reset c => .next (resetStep c s)

/-- Take the next scheduled step; with nothing scheduled the turn is the ENGINE's (log entry 1). -/
def systemStep (s : State) : Host.Outcome State Fault Refusal :=
  match s.schedule with
  | [] => engineTurn s
  | e :: rest => eventStep e { s with schedule := rest }

/-- The state whose next step is the CMD write of `w` with BUSY = 0. -/
def State.withCommand (s : State) (w : Word) : State :=
  { s with busy := false, schedule := .host (.regWrite 0x00 w) :: s.schedule }

/-- The state whose next step is the ENGINE's turn with PHASE as in the STATUS byte `b` and BUSY = 1. -/
def State.withStage (s : State) (b : BitVec 8) : State :=
  { s with busy := true, phase := phaseField b, schedule := .engine :: s.schedule }

end Sys2Proof.Machine
end

