-- ==== Sys2Proof/Machine/Step.lean ====
section
/-! DEFINITION. One step, and the placing of one instruction where the next step finds it. -/

namespace Sys2Proof.Machine

/-- One atomic step of the system (20_memory.md R70). -/
def step (s : State) : Host.Outcome State Fault Refusal := systemStep s

/-- The state whose next step runs the instruction of `nbits` bits `w` (numbered as spec/opcode_table.json numbers them): a
command word is a HOST write to CMD with BUSY = 0, a stage is the ENGINE's turn with its PHASE and BUSY = 1 (log entry 13). -/
def State.withFetchWord (s : State) (nbits w : Nat) : State :=
  if nbits = 32 then s.withCommand (BitVec.ofNat 32 w)
  else if nbits = 8 then s.withStage (BitVec.ofNat 8 w)
  else s

end Sys2Proof.Machine
end

