-- ==== Sys2Proof/Machine/HostProgram.lean ====
section
/-! DEFINITION. The notation for HOST programs (30_encoding.md R85) and its pseudo-operations (R86), as lists of HOST steps
and of events. -/

namespace Sys2Proof.Machine

/-- The registers by name (10_state.md R21). -/
inductive Reg where
  | cmd
  | status
  | errcode
  | ctrl
  | inLen
  | outLen
  | ibufCap
  | obufCap
  deriving DecidableEq, Repr

/-- The offset of a register (10_state.md R21). -/
def Reg.offset : Reg → Word
  | .cmd     => 0x00
  | .status  => 0x04
  | .errcode => 0x08
  | .ctrl    => 0x0C
  | .inLen   => 0x10
  | .outLen  => 0x14
  | .ibufCap => 0x18
  | .obufCap => 0x1C

/-- `WR reg, value` (30_encoding.md R85). -/
def wr (r : Reg) (value : Word) : HostStep := .regWrite r.offset value

/-- `RD reg` (30_encoding.md R85). -/
def rd (r : Reg) : HostStep := .regRead r.offset

/-- `WRB IBUF[a], b` (30_encoding.md R85). -/
def wrb (a : Nat) (b : Byte) : HostStep := .bufWrite .ibuf (BitVec.ofNat 32 a) b

/-- `RDB buf[a]` (30_encoding.md R85). -/
def rdb (space : Space) (a : Nat) : HostStep := .bufRead space (BitVec.ofNat 32 a)

/-- The bytes written from IBUF[a] upward. -/
def wrbRun : Nat → List Byte → List HostStep
  | _, [] => []
  | a, b :: bs => wrb a b :: wrbRun (a + 1) bs

/-- `LOAD b0 .. b(k-1)` (30_encoding.md R86). -/
def loadSteps (bs : List Byte) : List HostStep := wrbRun 0 bs ++ [wr .inLen (BitVec.ofNat 32 bs.length)]

/-- One interleaving of `POLL` (30_encoding.md R86): the ENGINE takes a turn before each read of STATUS, `reads` times. -/
def pollEvents (reads : Nat) : List Event := (List.replicate reads [Event.engine, .host (rd .status)]).flatten

/-- `RUN cmd` (30_encoding.md R86) with that interleaving. -/
def runEvents (cmd : Word) (reads : Nat) : List Event := .host (wr .cmd cmd) :: pollEvents reads

/-- `encode(S)` (30_encoding.md R86): LOAD S, RUN ENCODE, whose six stages take at most six turns (70_reset_and_hazards.md R200). -/
def encodeEvents (input : List Byte) : List Event := (loadSteps input).map .host ++ runEvents 0x00000001 6

/-- `decode(A)` (30_encoding.md R86): LOAD A, RUN DECODE, whose three stages take at most three turns. -/
def decodeEvents (artifact : List Byte) : List Event := (loadSteps artifact).map .host ++ runEvents 0x00000002 3

/-- `COPYBACK` (30_encoding.md R86) in a state with BUSY = 0: each byte written back is the one the read before it returns. -/
def copyBackSteps (s : State) : List HostStep :=
  rd .outLen :: ((List.range s.outLen.toNat).flatMap fun i => [rdb .obuf i, wrb i (bufRead s .obuf (BitVec.ofNat 32 i))])
    ++ [wr .inLen s.outLen]

end Sys2Proof.Machine
end

