-- ==== Sys2Proof/Safety.lean ====
section
/-! DEFINITION. What claims about runs are stated in: the invariant of the registers and buffers, the stronger one under which
the ENGINE is never stuck, and the trees and headers that states and artifacts stand for. -/

namespace Sys2Proof.Machine

/-! ### Stage codes -/

/-- The stage codes of 30_encoding.md R83. -/
def stageCodes : List (BitVec 4) := [1, 2, 3, 4, 5, 6, 8, 9, 10]

/-- The values PHASE can have in the error-stopped state (30_encoding.md R82). -/
def failingPhases : List (BitVec 4) := [0, 1, 2, 4, 8, 9, 10]

/-- The errors each stage can raise (60_exceptions.md R171). -/
def stageErrors : Instr → List ErrorCode
  | .eFreq    => [.inputRange, .emptyInput]
  | .eBuild   => [.invalidFrequency]
  | .eMeasure => [.outputOverflow]
  | .dHeader  => [.inputRange, .corruptHeader]
  | .dTable   => [.corruptHeader]
  | .dWalk    => [.outputOverflow, .truncatedStream, .invalidCode]
  | .clr      => []
  | .encode   => []
  | .decode   => []
  | .eCodes   => []
  | .eHeader  => []
  | .ePack    => []

/-- The nine stage operations. -/
def isStage : Instr → Bool
  | .clr      => false
  | .encode   => false
  | .decode   => false
  | .eFreq    => true
  | .eBuild   => true
  | .eCodes   => true
  | .eMeasure => true
  | .eHeader  => true
  | .ePack    => true
  | .dHeader  => true
  | .dTable   => true
  | .dWalk    => true

/-- A HOST read (20_memory.md R61). -/
def Event.isRead : Event → Bool
  | .host (.regRead _)      => true
  | .host (.bufRead _ _)    => true
  | .host (.regWrite _ _)   => false
  | .host (.bufWrite _ _ _) => false
  | .engine                 => false
  | .reset _                => false

/-! ### The invariant of the registers and buffers -/

/-- What holds at reset and after every step. -/
structure Inv (s : State) : Prop where
  /-- 00_scope.md R6. -/
  params : s.params.wellFormed = true
  /-- At most one of BUSY, DONE, ERR (10_state.md R31). -/
  oneFlag : ¬(s.busy = true ∧ s.done = true) ∧ ¬(s.busy = true ∧ s.err = true) ∧ ¬(s.done = true ∧ s.err = true)
  /-- BUSY = 1 implies a stage code (10_state.md R31). -/
  phaseBusy : s.busy = true → s.phase ∈ stageCodes
  /-- PHASE ≠ 0 implies BUSY = 1 or ERR = 1 (10_state.md R31). -/
  phaseSet : s.phase ≠ 0 → s.busy = true ∨ s.err = true
  /-- 30_encoding.md R82. -/
  phaseErr : s.err = true → s.phase ∈ failingPhases
  /-- ERRCODE is 0 whenever ERR = 0, nonzero whenever ERR = 1, and never 9 to 15 (10_state.md R24, 60_exceptions.md R170). -/
  errcode : (s.errcode = 0 ↔ s.err = false) ∧ s.errcode.toNat ≤ 8
  /-- OUT_LEN is 0 while a command runs and after an error (10_state.md R27). -/
  outLenClear : s.busy = true ∨ s.err = true → s.outLen = 0
  /-- OUT_LEN ≤ OBUF_SIZE, and DONE = 1 implies OUT_LEN ≥ 1 (10_state.md R42). -/
  outLenRange : s.outLen ≤ s.params.obufSize ∧ (s.done = true → s.outLen ≠ 0)
  /-- IBUF is canonical and lists its own addresses only (10_state.md R34). -/
  ibuf : Memory.wf s.ibuf = true ∧ Memory.within s.ibuf s.params.ibufSize.toNat = true
  /-- OBUF is canonical and lists its own addresses only (10_state.md R35). -/
  obuf : Memory.wf s.obuf = true ∧ Memory.within s.obuf s.params.obufSize.toNat = true
  /-- Once measured, the artifact fits OBUF (41_encoder_stages.md R138). -/
  artifactFits : s.busy = true → s.phase = 5 ∨ s.phase = 6 →
    1 ≤ s.work.hdrLen.toNat ∧ s.work.hdrLen.toNat + s.work.payloadLen.toNat ≤ s.params.obufSize.toNat
  /-- Once parsed, the header's totalSymbolCount is at least 1 (42_decoder_stages.md R151). -/
  totalSet : s.busy = true → s.phase = 9 ∨ s.phase = 10 → s.work.total ≠ 0

/-! ### Trees in the node table -/

/-- A code tree; `one` is the synthetic root of a single symbol, whose `high` is absent (41_encoder_stages.md R134). -/
inductive CodeTree where
  | leaf (s : Symbol)
  | one (low : CodeTree)
  | two (low high : CodeTree)
  deriving DecidableEq, Repr

/-- The longest path from the root to a leaf. -/
def CodeTree.height : CodeTree → Nat
  | .leaf _ => 0
  | .one low => low.height + 1
  | .two low high => max low.height high.height + 1

/-- The leaves with their paths: bit 0 into `low`, bit 1 into `high` (41_encoder_stages.md R136). -/
def CodeTree.paths : CodeTree → BitString → List (Symbol × BitString)
  | .leaf s, path => [(s, path)]
  | .one low, path => low.paths (path ++ [false])
  | .two low high, path => low.paths (path ++ [false]) ++ high.paths (path ++ [true])

/-- The symbols of the leaves. -/
def CodeTree.symbols : CodeTree → List Symbol
  | .leaf s => [s]
  | .one low => low.symbols
  | .two low high => low.symbols ++ high.symbols

/-- Entry i of a node table is the root of the tree (10_state.md R38). -/
def Represents (t : Vector Node 511) : CodeTree → Nat → Prop
  | .leaf s, i => ∃ w, nodeGet t i = some (.leaf w s)
  | .one low, i => ∃ w lo, nodeGet t i = some (.internal w lo Config.nil) ∧ Represents t low lo.toNat
  | .two low high, i => ∃ w lo hi, nodeGet t i = some (.internal w lo hi) ∧ hi ≠ Config.nil ∧
      Represents t low lo.toNat ∧ Represents t high hi.toNat

/-- Every internal node has two children: true for n ≥ 2 symbols (90_conflicts.md C6). -/
def CodeTree.full : CodeTree → Bool
  | .leaf _ => true
  | .one _ => false
  | .two low high => low.full && high.full

/-- The number of nodes. -/
def CodeTree.size : CodeTree → Nat
  | .leaf _ => 1
  | .one low => low.size + 1
  | .two low high => low.size + high.size + 1

/-- The four cases of the order ≺ on two different nodes x, y of indices i, j (41_encoder_stages.md R133). -/
def tieBreak (i : Nat) (x : Node) (j : Nat) (y : Node) : Prop :=
  match x, y with
  | .leaf wx a, .leaf wy b => wx.toNat < wy.toNat ∨ (wx = wy ∧ a.toNat < b.toNat)
  | .leaf wx _, .internal wy _ _ => wx.toNat < wy.toNat ∨ wx = wy
  | .internal wx _ _, .leaf wy _ => wx.toNat < wy.toNat
  | .internal wx _ _, .internal wy _ _ => wx.toNat < wy.toNat ∨ (wx = wy ∧ i < j)

/-- Node c stands in the queue when internal node k is made: it exists and none of the internal nodes n .. k-1 has taken it
as a child (41_encoder_stages.md R132). -/
def inQueue (t : Vector Node 511) (n k c : Nat) : Prop :=
  c < k ∧ ∀ j w lo hi, n ≤ j → j < k → nodeGet t j = some (.internal w lo hi) → lo.toNat ≠ c ∧ hi.toNat ≠ c

/-! ### Safety: the ENGINE is never stuck -/

/-- The invariant that also says what each stage finds in the working state (10_state.md R45). -/
structure Live (s : State) : Prop extends Inv s where
  /-- The first stage of a command has checked IN_LEN (41_encoder_stages.md R130, 42_decoder_stages.md R150). -/
  inRange : s.busy = true → s.phase ≠ 1 → s.phase ≠ 8 → s.inLen ≤ s.params.ibufSize
  /-- E_BUILD finds NSYM present symbols, at least one (41_encoder_stages.md R131). -/
  counted : s.busy = true → s.phase = 2 →
    s.work.nsym.toNat = (presentSymbols s.work).length ∧ 1 ≤ s.work.nsym.toNat
  /-- E_CODES finds a tree no deeper than 255 (10_state.md R36, R38). -/
  treeBuilt : s.busy = true → s.phase = 3 → ∃ tree : CodeTree, tree.height ≤ 255 ∧ Represents s.work.node tree s.work.root.toNat
  /-- E_HEADER finds HDR_LEN to be the length of the header (41_encoder_stages.md R139). -/
  measured : s.busy = true → s.phase = 5 → (headerBytes s.work).length = s.work.hdrLen.toNat

/-! ### Headers -/

/-- The content of a header: entries (symbol, bitLength, code value), totalSymbolCount, padBitCount (30_encoding.md R88). -/
structure Header where
  entries : List (Symbol × Byte × Nat)
  total   : Nat
  pad     : Nat
  deriving DecidableEq, Repr

/-- Conditions 5 to 10 of 30_encoding.md R98. -/
def Header.wellFormed (h : Header) : Prop :=
  1 ≤ h.entries.length ∧ h.entries.length ≤ 256 ∧
  (∀ e ∈ h.entries, 1 ≤ e.2.1.toNat ∧ e.2.2 < 2 ^ e.2.1.toNat) ∧
  (h.entries.map (·.1)).Nodup ∧
  1 ≤ h.total ∧ h.total < 2 ^ 32 ∧ h.pad ≤ 7

/-- The bytes of a header, in the layout of 30_encoding.md R88. -/
def Header.toBytes (h : Header) : List Byte :=
  [0x48, 0x55, 0x46, 0x46, 0x01] ++ putVarint h.entries.length
    ++ h.entries.flatMap (fun e => e.1 :: e.2.1 :: putCodeBits e.2.2 (codeBytes e.2.1.toNat))
    ++ putVarint h.total ++ [BitVec.ofNat 8 h.pad]

/-- The longest code length of a header's entries. -/
def Header.maxLen (h : Header) : Nat := (h.entries.map fun e => e.2.1.toNat).foldl max 0

/-! ### Codes and results -/

/-- No valid code is a prefix of, or equal to, the code of another valid symbol (00_scope.md R14 "Prefix-free code"). -/
def prefixFree (w : Work) : Prop :=
  ∀ a b : Symbol, a ≠ b → tableGet w.ctValid a = true → tableGet w.ctValid b = true → ¬ codeOf w a <+: codeOf w b

/-- The result bytes a HOST can read with BUSY = 0: OBUF[0 .. OUT_LEN-1] (10_state.md R27). -/
def resultBytes (s : State) : List Byte := (List.range s.outLen.toNat).map (memRead s.obuf)

/-- A list of HOST steps that exist and turns of the ENGINE, in any order (20_memory.md R70). -/
def Interleaving (events : List Event) : Prop :=
  ∀ e ∈ events, e = .engine ∨ ∃ h : HostStep, e = .host h ∧ h.wellFormed = true

/-- The run from `s` reaches its first state with BUSY = 0, and that is `t`. -/
inductive EndsIn : State → State → Prop where
  | ended {s : State} (idle : s.busy = false) : EndsIn s s
  | goesOn {s u t : State} (busy : s.busy = true) (next : step s = .next u) (rest : EndsIn u t) : EndsIn s t

/-- A HOST write of `word` to CMD in `s`, followed by `events` (and then by turns of the ENGINE only, log entry 1), has its
command end in `t`, the first state after the write with BUSY = 0. -/
def CommandEnds (s : State) (word : Word) (events : List Event) (t : State) : Prop :=
  ∃ u : State, step { s with schedule := .host (.regWrite 0x00 word) :: events } = .next u ∧ EndsIn u t

/-- What the HOST's steps between a command's acceptance in `s` and its end in `t` show: the events up to the end are used,
IE changes by a write to CTRL among them only, and each read among them delivers one value (20_memory.md R66, R68). -/
def HostShare (s t : State) (events : List Event) : Prop :=
  ∃ (used : List Event) (delivered : List Reply), events = used ++ t.schedule ∧
    (t.ie ≠ s.ie → ∃ w : Word, .host (.regWrite 0x0C w) ∈ used) ∧
    t.replies = delivered ++ s.replies ∧ delivered.length = (used.filter Event.isRead).length

/-- The state in which the HOST's next step writes `word` to CMD and no other HOST step is scheduled. -/
def State.commanded (s : State) (word : Word) : State := { s with schedule := [.host (.regWrite 0x00 word)] }

end Sys2Proof.Machine
end

