-- ==== Sys2Proof/Certificates/Slice0/Obligations.lean ====
section
/-! DEFINITION. The statements for the provers. Each docstring names the rule of spec/ it formalises, or the log entry it
rests on. -/

open Sys2Proof Sys2Proof.Machine

/-! ## Encodings -/

/-- 30_encoding.md R80, R81, R83, R84: words written out from the tables, among them the STATUS byte as the HOST reads it
while a stage is due (BUSY = 1), and words that select nothing. -/
def Obligations.ControlWordsSelectTheirInstruction : Prop :=
  decode (.command 0x00000000) = .ok .clr ∧
  decode (.command 0x00000001) = .ok .encode ∧
  decode (.command 0x00000002) = .ok .decode ∧
  decode (.stage 0x11) = .ok .eFreq ∧
  decode (.stage 0x61) = .ok .ePack ∧
  decode (.stage 0x81) = .ok .dHeader ∧
  decode (.stage 0xA1) = .ok .dWalk ∧
  decode (.command 0x00000100) = .error (.illegalCommand 0x00000100) ∧
  decode (.stage 0x01) = .error .idlePhase ∧
  decode (.stage 0x71) = .error (.reservedPhase 7)

/-- 30_encoding.md R80, R81, R83, R84: the encoding of every instruction decodes to it and nothing else decodes. A command
word that decodes is the word of its instruction; a PHASE that decodes is the code of its instruction. -/
def Obligations.DecodeAndEncodeAgree : Prop :=
  (∀ i : Instr, i.wellFormed = true → decode (encode i) = .ok i) ∧
  (∀ (w : Word) (i : Instr), decode (.command w) = .ok i → encode i = .command w) ∧
  (∀ (w : Word), w ≠ 0 → w ≠ 1 → w ≠ 2 → decode (.command w) = .error (.illegalCommand w)) ∧
  (∀ (b : BitVec 8) (i : Instr), decode (.stage b) = .ok i → encode i = .stage (b &&& 0xF0)) ∧
  (∀ b : BitVec 8, phaseField b = 0 → decode (.stage b) = .error .idlePhase) ∧
  (∀ b : BitVec 8, phaseField b ∈ [7, 11, 12, 13, 14, 15] → decode (.stage b) = .error (.reservedPhase (phaseField b)))

/-! ## One step -/

/-- 40_commands.md R110, R115 (in part): a step runs the decoded instruction. A HOST write to CMD of a word that decodes to i
runs i; the ENGINE's turn, scheduled or with nothing scheduled, runs the stage the STATUS byte decodes to; the step around it
takes the event off the schedule and does nothing else. -/
def Obligations.StepRunsTheDecodedInstruction : Prop :=
  ∀ (s : State) (i : Instr) (rest : List Event),
    (∀ w : Word, decode (.command w) = .ok i →
      step { s with schedule := .host (.regWrite 0x00 w) :: rest } = exec i { s with schedule := rest }) ∧
    (s.busy = true → decode (.stage ((statusWord s).setWidth 8)) = .ok i →
      step { s with schedule := .engine :: rest } = exec i { s with schedule := rest } ∧
      step { s with schedule := [] } = exec i { s with schedule := [] })

/-- 40_commands.md R115 (in part): with BUSY = 0 the ENGINE has no step and changes nothing. -/
def Obligations.EngineIsIdleWhenNotBusy : Prop :=
  ∀ (s : State) (rest : List Event), s.busy = false →
    step { s with schedule := .engine :: rest } = .next { s with schedule := rest } ∧
    step { s with schedule := [] } = .next { s with schedule := [] }

/-- 30_encoding.md R84: the ENGINE has no step at a reserved PHASE, and no step produces one. -/
def Obligations.ReservedPhaseIsStuckAndNeverProduced : Prop :=
  (∀ (s : State) (rest : List Event), s.busy = true → s.phase ∈ [7, 11, 12, 13, 14, 15] →
    step { s with schedule := .engine :: rest } = .fault (.noStage s.phase)) ∧
  (∀ s t : State, s.phase ∉ [7, 11, 12, 13, 14, 15] → step s = .next t → t.phase ∉ [7, 11, 12, 13, 14, 15])

/-! ## Commands -/

/-- 40_commands.md R110: the whole handling of a HOST write to CMD, in one step. -/
def Obligations.CmdWriteIsHandledInOneStep : Prop :=
  ∀ (s : State) (w : Word) (rest : List Event),
    (s.busy = true →
      step { s with schedule := .host (.regWrite 0x00 w) :: rest } = .next { s with schedule := rest }) ∧
    (s.busy = false → w = 0x00000000 →
      step { s with schedule := .host (.regWrite 0x00 w) :: rest } =
        .next { s with schedule := rest, done := false, err := false, errcode := 0, phase := 0 }) ∧
    (s.busy = false → w = 0x00000001 →
      step { s with schedule := .host (.regWrite 0x00 w) :: rest } =
        .next { s with schedule := rest, done := false, err := false, errcode := 0, outLen := 0, busy := true, phase := 1 }) ∧
    (s.busy = false → w = 0x00000002 →
      step { s with schedule := .host (.regWrite 0x00 w) :: rest } =
        .next { s with schedule := rest, done := false, err := false, errcode := 0, outLen := 0, busy := true, phase := 8 }) ∧
    (s.busy = false → w ≠ 0x00000000 → w ≠ 0x00000001 → w ≠ 0x00000002 →
      step { s with schedule := .host (.regWrite 0x00 w) :: rest } =
        .next { s with schedule := rest, done := false, err := true, errcode := 8, outLen := 0, phase := 0 })

/-- 40_commands.md R111: CLR, accepted and ignored. -/
def Obligations.ClrClearsTheFlagsAndKeepsTheResult : Prop :=
  ∀ s : State,
    (s.busy = false →
      exec .clr s = .next { s with done := false, err := false, errcode := 0, phase := 0 } ∧
      irq { s with done := false, err := false, errcode := 0, phase := 0 } = false) ∧
    (s.busy = true → exec .clr s = .next s)

/-- 40_commands.md R112, R113 (their pseudocode): ENCODE and DECODE start their first stage; while BUSY = 1 they are ignored. -/
def Obligations.EncodeAndDecodeStartTheirFirstStage : Prop :=
  ∀ s : State,
    (s.busy = false →
      exec .encode s =
        .next { s with done := false, err := false, errcode := 0, outLen := 0, busy := true, phase := 1 } ∧
      exec .decode s =
        .next { s with done := false, err := false, errcode := 0, outLen := 0, busy := true, phase := 8 }) ∧
    (s.busy = true → exec .encode s = .next s ∧ exec .decode s = .next s)

/-! ## HOST accesses -/

/-- 10_state.md R23, R24, R25 (the layouts): the bits of the STATUS, ERRCODE and CTRL words. -/
def Obligations.StatusWordsHaveTheirLayout : Prop :=
  ∀ s : State,
    (statusWord s).getLsbD 0 = s.busy ∧ (statusWord s).getLsbD 1 = s.done ∧ (statusWord s).getLsbD 2 = s.err ∧
    (statusWord s).getLsbD 3 = false ∧ (statusWord s).extractLsb' 4 4 = s.phase ∧
    (∀ i, 8 ≤ i → (statusWord s).getLsbD i = false) ∧
    (errcodeWord s).extractLsb' 0 4 = s.errcode ∧ (∀ i, 4 ≤ i → (errcodeWord s).getLsbD i = false) ∧
    (ctrlWord s).getLsbD 0 = s.ie ∧ (∀ i, 1 ≤ i → (ctrlWord s).getLsbD i = false)

/-- 10_state.md R21 to R29 and 20_memory.md R68, R76 (in part): at any time a register read delivers the register's value and
changes nothing else. -/
def Obligations.RegisterReadDeliversTheCurrentValue : Prop :=
  ∀ (s : State) (rest : List Event),
    ∀ p ∈ [(Reg.cmd, (0 : Word)), (.status, statusWord s), (.errcode, errcodeWord s), (.ctrl, ctrlWord s),
           (.inLen, s.inLen), (.outLen, s.outLen), (.ibufCap, s.params.ibufSize), (.obufCap, s.params.obufSize)],
      step { s with schedule := .host (rd p.1) :: rest } =
        .next { s with schedule := rest, replies := .word p.2 :: s.replies }

/-- 20_memory.md R64: unmapped offsets. -/
def Obligations.UnmappedOffsetsReadZeroAndIgnoreWrites : Prop :=
  ∀ (s : State) (rest : List Event) (off w : Word), off.toNat % 4 = 0 → 0x20 ≤ off.toNat →
    step { s with schedule := .host (.regRead off) :: rest } =
      .next { s with schedule := rest, replies := .word 0 :: s.replies } ∧
    step { s with schedule := .host (.regWrite off w) :: rest } = .next { s with schedule := rest }

/-- 10_state.md R23 to R29 (in part): which register writes store what. -/
def Obligations.RegisterWritesStoreCtrlAndInLenOnly : Prop :=
  ∀ (s : State) (rest : List Event) (w : Word),
    step { s with schedule := .host (wr .ctrl w) :: rest } = .next { s with schedule := rest, ie := w.getLsbD 0 } ∧
    (s.busy = false →
      step { s with schedule := .host (wr .inLen w) :: rest } = .next { s with schedule := rest, inLen := w }) ∧
    (∀ r ∈ [Reg.status, .errcode, .outLen, .ibufCap, .obufCap],
      step { s with schedule := .host (wr r w) :: rest } = .next { s with schedule := rest })

/-- 20_memory.md R66: while BUSY = 1 every HOST write is ignored but a write to CTRL. -/
def Obligations.HostWritesAreIgnoredWhileBusy : Prop :=
  ∀ (s : State) (rest : List Event), s.busy = true →
    (∀ off w : Word, off.toNat % 4 = 0 → off ≠ 0x0C →
      step { s with schedule := .host (.regWrite off w) :: rest } = .next { s with schedule := rest }) ∧
    (∀ (space : Space) (a : Word) (b : Byte),
      step { s with schedule := .host (.bufWrite space a b) :: rest } = .next { s with schedule := rest }) ∧
    (∀ w : Word,
      step { s with schedule := .host (.regWrite 0x0C w) :: rest } =
        .next { s with schedule := rest, ie := w.getLsbD 0 })

/-- 20_memory.md R67: while BUSY = 1 every buffer read returns 0x00. -/
def Obligations.BufferReadsAreZeroWhileBusy : Prop :=
  ∀ (s : State) (rest : List Event) (space : Space) (a : Word), s.busy = true →
    step { s with schedule := .host (.bufRead space a) :: rest } =
      .next { s with schedule := rest, replies := .byte 0x00 :: s.replies }

/-- 20_memory.md R65 (in part), 10_state.md R34, R35: buffer accesses with BUSY = 0, in and out of range, and writes to OBUF. -/
def Obligations.BufferAccessesWhenNotBusy : Prop :=
  ∀ (s : State) (rest : List Event) (a : Word) (b : Byte), s.busy = false →
    (a < s.params.ibufSize →
      step { s with schedule := .host (.bufRead .ibuf a) :: rest } =
        .next { s with schedule := rest, replies := .byte (memRead s.ibuf a.toNat) :: s.replies }) ∧
    (a < s.params.obufSize →
      step { s with schedule := .host (.bufRead .obuf a) :: rest } =
        .next { s with schedule := rest, replies := .byte (memRead s.obuf a.toNat) :: s.replies }) ∧
    (s.params.ibufSize ≤ a →
      step { s with schedule := .host (.bufRead .ibuf a) :: rest } =
        .next { s with schedule := rest, replies := .byte 0 :: s.replies } ∧
      step { s with schedule := .host (.bufWrite .ibuf a b) :: rest } = .next { s with schedule := rest }) ∧
    (s.params.obufSize ≤ a →
      step { s with schedule := .host (.bufRead .obuf a) :: rest } =
        .next { s with schedule := rest, replies := .byte 0 :: s.replies }) ∧
    (a < s.params.ibufSize → Memory.wf s.ibuf = true →
      ∃ m : Memory,
        step { s with schedule := .host (.bufWrite .ibuf a b) :: rest } = .next { s with schedule := rest, ibuf := m } ∧
        memRead m a.toNat = b ∧ ∀ x, x ≠ a.toNat → memRead m x = memRead s.ibuf x) ∧
    step { s with schedule := .host (.bufWrite .obuf a b) :: rest } = .next { s with schedule := rest }

/-- 20_memory.md R63 and 93_implementation_defined.md U8 as log entry 12 reads them: an access whose offset is no multiple of
4 is refused. -/
def Obligations.MisalignedRegisterAccessIsRefused : Prop :=
  ∀ (s : State) (rest : List Event) (off w : Word), off.toNat % 4 ≠ 0 →
    step { s with schedule := .host (.regRead off) :: rest } = .refused (.misalignedRegister off) ∧
    step { s with schedule := .host (.regWrite off w) :: rest } = .refused (.misalignedRegister off)

/-- 30_encoding.md R86 (LOAD), 70_reset_and_hazards.md R193 (in part): the steps of LOAD with BUSY = 0 leave exactly the bytes
loaded as the input of the next command, and change IBUF and IN_LEN only. -/
def Obligations.LoadPlacesTheInput : Prop :=
  ∀ (s : State) (bs : List Byte) (rest : List Event), s.busy = false → Memory.wf s.ibuf = true →
    bs.length ≤ s.params.ibufSize.toNat →
    ∃ t : State, core.run (bs.length + 1) { s with schedule := (loadSteps bs).map .host ++ rest } = .next t ∧
      t = { s with ibuf := t.ibuf, inLen := t.inLen, schedule := rest } ∧ inputBytes t = bs ∧
      ∀ a, bs.length ≤ a → memRead t.ibuf a = memRead s.ibuf a

/-- 30_encoding.md R86 (COPYBACK): with BUSY = 0 and a result no longer than IBUF, the steps of COPYBACK leave the result as the
input of the next command, and OBUF and the registers but IN_LEN as they were. -/
def Obligations.CopyBackMovesTheResultToTheInput : Prop :=
  ∀ (s : State) (rest : List Event), s.busy = false → Memory.wf s.ibuf = true → s.outLen ≤ s.params.ibufSize →
    s.outLen ≤ s.params.obufSize →
    ∃ t : State, core.run (2 * s.outLen.toNat + 2) { s with schedule := (copyBackSteps s).map .host ++ rest } = .next t ∧
      t = { s with ibuf := t.ibuf, inLen := s.outLen, schedule := rest, replies := t.replies } ∧
      inputBytes t = resultBytes s

/-- 20_memory.md R66, R67, R71 (in part): while BUSY = 1 no HOST step disturbs the command. It changes at most CTRL and delivers
at most a read value. -/
def Obligations.HostStepsNeverDisturbARunningCommand : Prop :=
  ∀ (s : State) (h : HostStep) (rest : List Event), s.busy = true → h.wellFormed = true →
    ∃ t : State, step { s with schedule := .host h :: rest } = .next t ∧
      t = { s with ie := t.ie, replies := t.replies, schedule := rest } ∧
      (t.ie ≠ s.ie → ∃ w : Word, h = .regWrite 0x0C w) ∧
      (t.replies ≠ s.replies → ∃ v : Reply, t.replies = v :: s.replies)

/-- 10_state.md R25, R34 and 70_reset_and_hazards.md R191 (in part): of all steps only a HOST write to CTRL or a RESET
changes IE, only a HOST buffer write or a RESET changes IBUF, only a HOST write to IN_LEN or a RESET changes IN_LEN, and none
changes the parameters. -/
def Obligations.OnlyTheHostAndResetChangeInputAndControl : Prop :=
  ∀ s t : State, step s = .next t →
    t.params = s.params ∧
    (t.ie ≠ s.ie → ∃ rest, (∃ w, s.schedule = .host (.regWrite 0x0C w) :: rest) ∨ ∃ c, s.schedule = .reset c :: rest) ∧
    (t.inLen ≠ s.inLen →
      ∃ rest, (∃ w, s.schedule = .host (.regWrite 0x10 w) :: rest) ∨ ∃ c, s.schedule = .reset c :: rest) ∧
    (t.ibuf ≠ s.ibuf →
      ∃ rest, (∃ a b, s.schedule = .host (.bufWrite .ibuf a b) :: rest) ∨ ∃ c, s.schedule = .reset c :: rest)

/-! ## Errors, completion, interrupt, reset -/

/-- 60_exceptions.md R171, R174: a stage that raises records one of its errors and PHASE keeps the stage; with the working
state left out, nothing but ERRCODE, ERR and BUSY has changed. The one error no stage raises is the illegal command's. -/
def Obligations.StageErrorsAreThoseOfTheTable : Prop :=
  (∀ (i : Instr) (s t : State), isStage i = true → s.err = false → exec i s = .next t → t.err = true →
    ∃ e ∈ stageErrors i, t = { s with work := t.work, errcode := e.code, err := true, busy := false } ∧ irq t = s.ie) ∧
  (∀ (s : State) (w : Word) (rest : List Event), s.busy = false → w ≠ 0 → w ≠ 1 → w ≠ 2 →
    ∃ t, step { s with schedule := .host (.regWrite 0x00 w) :: rest } = .next t ∧
      t.err = true ∧ t.errcode = ErrorCode.illegalCommand.code ∧ t.phase = 0 ∧ t.busy = false)

/-- 40_commands.md R116, R117: what a stage that succeeds does beside its data writes. -/
def Obligations.StageSuccessAdvancesOrCompletes : Prop :=
  ∀ s t : State, s.err = false → t.err = false →
    (exec .eFreq s = .next t → t = { s with work := t.work, phase := 2 }) ∧
    (exec .eBuild s = .next t → t = { s with work := t.work, phase := 3 }) ∧
    (exec .eCodes s = .next t → t = { s with work := t.work, phase := 4 }) ∧
    (exec .eMeasure s = .next t → t = { s with work := t.work, phase := 5 }) ∧
    (exec .eHeader s = .next t → t = { s with obuf := t.obuf, phase := 6 }) ∧
    (exec .dHeader s = .next t → t = { s with work := t.work, phase := 9 }) ∧
    (exec .dTable s = .next t → t = { s with phase := 10 }) ∧
    (exec .ePack s = .next t →
      t = { s with obuf := t.obuf, outLen := BitVec.ofNat 32 (s.work.hdrLen.toNat + s.work.payloadLen.toNat),
                   phase := 0, busy := false, done := true } ∧ irq t = s.ie) ∧
    (exec .dWalk s = .next t →
      t = { s with obuf := t.obuf, outLen := s.work.total, phase := 0, busy := false, done := true } ∧ irq t = s.ie)

/-- 10_state.md R32, 60_exceptions.md R180, R181 (in part): irq is down while a command goes on and follows IE when it ends,
by completion or by an error. -/
def Obligations.InterruptLineFollowsTheEndOfACommand : Prop :=
  ∀ (i : Instr) (s t : State), isStage i = true → s.busy = true → s.done = false → s.err = false →
    exec i s = .next t → irq s = false ∧ irq t = (s.ie && !t.busy)

/-- 70_reset_and_hazards.md R190, 10_state.md R41: RESET at any state clears the registers. The second clause is the model's
choice, log entry 8, for what R190 and 93_implementation_defined.md U1, U2 leave unspecified: every contents of the buffers
and every working state is what some RESET event leaves. -/
def Obligations.ResetClearsTheRegistersAndLeavesAnyContents : Prop :=
  (∀ (s : State) (c : ResetContents) (rest : List Event), ∃ t,
    step { s with schedule := .reset c :: rest } = .next t ∧
    t = { s with busy := false, done := false, err := false, phase := 0, errcode := 0, ie := false, inLen := 0,
                 outLen := 0, ibuf := t.ibuf, obuf := t.obuf, work := t.work, schedule := rest } ∧
    irq t = false) ∧
  (∀ (s : State) (rest : List Event) (m m' : Memory) (w : Work),
    Memory.wf m = true → Memory.within m s.params.ibufSize.toNat = true →
    Memory.wf m' = true → Memory.within m' s.params.obufSize.toNat = true →
    ∃ (c : ResetContents) (t : State),
      step { s with schedule := .reset c :: rest } = .next t ∧ t.ibuf = m ∧ t.obuf = m' ∧ t.work = w)

/-! ## The encoder's stages -/

/-- 41_encoder_stages.md R130: E_FREQ, its two errors and its effect. -/
def Obligations.EFreqCountsTheInput : Prop :=
  ∀ s : State,
    (s.params.ibufSize < s.inLen →
      exec .eFreq s = .next { s with errcode := 6, err := true, busy := false }) ∧
    (s.inLen ≤ s.params.ibufSize → s.inLen = 0 →
      exec .eFreq s = .next { s with errcode := 1, err := true, busy := false }) ∧
    (s.inLen ≤ s.params.ibufSize → s.inLen ≠ 0 →
      ∃ (present : Vector Bool 256) (count : Vector (BitVec 32) 256) (nsym : BitVec 9),
        exec .eFreq s =
          .next { s with work := { s.work with present := present, count := count, nsym := nsym }, phase := 2 } ∧
        (∀ b : Symbol, tableGet present b = true ↔ ∃ i < s.inLen.toNat, memRead s.ibuf i = b) ∧
        (∀ b : Symbol, (tableGet count b).toNat =
          ((List.range s.inLen.toNat).filter fun i => decide (memRead s.ibuf i = b)).length) ∧
        nsym.toNat = ((List.range 256).filter fun k => tableGet present (BitVec.ofNat 8 k)).length)

/-- 41_encoder_stages.md R131: the postcondition of E_FREQ. -/
def Obligations.FrequencyTableAccountsForTheInput : Prop :=
  ∀ s t : State, s.err = false → exec .eFreq s = .next t → t.err = false →
    (∀ b : Symbol, (tableGet t.work.present b = true ↔ ∃ i < s.inLen.toNat, memRead s.ibuf i = b) ∧
      (tableGet t.work.present b = true → 1 ≤ (tableGet t.work.count b).toNat ∧
        (tableGet t.work.count b).toNat =
          ((List.range s.inLen.toNat).filter fun i => decide (memRead s.ibuf i = b)).length)) ∧
    ((List.range 256).map fun k => (tableGet t.work.count (BitVec.ofNat 8 k)).toNat).sum = s.inLen.toNat ∧
    1 ≤ t.work.nsym.toNat ∧ t.work.nsym.toNat ≤ min 256 s.inLen.toNat

/-- 41_encoder_stages.md R133: on a table in creation order the order the queue uses, smaller (weight, index) first, is the
four-case tie-break, and it is a strict total order on the indices. -/
def Obligations.QueueOrderIsTheTieBreakOrder : Prop :=
  ∀ (t : Vector Node 511) (n m : Nat), n ≤ m → m ≤ 511 →
    (∀ i, i < n → ∃ w a, nodeGet t i = some (.leaf w a)) →
    (∀ i j wi wj a b, i < j → j < n → nodeGet t i = some (.leaf wi a) → nodeGet t j = some (.leaf wj b) →
      a.toNat < b.toNat) →
    (∀ i, n ≤ i → i < m → ∃ w lo hi, nodeGet t i = some (.internal w lo hi)) →
    (∀ i j x y, i < m → j < m → i ≠ j → nodeGet t i = some x → nodeGet t j = some y →
      (precedes t i j = true ↔ tieBreak i x j y)) ∧
    (∀ i j, i < m → j < m → i ≠ j → (precedes t i j = true ↔ ¬ precedes t j i = true)) ∧
    (∀ i j k, precedes t i j = true → precedes t j k = true → precedes t i k = true) ∧
    (∀ i, precedes t i i = false)

/-- 41_encoder_stages.md R135: the defensive check raises, and never does so on a table E_FREQ made. -/
def Obligations.ZeroCountIsRaisedAndUnreachable : Prop :=
  (∀ (s : State) (b : Symbol), tableGet s.work.present b = true → tableGet s.work.count b = 0 →
    exec .eBuild s = .next { s with errcode := 2, err := true, busy := false }) ∧
  (∀ s t u : State, s.err = false → exec .eFreq s = .next t → t.err = false → exec .eBuild t = .next u → u.err = false)

/-- 41_encoder_stages.md R132 for n ≥ 2 symbols: leaves in ascending symbol order, then each internal node made of the two
≺-least members of the queue, the first as `low`; nothing else of the state changes. -/
def Obligations.EBuildMergesTheTwoLeast : Prop :=
  ∀ s : State, s.work.nsym.toNat = (presentSymbols s.work).length → 2 ≤ s.work.nsym.toNat →
    (∀ b : Symbol, tableGet s.work.present b = true → tableGet s.work.count b ≠ 0) →
    ((presentSymbols s.work).map fun b => (tableGet s.work.count b).toNat).sum < 2 ^ 32 →
    ∃ node : Vector Node 511,
      exec .eBuild s =
        .next { s with work := { s.work with node := node, root := BitVec.ofNat 9 (2 * s.work.nsym.toNat - 2),
                                             nnode := BitVec.ofNat 9 (2 * s.work.nsym.toNat - 1) }, phase := 3 } ∧
      (∀ k b, (presentSymbols s.work)[k]? = some b → nodeGet node k = some (.leaf (tableGet s.work.count b) b)) ∧
      (∀ k, s.work.nsym.toNat ≤ k → k ≤ 2 * s.work.nsym.toNat - 2 →
        ∃ a b w, nodeGet node k = some (.internal w (BitVec.ofNat 9 a) (BitVec.ofNat 9 b)) ∧
          w.toNat = weightAt node a + weightAt node b ∧ a ≠ b ∧
          inQueue node s.work.nsym.toNat k a ∧ inQueue node s.work.nsym.toNat k b ∧
          ∀ c, inQueue node s.work.nsym.toNat k c → c ≠ a →
            precedes node a c = true ∧ (c ≠ b → precedes node b c = true)) ∧
      (∀ k, 2 * s.work.nsym.toNat - 1 ≤ k → nodeGet node k = nodeGet s.work.node k)

/-- 41_encoder_stages.md R132, R134 and 10_state.md R38 (in part): over 1 to 256 present symbols with counts E_BUILD leaves a
tree whose leaves are those symbols; for n ≥ 2 it is full and has 2n - 1 nodes. -/
def Obligations.EBuildMakesATreeOfThePresentSymbols : Prop :=
  ∀ s : State, s.work.nsym.toNat = (presentSymbols s.work).length → 1 ≤ s.work.nsym.toNat →
    (∀ b : Symbol, tableGet s.work.present b = true → tableGet s.work.count b ≠ 0) →
    ∃ (t : State) (tree : CodeTree), exec .eBuild s = .next t ∧
      Represents t.work.node tree t.work.root.toNat ∧
      tree.symbols.Perm (presentSymbols s.work) ∧ 1 ≤ tree.height ∧ tree.height ≤ 255 ∧
      (2 ≤ s.work.nsym.toNat → tree.full = true ∧ tree.size = t.work.nnode.toNat)

/-- 41_encoder_stages.md R134: one distinct symbol gets the synthetic root and then the code "0". -/
def Obligations.OneSymbolGetsTheSyntheticRoot : Prop :=
  ∀ (s : State) (b : Symbol), s.work.nsym = 1 → (∀ a : Symbol, tableGet s.work.present a = true ↔ a = b) →
    tableGet s.work.count b ≠ 0 →
    ∃ node : Vector Node 511,
      exec .eBuild s = .next { s with work := { s.work with node := node, root := 1, nnode := 2 }, phase := 3 } ∧
      nodeGet node 0 = some (.leaf (tableGet s.work.count b) b) ∧
      nodeGet node 1 = some (.internal (tableGet s.work.count b) 0 Config.nil) ∧
      (∀ k, 2 ≤ k → nodeGet node k = nodeGet s.work.node k) ∧
      ∃ u : State,
        exec .eCodes { s with work := { s.work with node := node, root := 1, nnode := 2 }, phase := 3 } = .next u ∧
        (∀ a : Symbol, tableGet u.work.ctValid a = true ↔ a = b) ∧ tableGet u.work.ct b = { len := 1, val := 0 } ∧
        u.work.maxlen = 1

/-- Log entries 5 and 11, on 41_encoder_stages.md R132 ("the rule gives it no meaning") and 10_state.md R38: with NSYM = 0 and
no symbol present E_BUILD runs with ROOT and NNODE free, whatever they are; with NSYM above 256 it stops. -/
def Obligations.EBuildOutsideTheRangeOfNsym : Prop :=
  (∀ s : State, s.work.nsym = 0 → (∀ b : Symbol, tableGet s.work.present b = false) →
    ∃ root nnode : BitVec 9,
      exec .eBuild s = .next { s with work := { s.work with root := root, nnode := nnode }, phase := 3 }) ∧
  (∀ s : State, 256 < s.work.nsym.toNat →
    (∀ b : Symbol, tableGet s.work.present b = true → tableGet s.work.count b ≠ 0) →
    exec .eBuild s = .fault (.nodeOutside 511))

/-- 41_encoder_stages.md R136: E_CODES gives each leaf its path, `low` 0 and `high` 1, first branch first. -/
def Obligations.ECodesAssignsThePaths : Prop :=
  ∀ (s : State) (tree : CodeTree), Represents s.work.node tree s.work.root.toNat → tree.height ≤ 255 → tree.symbols.Nodup →
    ∃ (ctValid : Vector Bool 256) (ct : Vector Code 256) (maxlen : BitVec 8),
      exec .eCodes s =
        .next { s with work := { s.work with ctValid := ctValid, ct := ct, maxlen := maxlen }, phase := 4 } ∧
      (∀ b : Symbol, tableGet ctValid b = true ↔ b ∈ tree.symbols) ∧
      (∀ (b : Symbol) (path : BitString), (b, path) ∈ tree.paths [] →
        (tableGet ct b).len.toNat = path.length ∧ (tableGet ct b).val.toNat = val path) ∧
      (∀ b : Symbol, b ∉ tree.symbols → tableGet ct b = tableGet s.work.ct b) ∧
      maxlen.toNat = tree.height

/-- 40_commands.md R126 (a), (b), (c), on the tree E_CODES is given: the codes are prefix-free, no code is empty, and the
codes of a full tree are complete. -/
def Obligations.CodesOfATreeArePrefixFreeAndComplete : Prop :=
  ∀ (s t : State) (tree : CodeTree), Represents s.work.node tree s.work.root.toNat → tree.height ≤ 255 → tree.symbols.Nodup →
    1 ≤ tree.height → exec .eCodes s = .next t →
    prefixFree t.work ∧
    (∀ b : Symbol, tableGet t.work.ctValid b = true → 1 ≤ (tableGet t.work.ct b).len.toNat) ∧
    (tree.full = true →
      ((validSymbols t.work).map fun b => 2 ^ (255 - (tableGet t.work.ct b).len.toNat)).sum = 2 ^ 255)

/-- 41_encoder_stages.md R138: the five registers, and the overflow. -/
def Obligations.EMeasureSizesTheArtifact : Prop :=
  ∀ (s : State) (totalBits pad payloadLen hdrLen : Nat), s.inLen ≤ s.params.ibufSize →
    totalBits = ((List.range s.inLen.toNat).map fun i => (tableGet s.work.ct (memRead s.ibuf i)).len.toNat).sum →
    pad = (8 - totalBits % 8) % 8 →
    payloadLen = (totalBits + pad) / 8 →
    hdrLen = 5 + varintLen s.work.nsym.toNat
      + ((validSymbols s.work).map fun b => 2 + ((tableGet s.work.ct b).len.toNat + 7) / 8).sum
      + varintLen s.inLen.toNat + 1 →
    ∃ w : Work,
      w = { s.work with total := s.inLen, totalBits := w.totalBits, pad := w.pad, payloadLen := w.payloadLen,
                        hdrLen := w.hdrLen } ∧
      w.totalBits.toNat = totalBits ∧ w.pad.toNat = pad ∧ w.payloadLen.toNat = payloadLen ∧ w.hdrLen.toNat = hdrLen ∧
      (s.params.obufSize.toNat < hdrLen + payloadLen →
        exec .eMeasure s = .next { s with work := w, errcode := 7, err := true, busy := false }) ∧
      (hdrLen + payloadLen ≤ s.params.obufSize.toNat → exec .eMeasure s = .next { s with work := w, phase := 5 })

/-- 41_encoder_stages.md R142: TOTAL_BITS is the sum of count times code length over the present symbols. -/
def Obligations.TotalBitsIsTheWeightedSum : Prop :=
  ∀ (s t u : State) (ctValid : Vector Bool 256) (ct : Vector Code 256), s.err = false → exec .eFreq s = .next t →
    t.err = false → exec .eMeasure { t with work := { t.work with ctValid := ctValid, ct := ct } } = .next u →
    u.work.totalBits.toNat = ((presentSymbols t.work).map fun b =>
      (tableGet t.work.count b).toNat * (tableGet ct b).len.toNat).sum

/-- 41_encoder_stages.md R139, 30_encoding.md R88 (in part): the number of header bytes is the HDR_LEN that E_MEASURE stores. -/
def Obligations.HeaderHasTheMeasuredLength : Prop :=
  ∀ s t : State, exec .eMeasure s = .next t → (headerBytes t.work).length = t.work.hdrLen.toNat

/-- 41_encoder_stages.md R139: E_HEADER writes the header at OBUF[0], and nothing else. -/
def Obligations.EHeaderWritesTheHeader : Prop :=
  ∀ (s : State) (header : List Byte),
    header = [0x48, 0x55, 0x46, 0x46, 0x01] ++ putVarint s.work.nsym.toNat
      ++ (validSymbols s.work).flatMap (fun b => b :: (tableGet s.work.ct b).len ::
          putCodeBits (tableGet s.work.ct b).val.toNat (((tableGet s.work.ct b).len.toNat + 7) / 8))
      ++ putVarint s.work.total.toNat ++ [s.work.pad.setWidth 8] →
    header.length ≤ s.params.obufSize.toNat → Memory.wf s.obuf = true →
    ∃ obuf : Memory,
      exec .eHeader s = .next { s with obuf := obuf, phase := 6 } ∧
      (∀ k b, header[k]? = some b → memRead obuf k = b) ∧
      (∀ k, header.length ≤ k → memRead obuf k = memRead s.obuf k)

/-- 41_encoder_stages.md R141: E_PACK writes the payload after the header and completes the command. -/
def Obligations.EPackWritesThePayload : Prop :=
  ∀ (s : State) (stream : BitString), s.inLen ≤ s.params.ibufSize →
    stream = (inputBytes s).flatMap (codeOf s.work) ++ List.replicate s.work.pad.toNat false →
    stream.length = 8 * s.work.payloadLen.toNat →
    s.work.hdrLen.toNat + s.work.payloadLen.toNat ≤ s.params.obufSize.toNat → Memory.wf s.obuf = true →
    ∃ obuf : Memory,
      exec .ePack s =
        .next { s with obuf := obuf, outLen := BitVec.ofNat 32 (s.work.hdrLen.toNat + s.work.payloadLen.toNat),
                       phase := 0, busy := false, done := true } ∧
      (∀ j k, j < s.work.payloadLen.toNat → k < 8 →
        stream[8 * j + k]? = some ((memRead obuf (s.work.hdrLen.toNat + j)).getLsbD (7 - k))) ∧
      (∀ a, a < s.work.hdrLen.toNat ∨ s.work.hdrLen.toNat + s.work.payloadLen.toNat ≤ a →
        memRead obuf a = memRead s.obuf a)

/-! ## The artifact's operand forms -/

/-- 00_scope.md R10 (in part): `bits` and `val` are inverse. -/
def Obligations.BitStringsAndValuesAgree : Prop :=
  (∀ v L : Nat, v < 2 ^ L → val (bits v L) = v ∧ (bits v L).length = L) ∧
  (∀ c : BitString, val c < 2 ^ c.length ∧ bits (val c) c.length = c)

/-- 30_encoding.md R92: a written varint has v(x) bytes, byte k holding 7-bit group k, least significant group first, in bits
6:0 and in bit 7 whether more follow. Reading it gives the value back and stops there, and no other bytes read as the value. -/
def Obligations.VarintsReadBackAndAreMinimal : Prop :=
  (∀ x k : Nat, x < 2 ^ 32 → k < varintLen x →
    (putVarint x)[k]? = some (BitVec.ofNat 8 (x / 128 ^ k % 128 + if k + 1 < varintLen x then 128 else 0))) ∧
  (∀ (x : Nat) (rest : List Byte), x < 2 ^ 32 →
    getVarint (putVarint x ++ rest) = some (x, rest) ∧ (putVarint x).length = varintLen x) ∧
  (∀ (bs rest : List Byte) (x : Nat), getVarint bs = some (x, rest) → x < 2 ^ 32 ∧ bs = putVarint x ++ rest)

/-- 30_encoding.md R91: codeBits are ceil(L/8) bytes, byte k being (V >> (8(B-1-k))) & 0xFF. They read back, no other bytes
read as the value, and a value that needs more than L bits refuses the entry. -/
def Obligations.CodeBitsReadBackAndRefuseWideValues : Prop :=
  (∀ L v k : Nat, v < 2 ^ L → k < (L + 7) / 8 →
    (putCodeBits v (codeBytes L)).length = (L + 7) / 8 ∧
    (putCodeBits v (codeBytes L))[k]? = some (BitVec.ofNat 8 ((v >>> (8 * ((L + 7) / 8 - 1 - k))) % 256))) ∧
  (∀ (L v : Nat) (rest : List Byte), v < 2 ^ L →
    getCodeBits (codeBytes L) 0 (putCodeBits v (codeBytes L) ++ rest) = some (v, rest)) ∧
  (∀ (n v : Nat) (bs rest : List Byte), getCodeBits n 0 bs = some (v, rest) →
    v < 2 ^ (8 * n) ∧ bs = putCodeBits v n ++ rest) ∧
  (∀ (w : Work) (s : Symbol) (len : Byte) (v : Nat) (rest : List Byte), 2 ^ len.toNat ≤ v →
    v < 2 ^ (8 * codeBytes len.toNat) →
    readEntry w (s :: len :: putCodeBits v (codeBytes len.toNat) ++ rest) = (w, none))

/-! ## The decoder's stages -/

/-- 42_decoder_stages.md R150, R151: D_HEADER reads every well-formed header, with any payload after it, in any entry order. -/
def Obligations.DHeaderReadsEveryWellFormedHeader : Prop :=
  ∀ (s : State) (h : Header) (payload : List Byte), s.inLen ≤ s.params.ibufSize → h.wellFormed →
    inputBytes s = h.toBytes ++ payload →
    ∃ (ctValid : Vector Bool 256) (ct : Vector Code 256),
      exec .dHeader s =
        .next { s with work := { s.work with ctValid := ctValid, ct := ct, nsym := BitVec.ofNat 9 h.entries.length,
                                             maxlen := BitVec.ofNat 8 h.maxLen, total := BitVec.ofNat 32 h.total,
                                             pad := BitVec.ofNat 3 h.pad,
                                             payloadOff := BitVec.ofNat 32 h.toBytes.length }, phase := 9 } ∧
      (∀ b : Symbol, tableGet ctValid b = true ↔ b ∈ h.entries.map (·.1)) ∧
      (∀ e ∈ h.entries, tableGet ct e.1 = { len := e.2.1, val := BitVec.ofNat 255 e.2.2 }) ∧
      (∀ b : Symbol, b ∉ h.entries.map (·.1) → tableGet ct b = tableGet s.work.ct b)

/-- 42_decoder_stages.md R150, R152 and 30_encoding.md R98 conditions 1 to 10 (in part): every other input is refused, and an
IN_LEN beyond IBUF_SIZE before any byte is read. -/
def Obligations.DHeaderRefusesEveryOtherInput : Prop :=
  (∀ s : State, s.params.ibufSize < s.inLen →
    exec .dHeader s = .next { s with errcode := 6, err := true, busy := false }) ∧
  (∀ s : State, s.inLen ≤ s.params.ibufSize →
    (¬ ∃ (h : Header) (payload : List Byte), h.wellFormed ∧ inputBytes s = h.toBytes ++ payload) →
    ∃ w : Work, exec .dHeader s = .next { s with work := w, errcode := 3, err := true, busy := false })

/-- 40_commands.md R125: reading what E_HEADER's rule writes for a valid table, a count and a pad count gives them back. -/
def Obligations.HeaderReadOfWriteIsTheTable : Prop :=
  ∀ (w : Work) (u : State) (payload : List Byte),
    w.nsym.toNat = (validSymbols w).length → 1 ≤ (validSymbols w).length →
    (∀ b : Symbol, tableGet w.ctValid b = true →
      1 ≤ (tableGet w.ct b).len.toNat ∧ (tableGet w.ct b).val.toNat < 2 ^ (tableGet w.ct b).len.toNat) →
    1 ≤ w.total.toNat → prefixFree w →
    u.inLen ≤ u.params.ibufSize → inputBytes u = headerBytes w ++ payload →
    ∃ v : Work,
      exec .dHeader u = .next { u with work := v, phase := 9 } ∧ v.ctValid = w.ctValid ∧
      (∀ b : Symbol, tableGet w.ctValid b = true → tableGet v.ct b = tableGet w.ct b) ∧
      v.nsym = w.nsym ∧ v.total = w.total ∧ v.pad = w.pad ∧ v.payloadOff.toNat = (headerBytes w).length

/-- 42_decoder_stages.md R154: D_TABLE passes exactly the prefix-free tables. -/
def Obligations.DTablePassesExactlyThePrefixFreeTables : Prop :=
  ∀ s : State,
    (prefixFree s.work → exec .dTable s = .next { s with phase := 10 }) ∧
    (¬ prefixFree s.work → exec .dTable s = .next { s with errcode := 3, err := true, busy := false })

/-- 42_decoder_stages.md R155: after D_TABLE at most one symbol has a given code, and then no code continues it. -/
def Obligations.DecodingIsUnambiguousAfterDTable : Prop :=
  ∀ s t : State, s.err = false → exec .dTable s = .next t → t.err = false →
    ∀ (x : BitString) (a : Symbol), tableGet t.work.ctValid a = true → codeOf t.work a = x →
      (∀ b : Symbol, tableGet t.work.ctValid b = true → codeOf t.work b = x → b = a) ∧
      (∀ b : Symbol, tableGet t.work.ctValid b = true → isProperPrefix x (codeOf t.work b) = false) ∧
      symbolOf t.work x = some a

/-- 42_decoder_stages.md R156, R158: the capacity is tested first; with a prefix-free table the walk recovers the symbols
whose codes the data bits begin with, and OBUF and OUT_LEN receive them; a walk that fails writes no byte of OBUF. -/
def Obligations.DWalkRecoversTheSymbols : Prop :=
  ∀ s : State,
    (s.params.obufSize < s.work.total →
      exec .dWalk s = .next { s with errcode := 7, err := true, busy := false }) ∧
    (∀ (out : List Symbol) (tail : BitString), s.work.total ≤ s.params.obufSize → prefixFree s.work →
      (∀ b : Symbol, tableGet s.work.ctValid b = true → 1 ≤ (tableGet s.work.ct b).len.toNat) →
      out.length = s.work.total.toNat → (∀ b ∈ out, tableGet s.work.ctValid b = true) →
      dataBits s = out.flatMap (codeOf s.work) ++ tail → Memory.wf s.obuf = true →
      ∃ obuf : Memory,
        exec .dWalk s =
          .next { s with obuf := obuf, outLen := s.work.total, phase := 0, busy := false, done := true } ∧
        (∀ j b, out[j]? = some b → memRead obuf j = b) ∧
        (∀ j, s.work.total.toNat ≤ j → memRead obuf j = memRead s.obuf j)) ∧
    (∀ t : State, s.err = false → exec .dWalk s = .next t → t.err = true → t.obuf = s.obuf ∧ t.outLen = s.outLen)

/-- 42_decoder_stages.md R157 (its two errors): the walk that needs a bit when none is left is truncated; the walk whose bits
are a prefix of no code is invalid at once. Neither changes OBUF or OUT_LEN. -/
def Obligations.DWalkErrorsAreTheFirstMet : Prop :=
  ∀ (s : State) (out : List Symbol) (part : BitString), s.work.total ≤ s.params.obufSize →
    s.inLen ≤ s.params.ibufSize → prefixFree s.work →
    (∀ b : Symbol, tableGet s.work.ctValid b = true → 1 ≤ (tableGet s.work.ct b).len.toNat) →
    out.length < s.work.total.toNat → (∀ b ∈ out, tableGet s.work.ctValid b = true) →
    (part = [] ∨ ∃ b, tableGet s.work.ctValid b = true ∧ isProperPrefix part (codeOf s.work b) = true) →
    (dataBits s = out.flatMap (codeOf s.work) ++ part →
      exec .dWalk s = .next { s with errcode := 4, err := true, busy := false }) ∧
    (∀ (x : Bool) (tail : BitString), dataBits s = out.flatMap (codeOf s.work) ++ part ++ x :: tail →
      (∀ b : Symbol, tableGet s.work.ctValid b = true → ¬ part ++ [x] <+: codeOf s.work b) →
      exec .dWalk s = .next { s with errcode := 5, err := true, busy := false })

/-- 42_decoder_stages.md R159 (a), (b) and, for success, (c): bits after the last code, pad bits and whole bytes, change
nothing of a walk that succeeds. -/
def Obligations.BitsAfterTheLastCodeAreIgnored : Prop :=
  ∀ (s t : State) (ibuf : Memory) (inLen : Word) (pad : BitVec 3) (extra : BitString),
    s.err = false → exec .dWalk s = .next t → t.err = false →
    dataBits { s with ibuf := ibuf, inLen := inLen, work := { s.work with pad := pad } } = dataBits s ++ extra →
    exec .dWalk { s with ibuf := ibuf, inLen := inLen, work := { s.work with pad := pad } } =
      .next { t with ibuf := ibuf, inLen := inLen, work := { s.work with pad := pad } }

/-- Log entry 11, on 20_memory.md R60 and R65: a stage that would read or write outside a buffer stops. E_MEASURE and E_PACK
beyond IBUF, E_HEADER and E_PACK beyond OBUF, and D_WALK when the symbols recovered so far and the part of a code after them
use up the payload's bits in IBUF, before TOTAL symbols and before the payload's data bits end. -/
def Obligations.EngineAddressOutsideABufferStops : Prop :=
  ∀ s : State,
    (s.params.ibufSize < s.inLen →
      exec .eMeasure s = .fault (.ibufOutside s.params.ibufSize.toNat) ∧
      exec .ePack s = .fault (.ibufOutside s.params.ibufSize.toNat)) ∧
    (s.params.obufSize.toNat < (headerBytes s.work).length →
      exec .eHeader s = .fault (.obufOutside s.params.obufSize.toNat)) ∧
    (s.inLen ≤ s.params.ibufSize → 1 ≤ s.work.payloadLen.toNat →
      s.params.obufSize.toNat < s.work.hdrLen.toNat + s.work.payloadLen.toNat →
      exec .ePack s = .fault (.obufOutside (max s.work.hdrLen.toNat s.params.obufSize.toNat))) ∧
    (∀ (out : List Symbol) (part : BitString), s.work.total ≤ s.params.obufSize → prefixFree s.work →
      (∀ b : Symbol, tableGet s.work.ctValid b = true → 1 ≤ (tableGet s.work.ct b).len.toNat) →
      out.length < s.work.total.toNat → (∀ b ∈ out, tableGet s.work.ctValid b = true) →
      (part = [] ∨ ∃ b, tableGet s.work.ctValid b = true ∧ isProperPrefix part (codeOf s.work b) = true) →
      dataBits s = out.flatMap (codeOf s.work) ++ part → (dataBits s).length < availBits s →
      exec .dWalk s = .fault (.ibufOutside (max s.params.ibufSize.toNat s.work.payloadOff.toNat)))

/-! ## Invariants -/

/-- 10_state.md R31, R41, R42: the invariants hold at reset. -/
def Obligations.InvariantsHoldAtReset : Prop := Inv State.reset ∧ Live State.reset

/-- 10_state.md R24, R27, R31, R42, 30_encoding.md R82: every step, of any agent, keeps the invariant of the registers and
buffers. -/
def Obligations.EveryStepKeepsTheInvariant : Prop := ∀ s t : State, Inv s → step s = .next t → Inv t

/-- 40_commands.md R115, 20_memory.md R65 (in part): the ENGINE is never stuck and never leaves its address spaces. Where the
next scheduled step exists, the step is taken and keeps the stronger invariant. -/
def Obligations.NoStepIsEverStuck : Prop :=
  ∀ s : State, Live s → (∀ e ∈ s.schedule, Event.wellFormed e = true) → ∃ t, step s = .next t ∧ Live t

/-! ## Commands from acceptance to their end -/

/-- 70_reset_and_hazards.md R200 (its bound): an accepted ENCODE has BUSY = 0 after at most 6 turns of the ENGINE and an
accepted DECODE after at most 3, done or error-stopped. -/
def Obligations.CommandsEndWithinTheirStages : Prop :=
  ∀ s : State, Inv s → s.busy = false →
    (∃ t : State, core.run 7 (s.commanded 0x00000001) = .next t ∧ t.busy = false ∧ t.done = !t.err) ∧
    (∃ t : State, core.run 4 (s.commanded 0x00000002) = .next t ∧ t.busy = false ∧ t.done = !t.err)

/-- 70_reset_and_hazards.md R200: under every interleaving of HOST steps and turns of the ENGINE, a running ENCODE reaches
BUSY = 0 once the ENGINE has had 6 turns, and a running DECODE once it has had 3. -/
def Obligations.EveryInterleavingEndsTheCommand : Prop :=
  ∀ (s : State) (events : List Event), Live s → s.busy = true → Interleaving events →
    (if s.phase.toNat < 8 then 6 else 3) ≤ (events.filter fun e => decide (e = .engine)).length →
    ∃ (j : Nat) (t : State), j ≤ events.length ∧ core.run j { s with schedule := events } = .next t ∧
      t.busy = false ∧ t.done = !t.err

/-- 40_commands.md R119 (in part: the code table is some prefix-free table over the input's symbols), 20_memory.md R66, R70,
R71: what ENCODE leaves, in each of its four outcomes, under every interleaving. -/
def Obligations.EncodeLeavesTheArtifactOrItsError : Prop :=
  ∀ (s : State) (events : List Event), Inv s → s.busy = false → Interleaving events →
    (s.params.ibufSize < s.inLen →
      ∃ t : State, CommandEnds s 0x00000001 events t ∧ HostShare s t events ∧
        t = { s with done := false, err := true, errcode := 6, outLen := 0, busy := false, phase := 1,
                     ie := t.ie, replies := t.replies, schedule := t.schedule }) ∧
    (s.inLen = 0 →
      ∃ t : State, CommandEnds s 0x00000001 events t ∧ HostShare s t events ∧
        t = { s with done := false, err := true, errcode := 1, outLen := 0, busy := false, phase := 1,
                     ie := t.ie, replies := t.replies, schedule := t.schedule }) ∧
    (s.inLen ≤ s.params.ibufSize → s.inLen ≠ 0 →
      ∃ (t : State) (w : Work) (artifact : List Byte),
        CommandEnds s 0x00000001 events t ∧ HostShare s t events ∧
        prefixFree w ∧ (∀ b : Symbol, tableGet w.ctValid b = true ↔ b ∈ inputBytes s) ∧
        (∀ b : Symbol, tableGet w.ctValid b = true →
          1 ≤ (tableGet w.ct b).len.toNat ∧ (tableGet w.ct b).val.toNat < 2 ^ (tableGet w.ct b).len.toNat) ∧
        w.nsym.toNat = (validSymbols w).length ∧ w.total = s.inLen ∧
        (packStream w (inputBytes s)).length = 8 * w.payloadLen.toNat ∧
        artifact = headerBytes w ++ payloadBytes w (inputBytes s) ∧
        (s.params.obufSize.toNat < artifact.length →
          t = { s with work := w, done := false, err := true, errcode := 7, outLen := 0, busy := false, phase := 4,
                       ie := t.ie, replies := t.replies, schedule := t.schedule }) ∧
        (artifact.length ≤ s.params.obufSize.toNat →
          t = { s with work := w, obuf := t.obuf, done := true, err := false, errcode := 0, outLen := t.outLen,
                       busy := false, phase := 0, ie := t.ie, replies := t.replies, schedule := t.schedule } ∧
          resultBytes t = artifact ∧ ∀ a, artifact.length ≤ a → memRead t.obuf a = memRead s.obuf a))

/-- 40_commands.md R121: decoding what ENCODE produced gives the input back, within the capacities, under every interleaving
of both commands (20_memory.md R70, R71). -/
def Obligations.DecodeOfEncodeIsTheInput : Prop :=
  ∀ (s t u : State) (events events' : List Event), Inv s → s.busy = false → Interleaving events →
    CommandEnds s 0x00000001 events t → t.done = true →
    Inv u → u.busy = false → u.inLen ≤ u.params.ibufSize → inputBytes u = resultBytes t →
    s.inLen ≤ u.params.obufSize → Interleaving events' →
    ∃ v : State, CommandEnds u 0x00000002 events' v ∧ v.done = true ∧ resultBytes v = inputBytes s

/-- 42_decoder_stages.md R160: an artifact of ENCODE without its last byte is a truncated stream, under every interleaving of
both commands (20_memory.md R70, R71). -/
def Obligations.ArtifactCutByOneByteIsTruncated : Prop :=
  ∀ (s t u : State) (events events' : List Event), Inv s → s.busy = false → Interleaving events →
    CommandEnds s 0x00000001 events t → t.done = true →
    Inv u → u.busy = false → u.inLen ≤ u.params.ibufSize → inputBytes u = (resultBytes t).dropLast →
    s.inLen ≤ u.params.obufSize → Interleaving events' →
    ∃ v : State, CommandEnds u 0x00000002 events' v ∧
      v.err = true ∧ v.errcode = ErrorCode.truncatedStream.code ∧ v.phase = 10 ∧ v.outLen = 0 ∧ v.obuf = u.obuf

/-- 40_commands.md R122, 20_memory.md R70, R71, 70_reset_and_hazards.md R198: two accepted commands of one kind on equal
inputs and equal parameters end in equal STATUS, ERRCODE, OUT_LEN and result, whatever the earlier state held and whichever
HOST steps fall between the stages of either. -/
def Obligations.ResultDependsOnTheInputAlone : Prop :=
  ∀ (s s' : State) (cmd : Word) (events events' : List Event), cmd = 0x00000001 ∨ cmd = 0x00000002 → Inv s → Inv s' →
    s.busy = false → s'.busy = false → s.params = s'.params → s.inLen = s'.inLen →
    (∀ i < s.inLen.toNat, memRead s.ibuf i = memRead s'.ibuf i) → Interleaving events → Interleaving events' →
    ∃ t t' : State, CommandEnds s cmd events t ∧ CommandEnds s' cmd events' t' ∧
      statusWord t = statusWord t' ∧ t.errcode = t'.errcode ∧ t.outLen = t'.outLen ∧ resultBytes t = resultBytes t'
end

