-- ==== Sys2Proof/Laws/Memory.lean ====
section
/-! SUPPORT. The laws of a buffer's memory: what a read after a write gives, that every operation keeps the canonical form and
the buffer's bounds, and that two canonical memories that read alike are equal. -/

namespace Sys2Proof.Machine

@[simp] theorem memRead_nil (a : Nat) : memRead [] a = 0 := rfl

theorem memRead_cons (c : Host.Cell) (m : Memory) (a : Nat) :
    memRead (c :: m) a = if c.1 = a then c.2 else memRead m a := rfl

theorem memWfFrom_cons {lo : Nat} {c : Host.Cell} {m : Memory} :
    memWfFrom lo (c :: m) = true ↔ lo ≤ c.1 ∧ c.2 ≠ 0 ∧ memWfFrom (c.1 + 1) m = true := by
  simp [memWfFrom, Memory.unlisted, and_assoc]

theorem memWfFrom_mono {lo lo' : Nat} {m : Memory} (h : memWfFrom lo m = true) (hle : lo' ≤ lo) :
    memWfFrom lo' m = true := by
  cases m with
  | nil => rfl
  | cons c m => rw [memWfFrom_cons] at h ⊢; exact ⟨by omega, h.2⟩

/-- An address below every listed one is unlisted. -/
theorem memRead_below {lo a : Nat} {m : Memory} (h : memWfFrom lo m = true) (ha : a < lo) : memRead m a = 0 := by
  induction m generalizing lo with
  | nil => rfl
  | cons c m ih =>
    rw [memWfFrom_cons] at h
    rw [memRead_cons, if_neg (by omega)]
    exact ih h.2.2 (by omega)

/-- A write leaves every other address alone. -/
theorem memRead_memWrite_ne {a b : Nat} (m : Memory) (v : Byte) (h : b ≠ a) :
    memRead (memWrite m a v) b = memRead m b := by
  induction m with
  | nil => simp only [memWrite]; split <;> simp [memRead, Ne.symm h, Memory.unlisted]
  | cons c m ih =>
    simp only [memWrite]
    split
    · split <;> simp [memRead, Ne.symm h]
    · split
      · rename_i _ hac
        split <;> simp [memRead, ← hac, Ne.symm h]
      · simp [memRead, ih]

/-- A read after a write to the same address gives the value written. -/
theorem memRead_memWrite_self {lo : Nat} {m : Memory} (a : Nat) (v : Byte) (h : memWfFrom lo m = true) :
    memRead (memWrite m a v) a = v := by
  induction m generalizing lo with
  | nil => simp only [memWrite]; split <;> simp_all [memRead, Memory.unlisted]
  | cons c m ih =>
    rw [memWfFrom_cons] at h
    simp only [memWrite]
    split
    · split
      · rename_i hlt hv
        rw [memRead_below (lo := c.1) (memWfFrom_cons.2 ⟨le_refl _, h.2⟩) hlt, hv]; rfl
      · simp [memRead]
    · split
      · rename_i hac
        split
        · rename_i hv
          rw [memRead_below h.2.2 (by omega), hv]; rfl
        · simp [memRead]
      · rename_i hne
        rw [memRead_cons, if_neg (Ne.symm hne)]
        exact ih h.2.2

theorem memWfFrom_memWrite {lo : Nat} {m : Memory} {a : Nat} (v : Byte) (h : memWfFrom lo m = true) (ha : lo ≤ a) :
    memWfFrom lo (memWrite m a v) = true := by
  induction m generalizing lo with
  | nil =>
    simp only [memWrite]
    split
    · rfl
    · rename_i hv; exact memWfFrom_cons.2 ⟨ha, hv, rfl⟩
  | cons c m ih =>
    have hc := memWfFrom_cons.1 h
    simp only [memWrite]
    split
    · split
      · exact h
      · rename_i hlt hv
        exact memWfFrom_cons.2 ⟨ha, hv, memWfFrom_cons.2 ⟨hlt, hc.2⟩⟩
    · split
      · rename_i hac
        split
        · exact memWfFrom_mono hc.2.2 (by omega)
        · rename_i hv
          exact memWfFrom_cons.2 ⟨ha, hv, by rw [hac]; exact hc.2.2⟩
      · exact memWfFrom_cons.2 ⟨hc.1, hc.2.1, ih hc.2.2 (by omega)⟩

/-- A write keeps the canonical form. -/
theorem Memory.wf_memWrite {m : Memory} (a : Nat) (v : Byte) (h : Memory.wf m = true) : Memory.wf (memWrite m a v) = true :=
  memWfFrom_memWrite v h (Nat.zero_le a)

/-- A run of writes keeps the canonical form. -/
theorem Memory.wf_memWriteRun {m : Memory} (a : Nat) (bs : List Byte) (h : Memory.wf m = true) :
    Memory.wf (memWriteRun m a bs) = true := by
  induction bs generalizing m a with
  | nil => exact h
  | cons b bs ih => exact ih (a + 1) (Memory.wf_memWrite a b h)

theorem Memory.within_cons {c : Host.Cell} {m : Memory} {size : Nat} :
    Memory.within (c :: m) size = true ↔ c.1 < size ∧ Memory.within m size = true := by
  simp only [Memory.within, List.all_cons, Bool.and_eq_true, decide_eq_true_eq]

/-- A write inside the buffer lists no address outside it. -/
theorem Memory.within_memWrite {m : Memory} {size a : Nat} (v : Byte) (h : Memory.within m size = true) (ha : a < size) :
    Memory.within (memWrite m a v) size = true := by
  induction m with
  | nil =>
    simp only [memWrite]
    split
    · rfl
    · exact Memory.within_cons.2 ⟨ha, rfl⟩
  | cons c m ih =>
    have hc := Memory.within_cons.1 h
    simp only [memWrite]
    split
    · split
      · exact h
      · exact Memory.within_cons.2 ⟨ha, h⟩
    · split
      · split
        · exact hc.2
        · exact Memory.within_cons.2 ⟨ha, hc.2⟩
      · exact Memory.within_cons.2 ⟨hc.1, ih hc.2⟩

/-- A run of writes inside the buffer lists no address outside it. -/
theorem Memory.within_memWriteRun {m : Memory} {size a : Nat} (bs : List Byte) (h : Memory.within m size = true)
    (ha : bs.length = 0 ∨ a + bs.length ≤ size) : Memory.within (memWriteRun m a bs) size = true := by
  induction bs generalizing m a with
  | nil => exact h
  | cons b bs ih =>
    simp only [List.length_cons] at ha
    exact ih (Memory.within_memWrite b h (by omega)) (by omega)

/-- A run of writes leaves every address outside the run alone. -/
theorem memRead_memWriteRun_outside {a b : Nat} (m : Memory) (bs : List Byte) (h : b < a ∨ a + bs.length ≤ b) :
    memRead (memWriteRun m a bs) b = memRead m b := by
  induction bs generalizing m a with
  | nil => rfl
  | cons v bs ih =>
    simp only [List.length_cons] at h
    rw [memWriteRun, ih (memWrite m a v) (by omega), memRead_memWrite_ne _ _ (by omega)]

/-- Inside the run each address reads as the byte written there. -/
theorem memRead_memWriteRun_inside {m : Memory} {a i : Nat} {bs : List Byte} (hm : Memory.wf m = true)
    (hi : i < bs.length) : memRead (memWriteRun m a bs) (a + i) = bs[i] := by
  induction bs generalizing m a i with
  | nil => simp at hi
  | cons v bs ih =>
    rw [memWriteRun]
    cases i with
    | zero =>
      rw [memRead_memWriteRun_outside _ _ (by omega)]
      exact memRead_memWrite_self a v hm
    | succ i =>
      have := ih (a := a + 1) (Memory.wf_memWrite a v hm) (Nat.lt_of_succ_lt_succ hi)
      rwa [show a + 1 + i = a + (i + 1) by omega] at this

/-- Beyond the buffer nothing is listed. -/
theorem memRead_of_within {m : Memory} {size a : Nat} (h : Memory.within m size = true) (ha : size ≤ a) :
    memRead m a = 0 := by
  induction m with
  | nil => rfl
  | cons c m ih =>
    have hc := Memory.within_cons.1 h
    rw [memRead_cons, if_neg (by omega)]
    exact ih hc.2

/-- The contents built from cells are canonical and inside the buffer. -/
theorem memOfCells_wf (size : Nat) (cells : List Host.Cell) :
    Memory.wf (memOfCells size cells) = true ∧ Memory.within (memOfCells size cells) size = true := by
  suffices H : ∀ m : Memory, Memory.wf m = true → Memory.within m size = true →
      Memory.wf (cells.foldl (fun m c => if c.1 < size then memWrite m c.1 c.2 else m) m) = true ∧
      Memory.within (cells.foldl (fun m c => if c.1 < size then memWrite m c.1 c.2 else m) m) size = true from
    H [] rfl rfl
  induction cells with
  | nil => exact fun m h h' => ⟨h, h'⟩
  | cons c cells ih =>
    intro m h h'
    simp only [List.foldl_cons]
    split
    · rename_i hlt
      exact ih _ (Memory.wf_memWrite _ _ h) (Memory.within_memWrite _ h' hlt)
    · exact ih _ h h'

/-- Two canonical memories that read alike everywhere are equal: equal memories are equal data. -/
theorem Memory.ext_of_wf {lo : Nat} {m m' : Memory} (h : memWfFrom lo m = true) (h' : memWfFrom lo m' = true)
    (heq : ∀ a, memRead m a = memRead m' a) : m = m' := by
  induction m generalizing lo m' with
  | nil =>
    cases m' with
    | nil => rfl
    | cons c m' =>
      have := heq c.1
      rw [memRead_cons, if_pos rfl] at this
      exact absurd this.symm (memWfFrom_cons.1 h').2.1
  | cons c m ih =>
    have hc := memWfFrom_cons.1 h
    cases m' with
    | nil =>
      have := heq c.1
      rw [memRead_cons, if_pos rfl] at this
      exact absurd this hc.2.1
    | cons d m' =>
      have hd := memWfFrom_cons.1 h'
      have hfst : c.1 = d.1 := by
        rcases Nat.lt_trichotomy c.1 d.1 with hlt | he | hgt
        · have := heq c.1
          rw [memRead_cons, if_pos rfl, memRead_below (lo := d.1) (memWfFrom_cons.2 ⟨le_refl _, hd.2⟩) hlt] at this
          exact absurd this hc.2.1
        · exact he
        · have := heq d.1
          rw [memRead_below (lo := c.1) (memWfFrom_cons.2 ⟨le_refl _, hc.2⟩) hgt, memRead_cons, if_pos rfl] at this
          exact absurd this.symm hd.2.1
      have hsnd : c.2 = d.2 := by
        have := heq c.1
        rwa [memRead_cons, if_pos rfl, memRead_cons, if_pos hfst.symm] at this
      have htail : m = m' := by
        refine ih (lo := c.1 + 1) hc.2.2 (by rw [hfst]; exact hd.2.2) fun a => ?_
        by_cases ha : c.1 = a
        · rw [memRead_below hc.2.2 (by omega), memRead_below hd.2.2 (by omega)]
        · have := heq a
          rwa [memRead_cons, if_neg ha, memRead_cons, if_neg (by omega)] at this
      rw [htail, Prod.ext hfst hsnd]

end Sys2Proof.Machine
end

