-- ==== Sys2Proof/Laws/State.lean ====
section
/-! SUPPORT. What each named update of the state does to each field: one lemma per field per update, true by rfl. -/

namespace Sys2Proof.Machine

variable (s : State)

@[simp] theorem State.setPhase_params (p : BitVec 4) : (s.setPhase p).params = s.params := rfl
@[simp] theorem State.setPhase_busy (p : BitVec 4) : (s.setPhase p).busy = s.busy := rfl
@[simp] theorem State.setPhase_done (p : BitVec 4) : (s.setPhase p).done = s.done := rfl
@[simp] theorem State.setPhase_err (p : BitVec 4) : (s.setPhase p).err = s.err := rfl
@[simp] theorem State.setPhase_phase (p : BitVec 4) : (s.setPhase p).phase = p := rfl
@[simp] theorem State.setPhase_errcode (p : BitVec 4) : (s.setPhase p).errcode = s.errcode := rfl
@[simp] theorem State.setPhase_ie (p : BitVec 4) : (s.setPhase p).ie = s.ie := rfl
@[simp] theorem State.setPhase_inLen (p : BitVec 4) : (s.setPhase p).inLen = s.inLen := rfl
@[simp] theorem State.setPhase_outLen (p : BitVec 4) : (s.setPhase p).outLen = s.outLen := rfl
@[simp] theorem State.setPhase_ibuf (p : BitVec 4) : (s.setPhase p).ibuf = s.ibuf := rfl
@[simp] theorem State.setPhase_obuf (p : BitVec 4) : (s.setPhase p).obuf = s.obuf := rfl
@[simp] theorem State.setPhase_work (p : BitVec 4) : (s.setPhase p).work = s.work := rfl
@[simp] theorem State.setPhase_schedule (p : BitVec 4) : (s.setPhase p).schedule = s.schedule := rfl
@[simp] theorem State.setPhase_replies (p : BitVec 4) : (s.setPhase p).replies = s.replies := rfl

@[simp] theorem State.setWork_params (w : Work) : (s.setWork w).params = s.params := rfl
@[simp] theorem State.setWork_busy (w : Work) : (s.setWork w).busy = s.busy := rfl
@[simp] theorem State.setWork_done (w : Work) : (s.setWork w).done = s.done := rfl
@[simp] theorem State.setWork_err (w : Work) : (s.setWork w).err = s.err := rfl
@[simp] theorem State.setWork_phase (w : Work) : (s.setWork w).phase = s.phase := rfl
@[simp] theorem State.setWork_errcode (w : Work) : (s.setWork w).errcode = s.errcode := rfl
@[simp] theorem State.setWork_ie (w : Work) : (s.setWork w).ie = s.ie := rfl
@[simp] theorem State.setWork_inLen (w : Work) : (s.setWork w).inLen = s.inLen := rfl
@[simp] theorem State.setWork_outLen (w : Work) : (s.setWork w).outLen = s.outLen := rfl
@[simp] theorem State.setWork_ibuf (w : Work) : (s.setWork w).ibuf = s.ibuf := rfl
@[simp] theorem State.setWork_obuf (w : Work) : (s.setWork w).obuf = s.obuf := rfl
@[simp] theorem State.setWork_work (w : Work) : (s.setWork w).work = w := rfl
@[simp] theorem State.setWork_schedule (w : Work) : (s.setWork w).schedule = s.schedule := rfl
@[simp] theorem State.setWork_replies (w : Work) : (s.setWork w).replies = s.replies := rfl

@[simp] theorem State.setObuf_params (m : Memory) : (s.setObuf m).params = s.params := rfl
@[simp] theorem State.setObuf_busy (m : Memory) : (s.setObuf m).busy = s.busy := rfl
@[simp] theorem State.setObuf_done (m : Memory) : (s.setObuf m).done = s.done := rfl
@[simp] theorem State.setObuf_err (m : Memory) : (s.setObuf m).err = s.err := rfl
@[simp] theorem State.setObuf_phase (m : Memory) : (s.setObuf m).phase = s.phase := rfl
@[simp] theorem State.setObuf_errcode (m : Memory) : (s.setObuf m).errcode = s.errcode := rfl
@[simp] theorem State.setObuf_ie (m : Memory) : (s.setObuf m).ie = s.ie := rfl
@[simp] theorem State.setObuf_inLen (m : Memory) : (s.setObuf m).inLen = s.inLen := rfl
@[simp] theorem State.setObuf_outLen (m : Memory) : (s.setObuf m).outLen = s.outLen := rfl
@[simp] theorem State.setObuf_ibuf (m : Memory) : (s.setObuf m).ibuf = s.ibuf := rfl
@[simp] theorem State.setObuf_obuf (m : Memory) : (s.setObuf m).obuf = m := rfl
@[simp] theorem State.setObuf_work (m : Memory) : (s.setObuf m).work = s.work := rfl
@[simp] theorem State.setObuf_schedule (m : Memory) : (s.setObuf m).schedule = s.schedule := rfl
@[simp] theorem State.setObuf_replies (m : Memory) : (s.setObuf m).replies = s.replies := rfl

@[simp] theorem State.setIbuf_params (m : Memory) : (s.setIbuf m).params = s.params := rfl
@[simp] theorem State.setIbuf_busy (m : Memory) : (s.setIbuf m).busy = s.busy := rfl
@[simp] theorem State.setIbuf_done (m : Memory) : (s.setIbuf m).done = s.done := rfl
@[simp] theorem State.setIbuf_err (m : Memory) : (s.setIbuf m).err = s.err := rfl
@[simp] theorem State.setIbuf_phase (m : Memory) : (s.setIbuf m).phase = s.phase := rfl
@[simp] theorem State.setIbuf_errcode (m : Memory) : (s.setIbuf m).errcode = s.errcode := rfl
@[simp] theorem State.setIbuf_ie (m : Memory) : (s.setIbuf m).ie = s.ie := rfl
@[simp] theorem State.setIbuf_inLen (m : Memory) : (s.setIbuf m).inLen = s.inLen := rfl
@[simp] theorem State.setIbuf_outLen (m : Memory) : (s.setIbuf m).outLen = s.outLen := rfl
@[simp] theorem State.setIbuf_ibuf (m : Memory) : (s.setIbuf m).ibuf = m := rfl
@[simp] theorem State.setIbuf_obuf (m : Memory) : (s.setIbuf m).obuf = s.obuf := rfl
@[simp] theorem State.setIbuf_work (m : Memory) : (s.setIbuf m).work = s.work := rfl
@[simp] theorem State.setIbuf_schedule (m : Memory) : (s.setIbuf m).schedule = s.schedule := rfl
@[simp] theorem State.setIbuf_replies (m : Memory) : (s.setIbuf m).replies = s.replies := rfl

@[simp] theorem State.reply_params (r : Reply) : (s.reply r).params = s.params := rfl
@[simp] theorem State.reply_busy (r : Reply) : (s.reply r).busy = s.busy := rfl
@[simp] theorem State.reply_done (r : Reply) : (s.reply r).done = s.done := rfl
@[simp] theorem State.reply_err (r : Reply) : (s.reply r).err = s.err := rfl
@[simp] theorem State.reply_phase (r : Reply) : (s.reply r).phase = s.phase := rfl
@[simp] theorem State.reply_errcode (r : Reply) : (s.reply r).errcode = s.errcode := rfl
@[simp] theorem State.reply_ie (r : Reply) : (s.reply r).ie = s.ie := rfl
@[simp] theorem State.reply_inLen (r : Reply) : (s.reply r).inLen = s.inLen := rfl
@[simp] theorem State.reply_outLen (r : Reply) : (s.reply r).outLen = s.outLen := rfl
@[simp] theorem State.reply_ibuf (r : Reply) : (s.reply r).ibuf = s.ibuf := rfl
@[simp] theorem State.reply_obuf (r : Reply) : (s.reply r).obuf = s.obuf := rfl
@[simp] theorem State.reply_work (r : Reply) : (s.reply r).work = s.work := rfl
@[simp] theorem State.reply_schedule (r : Reply) : (s.reply r).schedule = s.schedule := rfl
@[simp] theorem State.reply_replies (r : Reply) : (s.reply r).replies = r :: s.replies := rfl

@[simp] theorem State.prologue_params : (s.prologue).params = s.params := rfl
@[simp] theorem State.prologue_busy : (s.prologue).busy = s.busy := rfl
@[simp] theorem State.prologue_done : (s.prologue).done = false := rfl
@[simp] theorem State.prologue_err : (s.prologue).err = false := rfl
@[simp] theorem State.prologue_phase : (s.prologue).phase = s.phase := rfl
@[simp] theorem State.prologue_errcode : (s.prologue).errcode = 0 := rfl
@[simp] theorem State.prologue_ie : (s.prologue).ie = s.ie := rfl
@[simp] theorem State.prologue_inLen : (s.prologue).inLen = s.inLen := rfl
@[simp] theorem State.prologue_outLen : (s.prologue).outLen = s.outLen := rfl
@[simp] theorem State.prologue_ibuf : (s.prologue).ibuf = s.ibuf := rfl
@[simp] theorem State.prologue_obuf : (s.prologue).obuf = s.obuf := rfl
@[simp] theorem State.prologue_work : (s.prologue).work = s.work := rfl
@[simp] theorem State.prologue_schedule : (s.prologue).schedule = s.schedule := rfl
@[simp] theorem State.prologue_replies : (s.prologue).replies = s.replies := rfl

@[simp] theorem State.startAt_params (p : BitVec 4) : (s.startAt p).params = s.params := rfl
@[simp] theorem State.startAt_busy (p : BitVec 4) : (s.startAt p).busy = true := rfl
@[simp] theorem State.startAt_done (p : BitVec 4) : (s.startAt p).done = s.done := rfl
@[simp] theorem State.startAt_err (p : BitVec 4) : (s.startAt p).err = s.err := rfl
@[simp] theorem State.startAt_phase (p : BitVec 4) : (s.startAt p).phase = p := rfl
@[simp] theorem State.startAt_errcode (p : BitVec 4) : (s.startAt p).errcode = s.errcode := rfl
@[simp] theorem State.startAt_ie (p : BitVec 4) : (s.startAt p).ie = s.ie := rfl
@[simp] theorem State.startAt_inLen (p : BitVec 4) : (s.startAt p).inLen = s.inLen := rfl
@[simp] theorem State.startAt_outLen (p : BitVec 4) : (s.startAt p).outLen = 0 := rfl
@[simp] theorem State.startAt_ibuf (p : BitVec 4) : (s.startAt p).ibuf = s.ibuf := rfl
@[simp] theorem State.startAt_obuf (p : BitVec 4) : (s.startAt p).obuf = s.obuf := rfl
@[simp] theorem State.startAt_work (p : BitVec 4) : (s.startAt p).work = s.work := rfl
@[simp] theorem State.startAt_schedule (p : BitVec 4) : (s.startAt p).schedule = s.schedule := rfl
@[simp] theorem State.startAt_replies (p : BitVec 4) : (s.startAt p).replies = s.replies := rfl

@[simp] theorem State.raise_params (e : ErrorCode) : (s.raise e).params = s.params := rfl
@[simp] theorem State.raise_busy (e : ErrorCode) : (s.raise e).busy = false := rfl
@[simp] theorem State.raise_done (e : ErrorCode) : (s.raise e).done = s.done := rfl
@[simp] theorem State.raise_err (e : ErrorCode) : (s.raise e).err = true := rfl
@[simp] theorem State.raise_phase (e : ErrorCode) : (s.raise e).phase = s.phase := rfl
@[simp] theorem State.raise_errcode (e : ErrorCode) : (s.raise e).errcode = e.code := rfl
@[simp] theorem State.raise_ie (e : ErrorCode) : (s.raise e).ie = s.ie := rfl
@[simp] theorem State.raise_inLen (e : ErrorCode) : (s.raise e).inLen = s.inLen := rfl
@[simp] theorem State.raise_outLen (e : ErrorCode) : (s.raise e).outLen = s.outLen := rfl
@[simp] theorem State.raise_ibuf (e : ErrorCode) : (s.raise e).ibuf = s.ibuf := rfl
@[simp] theorem State.raise_obuf (e : ErrorCode) : (s.raise e).obuf = s.obuf := rfl
@[simp] theorem State.raise_work (e : ErrorCode) : (s.raise e).work = s.work := rfl
@[simp] theorem State.raise_schedule (e : ErrorCode) : (s.raise e).schedule = s.schedule := rfl
@[simp] theorem State.raise_replies (e : ErrorCode) : (s.raise e).replies = s.replies := rfl

@[simp] theorem State.rejectCommand_params : (s.rejectCommand).params = s.params := rfl
@[simp] theorem State.rejectCommand_busy : (s.rejectCommand).busy = s.busy := rfl
@[simp] theorem State.rejectCommand_done : (s.rejectCommand).done = s.done := rfl
@[simp] theorem State.rejectCommand_err : (s.rejectCommand).err = true := rfl
@[simp] theorem State.rejectCommand_phase : (s.rejectCommand).phase = 0 := rfl
@[simp] theorem State.rejectCommand_errcode : (s.rejectCommand).errcode = 8 := rfl
@[simp] theorem State.rejectCommand_ie : (s.rejectCommand).ie = s.ie := rfl
@[simp] theorem State.rejectCommand_inLen : (s.rejectCommand).inLen = s.inLen := rfl
@[simp] theorem State.rejectCommand_outLen : (s.rejectCommand).outLen = 0 := rfl
@[simp] theorem State.rejectCommand_ibuf : (s.rejectCommand).ibuf = s.ibuf := rfl
@[simp] theorem State.rejectCommand_obuf : (s.rejectCommand).obuf = s.obuf := rfl
@[simp] theorem State.rejectCommand_work : (s.rejectCommand).work = s.work := rfl
@[simp] theorem State.rejectCommand_schedule : (s.rejectCommand).schedule = s.schedule := rfl
@[simp] theorem State.rejectCommand_replies : (s.rejectCommand).replies = s.replies := rfl

@[simp] theorem State.complete_params (n : Nat) : (s.complete n).params = s.params := rfl
@[simp] theorem State.complete_busy (n : Nat) : (s.complete n).busy = false := rfl
@[simp] theorem State.complete_done (n : Nat) : (s.complete n).done = true := rfl
@[simp] theorem State.complete_err (n : Nat) : (s.complete n).err = s.err := rfl
@[simp] theorem State.complete_phase (n : Nat) : (s.complete n).phase = 0 := rfl
@[simp] theorem State.complete_errcode (n : Nat) : (s.complete n).errcode = s.errcode := rfl
@[simp] theorem State.complete_ie (n : Nat) : (s.complete n).ie = s.ie := rfl
@[simp] theorem State.complete_inLen (n : Nat) : (s.complete n).inLen = s.inLen := rfl
@[simp] theorem State.complete_outLen (n : Nat) : (s.complete n).outLen = fit 32 n := rfl
@[simp] theorem State.complete_ibuf (n : Nat) : (s.complete n).ibuf = s.ibuf := rfl
@[simp] theorem State.complete_obuf (n : Nat) : (s.complete n).obuf = s.obuf := rfl
@[simp] theorem State.complete_work (n : Nat) : (s.complete n).work = s.work := rfl
@[simp] theorem State.complete_schedule (n : Nat) : (s.complete n).schedule = s.schedule := rfl
@[simp] theorem State.complete_replies (n : Nat) : (s.complete n).replies = s.replies := rfl

end Sys2Proof.Machine
end

