-- ==== Sys2Proof/Laws/Ops.lean ====
section
/-! SUPPORT. One lemma per shared operation: all that it can do. -/

namespace Sys2Proof.Machine

/-- A value that fits its field is stored as it is (10_state.md R36). -/
theorem fit_toNat {w v : Nat} (h : v < 2 ^ w) : (fit w v).toNat = v := by
  simp [fit, h, Nat.mod_eq_of_lt h]

theorem fit_eq_ofNat {w v : Nat} (h : v < 2 ^ w) : fit w v = BitVec.ofNat w v := by simp [fit, h]

/-- A value read from a field and stored in one as wide comes back. -/
@[simp] theorem fit_of_toNat {w : Nat} (b : BitVec w) : fit w b.toNat = b := by
  simp [fit, b.isLt]

/-- All that accepting a CMD write can do. -/
theorem accept_cases (s : State) (f : State → State) :
    (s.busy = true ∧ accept s f = s) ∨ (s.busy = false ∧ accept s f = f s.prologue) := by
  unfold accept
  cases s.busy <;> simp

/-- All that `orFault` can do. -/
theorem orFault_next {α : Type} {r : Except Fault α} {k : α → Host.Outcome State Fault Refusal} {t : State}
    (h : orFault r k = .next t) : ∃ a, r = .ok a ∧ k a = .next t := by
  cases r with
  | ok a => exact ⟨a, rfl, h⟩
  | error f => cases h

@[simp] theorem orFault_ok {α : Type} (a : α) (k : α → Host.Outcome State Fault Refusal) : orFault (.ok a) k = k a := rfl

@[simp] theorem orFault_error {α : Type} (f : Fault) (k : α → Host.Outcome State Fault Refusal) :
    orFault (.error f) k = .fault f := rfl

/-- All that the ENGINE's reading of the input can do. -/
theorem engineInput_cases (s : State) :
    (s.inLen ≤ s.params.ibufSize ∧ engineInput s = .ok (inputBytes s)) ∨
    (s.params.ibufSize < s.inLen ∧ engineInput s = .error (.ibufOutside s.params.ibufSize.toNat)) := by
  unfold engineInput
  by_cases h : s.params.ibufSize < s.inLen
  · exact .inr ⟨h, if_pos h⟩
  · exact .inl ⟨BitVec.not_lt.1 h, if_neg h⟩

@[simp] theorem inputBytes_length (s : State) : (inputBytes s).length = s.inLen.toNat := by simp [inputBytes]

theorem inputBytes_getElem (s : State) {i : Nat} (h : i < (inputBytes s).length) :
    (inputBytes s)[i] = memRead s.ibuf i := by
  simp [inputBytes]

/-- All that the ENGINE's writing to OBUF can do. -/
theorem enginePut_ok {s t : State} {base : Nat} {bytes : List Byte} (h : enginePut s base bytes = .ok t) :
    t = s.setObuf (memWriteRun s.obuf base bytes) ∧
      (bytes.length = 0 ∨ base + bytes.length ≤ s.params.obufSize.toNat) := by
  unfold enginePut at h
  split at h
  · next hle => exact ⟨by cases h; rfl, hle⟩
  · cases h

/-- Inside OBUF the writing always succeeds. -/
theorem enginePut_inside {s : State} {base : Nat} {bytes : List Byte}
    (h : base + bytes.length ≤ s.params.obufSize.toNat) :
    enginePut s base bytes = .ok (s.setObuf (memWriteRun s.obuf base bytes)) := by
  unfold enginePut
  rw [if_pos (.inr h)]

end Sys2Proof.Machine
end

