-- ==== Sys2Proof/Laws/Tables.lean ====
section
/-! SUPPORT. The laws of the tables: reading an entry after writing one, and the list of the symbols a table marks. -/

namespace Sys2Proof.Machine

variable {α : Type}

@[simp] theorem tableGet_tablePut_self (t : Vector α 256) (s : Symbol) (v : α) : tableGet (tablePut t s v) s = v := by
  simp [tableGet, tablePut]

@[simp] theorem tableGet_tablePut_ne (t : Vector α 256) {s r : Symbol} (v : α) (h : r ≠ s) :
    tableGet (tablePut t s v) r = tableGet t r := by
  have : s.toNat ≠ r.toNat := fun e => h (BitVec.eq_of_toNat_eq e.symm)
  simp [tableGet, tablePut, this]

theorem tableGet_tablePut (t : Vector α 256) (s r : Symbol) (v : α) :
    tableGet (tablePut t s v) r = if r = s then v else tableGet t r := by
  split
  · next h => rw [h, tableGet_tablePut_self]
  · next h => exact tableGet_tablePut_ne t v h

@[simp] theorem tableGet_replicate (v : α) (s : Symbol) : tableGet (Vector.replicate 256 v) s = v := by
  simp [tableGet]

/-- A table is determined by its entries. -/
theorem table_ext {t t' : Vector α 256} (h : ∀ s, tableGet t s = tableGet t' s) : t = t' := by
  ext i hi
  have := h (BitVec.ofNat 8 i)
  simpa [tableGet, Nat.mod_eq_of_lt hi] using this

@[simp] theorem mem_symbols (s : Symbol) : s ∈ symbols := by
  simp only [symbols, Config.nsymMax, List.mem_map, List.mem_range]
  exact ⟨s.toNat, s.isLt, by simp⟩

@[simp] theorem symbols_length : symbols.length = 256 := by simp [symbols, Config.nsymMax]

theorem symbols_getElem {i : Nat} (h : i < symbols.length) : symbols[i] = BitVec.ofNat 8 i := by
  simp [symbols]

/-- The symbols are in ascending order. -/
theorem symbols_sorted : symbols.Pairwise (fun a b => a.toNat < b.toNat) := by
  rw [List.pairwise_iff_getElem]
  intro i j hi hj hij
  have hi' : i < 256 := by simpa using hi
  have hj' : j < 256 := by simpa using hj
  rw [symbols_getElem, symbols_getElem]
  simp only [BitVec.toNat_ofNat]
  omega

theorem symbols_nodup : symbols.Nodup :=
  symbols_sorted.imp fun h e => absurd (congrArg BitVec.toNat e) (Nat.ne_of_lt h)

/-- The zipped form of `symbolsIn` is the filter it stands for. -/
theorem symbolsIn_eq_filter (t : Vector Bool 256) : symbolsIn t = symbols.filter (tableGet t) := by
  have hz : symbols.zip t.toList = symbols.map (fun s => (s, tableGet t s)) := by
    apply List.ext_getElem
    · simp
    · intro i h1 h2
      have hi : i < 256 := by simpa using h2
      simp [symbols_getElem, tableGet, Nat.mod_eq_of_lt hi]
  rw [symbolsIn, hz, List.filter_map, List.map_map]
  simp [Function.comp_def]

@[simp] theorem mem_symbolsIn {t : Vector Bool 256} {s : Symbol} : s ∈ symbolsIn t ↔ tableGet t s = true := by
  simp [symbolsIn_eq_filter]

theorem symbolsIn_sorted (t : Vector Bool 256) : (symbolsIn t).Pairwise (fun a b => a.toNat < b.toNat) := by
  rw [symbolsIn_eq_filter]; exact symbols_sorted.filter _

theorem symbolsIn_nodup (t : Vector Bool 256) : (symbolsIn t).Nodup := by
  rw [symbolsIn_eq_filter]; exact symbols_nodup.filter _

theorem symbolsIn_length_le (t : Vector Bool 256) : (symbolsIn t).length ≤ 256 := by
  rw [symbolsIn_eq_filter, ← symbols_length]; exact List.length_filter_le _ _

/-- A list of distinct symbols has at most 256 of them. -/
theorem nodup_symbols_length_le {l : List Symbol} (h : l.Nodup) : l.length ≤ 256 := by
  rw [← symbols_length]
  exact (List.subperm_of_subset h fun s _ => mem_symbols s).length_le

@[simp] theorem symbolsIn_replicate_false : symbolsIn (Vector.replicate 256 false) = [] := by
  rw [List.eq_nil_iff_forall_not_mem]
  intro s
  simp

@[simp] theorem nodeGet_nodePut_self (t : Vector Node 511) {i : Nat} (v : Node) (h : i < 511) :
    nodeGet (nodePut t i v) i = some v := by
  simp [nodeGet, nodePut, h]

@[simp] theorem nodeGet_nodePut_ne (t : Vector Node 511) {i j : Nat} (v : Node) (h : j ≠ i) :
    nodeGet (nodePut t i v) j = nodeGet t j := by
  simp [nodeGet, nodePut, Ne.symm h]

theorem nodeGet_isSome_iff (t : Vector Node 511) (i : Nat) : (nodeGet t i).isSome = true ↔ i < 511 := by
  by_cases h : i < 511 <;> simp [nodeGet, h]

end Sys2Proof.Machine
end

