-- ==== Sys2Proof/Laws/Operands.lean ====
section
/-! SUPPORT. The first lemmas of the operand forms: lengths of bit strings and byte strings, and the unfolding of the readers
and writers one byte at a time. -/

namespace Sys2Proof.Machine

@[simp] theorem bits_length (v L : Nat) : (bits v L).length = L := by simp [bits]

@[simp] theorem codeOf_length (w : Work) (s : Symbol) : (codeOf w s).length = (tableGet w.ct s).len.toNat := by
  simp [codeOf]

@[simp] theorem val_nil : val [] = 0 := rfl

/-- Appending a bit doubles the value and adds the bit. -/
theorem val_append_bit (c : BitString) (b : Bool) : val (c ++ [b]) = 2 * val c + b.toNat := by
  simp [val, List.foldl_append]

@[simp] theorem mem_validSymbols {w : Work} {s : Symbol} : s ∈ validSymbols w ↔ tableGet w.ctValid s = true := by
  simp [validSymbols]

@[simp] theorem isPrefix_iff (c d : BitString) : isPrefix c d = true ↔ c <+: d := by simp [isPrefix]

theorem isProperPrefix_iff (c d : BitString) : isProperPrefix c d = true ↔ c.length < d.length ∧ c <+: d := by
  simp [isProperPrefix]

@[simp] theorem bitsOfByte_length (b : Byte) : (bitsOfByte b).length = 8 := by simp [bitsOfByte]

@[simp] theorem streamOf_nil : streamOf [] = [] := rfl

theorem streamOf_append (x y : List Byte) : streamOf (x ++ y) = streamOf x ++ streamOf y := by simp [streamOf]

@[simp] theorem streamOf_length (bs : List Byte) : (streamOf bs).length = 8 * bs.length := by
  induction bs with
  | nil => rfl
  | cons b bs ih => simp only [streamOf, List.flatMap_cons, List.length_append, bitsOfByte_length] at ih ⊢; simp; omega

@[simp] theorem putCodeBits_length (v n : Nat) : (putCodeBits v n).length = n := by simp [putCodeBits]

@[simp] theorem entryBytes_length (w : Work) (s : Symbol) :
    (entryBytes w s).length = 2 + codeBytes (tableGet w.ct s).len.toNat := by
  simp [entryBytes]; omega

theorem putVarintFrom_succ (fuel x : Nat) : putVarintFrom (fuel + 1) x =
    if x / 128 ≠ 0 then BitVec.ofNat 8 (x % 128 + 128) :: putVarintFrom fuel (x / 128)
    else [BitVec.ofNat 8 (x % 128)] := rfl

/-- The code lengths summed are the length of the codes put one after another. -/
theorem flatMap_codeOf_length (w : Work) (input : List Byte) : (input.flatMap (codeOf w)).length = codeLenSum w input := by
  induction input with
  | nil => rfl
  | cons b bs ih => simp_all [codeLenSum]

theorem packStream_length (w : Work) (input : List Byte) :
    (packStream w input).length = codeLenSum w input + w.pad.toNat := by
  rw [packStream, List.length_append, flatMap_codeOf_length, List.length_replicate]

/-- No code is longer than 255 bits (10_state.md R36). -/
theorem codeLenSum_le (w : Work) (input : List Byte) : codeLenSum w input ≤ 255 * input.length := by
  induction input with
  | nil => simp [codeLenSum]
  | cons b bs ih =>
    have := (tableGet w.ct b).len.isLt
    simp only [codeLenSum, List.map_cons, List.sum_cons, List.length_cons] at ih ⊢
    omega

theorem varintLen_le (x : Nat) : varintLen x ≤ 5 := by unfold varintLen; split_ifs <;> omega

theorem codeBytes_le (w : Work) (s : Symbol) : codeBytes (tableGet w.ct s).len.toNat ≤ 32 := by
  have := (tableGet w.ct s).len.isLt
  unfold codeBytes; omega

/-- The header of any table is at most 8717 bytes when NSYM has a two-byte varint (10_state.md R36). -/
theorem headerLen_le (w : Work) (total : Nat) (h : w.nsym.toNat < 2 ^ 14) : headerLen w total ≤ 8717 := by
  have hs : ∀ l : List Symbol, (l.map fun s => 2 + codeBytes (tableGet w.ct s).len.toNat).sum ≤ 34 * l.length := by
    intro l
    induction l with
    | nil => simp
    | cons a l ih => have := codeBytes_le w a; simp only [List.map_cons, List.sum_cons, List.length_cons]; omega
  have h1 := hs (validSymbols w)
  have h2 : (validSymbols w).length ≤ 256 := symbolsIn_length_le _
  have h3 := varintLen_le total
  have h4 : varintLen w.nsym.toNat ≤ 2 := by
    unfold varintLen; split_ifs <;> omega
  unfold headerLen
  omega

end Sys2Proof.Machine
end

