-- ==== Sys2Proof/Laws/Codes.lean ====
section
/-! SUPPORT. The pairwise check of D_TABLE is prefix-freeness, and a prefix-free table finds the one symbol of a code. -/

namespace Sys2Proof.Machine

/-- The check of 42_decoder_stages.md R154 finds no clash exactly in a prefix-free table. -/
theorem prefixClash_eq_false_iff (w : Work) : prefixClash w = false ↔ prefixFree w := by
  simp only [prefixClash, prefixFree, List.any_eq_false, mem_validSymbols, Bool.and_eq_true, bne_iff_ne, isPrefix_iff,
    Bool.not_eq_true, ne_eq]
  exact ⟨fun h a b hab ha hb hp => h a ha b hb ⟨hab, hp⟩, fun h a ha b hb hp => h a b hp.1 ha hb hp.2⟩

/-- Two valid symbols of a prefix-free table with one code are one symbol. -/
theorem prefixFree.eq_of_codeOf_eq {w : Work} (h : prefixFree w) {a b : Symbol} (ha : tableGet w.ctValid a = true)
    (hb : tableGet w.ctValid b = true) (hc : codeOf w a = codeOf w b) : a = b := by
  by_contra hab
  exact h a b hab ha hb (hc ▸ List.prefix_refl _)

end Sys2Proof.Machine
end

