-- ==== Sys2Proof/Laws/PerInstr.lean ====
section
/-! SUPPORT. The family DecodeEncode: an instruction's encoding decodes to it, one lemma per constructor. -/

namespace Sys2Proof.Laws.DecodeEncode

/-- Decoding the encoding of a well-formed instruction gives it back (30_encoding.md R80, R83). -/
def Statement (i : Instr) : Prop := i.wellFormed = true → decode (encode i) = .ok i

theorem clr : Statement .clr := fun _ => rfl
theorem encode : Statement .encode := fun _ => rfl
theorem decode : Statement .decode := fun _ => rfl
theorem eFreq : Statement .eFreq := fun _ => rfl
theorem eBuild : Statement .eBuild := fun _ => rfl
theorem eCodes : Statement .eCodes := fun _ => rfl
theorem eMeasure : Statement .eMeasure := fun _ => rfl
theorem eHeader : Statement .eHeader := fun _ => rfl
theorem ePack : Statement .ePack := fun _ => rfl
theorem dHeader : Statement .dHeader := fun _ => rfl
theorem dTable : Statement .dTable := fun _ => rfl
theorem dWalk : Statement .dWalk := fun _ => rfl

end Sys2Proof.Laws.DecodeEncode
end

