-- ==== Sys2Proof/Laws/Runs.lean ====
section
/-! SUPPORT. A command ends in one state, with BUSY = 0. -/

namespace Sys2Proof.Machine

theorem EndsIn.busy_eq_false {s t : State} (h : EndsIn s t) : t.busy = false := by
  induction h with
  | ended idle => exact idle
  | goesOn _ _ _ ih => exact ih

/-- The first state with BUSY = 0 is one state. -/
theorem EndsIn.unique {s t t' : State} (h : EndsIn s t) (h' : EndsIn s t') : t = t' := by
  induction h with
  | ended idle =>
    cases h' with
    | ended _ => rfl
    | goesOn busy _ _ => simp [idle] at busy
  | goesOn busy next _ ih =>
    cases h' with
    | ended idle => simp [busy] at idle
    | goesOn _ next' rest' =>
      rw [next] at next'
      cases next'
      exact ih rest'

theorem CommandEnds.busy_eq_false {s t : State} {word : Word} {events : List Event} (h : CommandEnds s word events t) :
    t.busy = false := by
  obtain ⟨_, _, h⟩ := h
  exact h.busy_eq_false

theorem CommandEnds.unique {s t t' : State} {word : Word} {events : List Event} (h : CommandEnds s word events t)
    (h' : CommandEnds s word events t') : t = t' := by
  obtain ⟨u, hu, h⟩ := h
  obtain ⟨u', hu', h'⟩ := h'
  rw [hu] at hu'
  cases hu'
  exact h.unique h'

theorem interleaving_nil : Interleaving [] := fun _ h => nomatch h

theorem interleaving_cons {e : Event} {events : List Event} :
    Interleaving (e :: events) ↔ (e = .engine ∨ ∃ h : HostStep, e = .host h ∧ h.wellFormed = true) ∧ Interleaving events :=
  List.forall_mem_cons

end Sys2Proof.Machine
end

