-- ==== Sys2Proof/Tests/Slice0.lean ====
section
/-! SUPPORT. Tests of one step or one word each, with expected results from the tables and vectors of spec/ named beside
them, and for every obligation with hypotheses a concrete state and operands that meet them. -/

open Sys2Proof Sys2Proof.Machine

namespace Sys2Proof.Tests

set_option Elab.async false

/-! ## Helpers -/

/-- The outcome is a next state with the property. -/
def holds (o : Host.Outcome State Fault Refusal) (p : State → Bool) : Bool :=
  match o with
  | .next t => p t
  | .fault _ => false
  | .refused _ => false

theorem exists_of_holds {o : Host.Outcome State Fault Refusal} {p : State → Bool} (h : holds o p = true) :
    ∃ t, o = .next t ∧ p t = true := by
  cases o with
  | next t => exact ⟨t, rfl, h⟩
  | fault _ => cases h
  | refused _ => cases h

/-- The state after reset with an input loaded. -/
def load (bs : List Byte) : State :=
  { State.reset with ibuf := memWriteRun [] 0 bs, inLen := BitVec.ofNat 32 bs.length }

/-- The same with the ENGINE's turn due at a stage. -/
def due (s : State) (p : BitVec 4) : State := { s with busy := true, phase := p }

/-- The same on an instance with buffers of other sizes. -/
def sized (s : State) (ibuf obuf : Word) : State := { s with params := { s.params with ibufSize := ibuf, obufSize := obuf } }

/-- The memory holds these bytes from an address upward. -/
def bytesAt (m : Memory) (a : Nat) (bs : List Byte) : Bool := (List.range bs.length).map (fun i => memRead m (a + i)) == bs

/-- A working state with one more code. -/
def withCode (w : Work) (s : Symbol) (len : BitVec 8) (v : BitVec 255) : Work :=
  { w with ctValid := tablePut w.ctValid s true, ct := tablePut w.ct s { len := len, val := v } }

/-- A working state with one more present symbol. -/
def withCount (w : Work) (s : Symbol) (n : BitVec 32) : Work :=
  { w with present := tablePut w.present s true, count := tablePut w.count s n, nsym := w.nsym + 1 }

/-- The input of V-E1, "aaaabbbcc". -/
def abc : List Byte := [0x61, 0x61, 0x61, 0x61, 0x62, 0x62, 0x62, 0x63, 0x63]

/-- The header of V-E1's artifact. -/
def abcHeader : List Byte :=
  [0x48, 0x55, 0x46, 0x46, 0x01, 0x03, 0x61, 0x01, 0x00, 0x62, 0x02, 0x03, 0x63, 0x02, 0x02, 0x09, 0x02]

/-- The artifact of V-E1. -/
def abcArtifact : List Byte := abcHeader ++ [0x0F, 0xE8]

/-- The artifact of V-E2, "zzzz". -/
def zzzzArtifact : List Byte := [0x48, 0x55, 0x46, 0x46, 0x01, 0x01, 0x7A, 0x01, 0x00, 0x04, 0x04, 0x00]

/-- The frequency table of V-E1. -/
def abcCounts : Work := withCount (withCount (withCount Work.zero 0x61 4) 0x62 3) 0x63 2

/-- The code table of V-E1. -/
def abcCodes : Work := withCode (withCode (withCode Work.zero 0x61 1 0) 0x62 2 3) 0x63 2 2

/-- The tree of V-E1. -/
def abcTree : Work :=
  { Work.zero with
    node := nodePut (nodePut (nodePut (nodePut (nodePut Work.zero.node 0 (.leaf 4 0x61)) 1 (.leaf 3 0x62)) 2 (.leaf 2 0x63))
      3 (.internal 5 2 1)) 4 (.internal 9 0 3)
    root := 4, nnode := 5 }

/-- The node table of V-E4: two leaves of equal weight and their parent. -/
def abNodes : Vector Node 511 := nodePut (nodePut (nodePut Work.zero.node 0 (.leaf 1 0x61)) 1 (.leaf 1 0x62)) 2 (.internal 2 0 1)

/-- What E_HEADER finds for V-E1. -/
def abcMeasured : Work :=
  { abcCodes with nsym := 3, total := 9, totalBits := 14, pad := 2, payloadLen := 2, hdrLen := 17 }

/-- What D_WALK finds for V-D1. -/
def abcParsed : Work := { abcCodes with nsym := 3, total := 9, pad := 2, payloadOff := 17, maxlen := 2 }

/-- A state between commands that meets the invariant's checks. -/
def idleOk (s : State) : Bool :=
  s.params.wellFormed && !s.busy && !s.done && !s.err && s.phase == 0 && s.errcode == 0 && s.outLen == 0 &&
    Memory.wf s.ibuf && Memory.within s.ibuf s.params.ibufSize.toNat &&
    Memory.wf s.obuf && Memory.within s.obuf s.params.obufSize.toNat

theorem inv_of_idleOk {s : State} (h : idleOk s = true) : Inv s := by
  simp only [idleOk, Bool.and_eq_true, Bool.not_eq_true', beq_iff_eq] at h
  obtain ⟨⟨⟨⟨⟨⟨⟨⟨⟨⟨h1, h2⟩, h3⟩, h4⟩, h5⟩, h6⟩, h7⟩, h8⟩, h9⟩, h10⟩, h11⟩ := h
  exact {
    params := h1
    oneFlag := by simp [h2, h3, h4]
    phaseBusy := by simp [h2]
    phaseSet := by simp [h5]
    phaseErr := by simp [h4]
    errcode := by simp [h4, h6]
    outLenClear := by simp [h7]
    outLenRange := ⟨by rw [h7]; exact Nat.zero_le _, by simp [h3]⟩
    ibuf := ⟨h8, h9⟩
    obuf := ⟨h10, h11⟩
    artifactFits := by simp [h2]
    totalSet := by simp [h2] }

theorem live_of_idleOk {s : State} (h : idleOk s = true) : Live s := by
  have hb : s.busy = false := by
    simp only [idleOk, Bool.and_eq_true, Bool.not_eq_true'] at h; tauto
  exact { inv_of_idleOk h with
    inRange := by simp [hb]
    counted := by simp [hb]
    treeBuilt := by simp [hb]
    measured := by simp [hb] }

/-- A state that meets the checks, at the first stage of a command, is live. -/
theorem live_of_first_stage {s : State} (h : idleOk s = true) {p : BitVec 4} (hp : p = 1 ∨ p = 8) : Live (due s p) := by
  have hi := inv_of_idleOk h
  simp only [idleOk, Bool.and_eq_true, Bool.not_eq_true', beq_iff_eq] at h
  obtain ⟨⟨⟨⟨⟨⟨⟨⟨⟨⟨-, h2⟩, h3⟩, h4⟩, h5⟩, h6⟩, h7⟩, -⟩, -⟩, -⟩, -⟩ := h
  rcases hp with rfl | rfl <;>
  exact {
    params := hi.params
    oneFlag := by simp [due, h3, h4]
    phaseBusy := by simp [due, stageCodes]
    phaseSet := by simp [due]
    phaseErr := by simp [due, h4]
    errcode := by simp [due, h4, h6]
    outLenClear := by simp [due, h7]
    outLenRange := ⟨by simp only [due, h7]; exact Nat.zero_le _, by simp [due, h3]⟩
    ibuf := hi.ibuf
    obuf := hi.obuf
    artifactFits := by simp [due]
    totalSet := by simp [due]
    inRange := by simp [due]
    counted := by simp [due]
    treeBuilt := by simp [due]
    measured := by simp [due] }

/-- A check of the symbols listed in a table is a check of all symbols. -/
theorem forall_listed {t : Vector Bool 256} {P : Symbol → Prop} [DecidablePred P] (h : (symbolsIn t).all (fun b => decide (P b)) = true) :
    ∀ b : Symbol, tableGet t b = true → P b := by
  intro b hb
  exact of_decide_eq_true (List.all_eq_true.1 h b (mem_symbolsIn.2 hb))

/-- The first state with BUSY = 0 within so many steps. -/
def firstIdle : Nat → State → Option State
  | 0, s => if s.busy then none else some s
  | n + 1, s =>
    if s.busy then
      match step s with
      | .next u => firstIdle n u
      | .fault _ => none
      | .refused _ => none
    else some s

theorem endsIn_of_firstIdle {n : Nat} {s t : State} (h : firstIdle n s = some t) : EndsIn s t := by
  induction n generalizing s with
  | zero =>
    cases hb : s.busy
    · simp only [firstIdle, hb, Bool.false_eq_true, if_false, Option.some.injEq] at h
      exact h ▸ .ended hb
    · simp [firstIdle, hb] at h
  | succ n ih =>
    cases hb : s.busy
    · simp only [firstIdle, hb, Bool.false_eq_true, if_false, Option.some.injEq] at h
      exact h ▸ .ended hb
    · simp only [firstIdle, hb, if_true] at h
      cases hs : step s with
      | next u => exact .goesOn hb hs (ih (by simpa [hs] using h))
      | fault _ => simp [hs] at h
      | refused _ => simp [hs] at h

/-- The state a command ends in, within so many steps of the run after the CMD write. -/
def commandEnd (n : Nat) (s : State) (word : Word) (events : List Event) : Option State :=
  match step { s with schedule := .host (.regWrite 0x00 word) :: events } with
  | .next u => firstIdle n u
  | .fault _ => none
  | .refused _ => none

theorem exists_commandEnds {n : Nat} {s : State} {word : Word} {events : List Event} {p : State → Bool}
    (h : (commandEnd n s word events).any p = true) : ∃ t, CommandEnds s word events t ∧ p t = true := by
  unfold commandEnd at h
  cases hs : step { s with schedule := .host (.regWrite 0x00 word) :: events } with
  | next u =>
    simp only [hs, Option.any_eq_true] at h
    obtain ⟨t, ht, hp⟩ := h
    exact ⟨t, ⟨u, hs, endsIn_of_firstIdle ht⟩, hp⟩
  | fault _ =>
    rw [hs] at h
    cases h
  | refused _ =>
    rw [hs] at h
    cases h

/-- A HOST read before each turn of the ENGINE, and writes that a running command drops. -/
def interleaved : List Event :=
  [.host (.regRead 0x04), .engine, .host (.bufWrite .ibuf 0 0x55), .engine, .host (.regWrite 0x0C 1), .engine,
    .host (.regWrite 0x10 3), .engine, .host (.bufRead .obuf 0), .engine, .host (.regWrite 0x00 0), .engine]

theorem interleaving_interleaved : Interleaving interleaved := by
  have hr : ∀ h : HostStep, h.wellFormed = true → Event.host h = .engine ∨ ∃ k : HostStep, Event.host h = .host k ∧
      k.wellFormed = true := fun h hw => .inr ⟨h, rfl, hw⟩
  simp only [interleaved, interleaving_cons]
  exact ⟨hr _ (by decide), .inl trivial, hr _ (by decide), .inl trivial, hr _ (by decide), .inl trivial, hr _ (by decide), .inl trivial,
    hr _ (by decide), .inl trivial, hr _ (by decide), .inl trivial, interleaving_nil⟩

/-! ## Decoding: the words of 30_encoding.md R80 and R83, bit by bit (OPC in bits 7:0; PHASE in bits 7:4 of STATUS) -/

theorem test_decode_clr : decode (.command 0b00000000000000000000000000000000#32) = .ok .clr := by decide
theorem test_decode_encode : decode (.command 0b00000000000000000000000000000001#32) = .ok .encode := by decide
theorem test_decode_decode : decode (.command 0b00000000000000000000000000000010#32) = .ok .decode := by decide
theorem test_decode_eFreq : decode (.stage 0b00010000#8) = .ok .eFreq := by decide
theorem test_decode_eBuild : decode (.stage 0b00100000#8) = .ok .eBuild := by decide
theorem test_decode_eCodes : decode (.stage 0b00110000#8) = .ok .eCodes := by decide
theorem test_decode_eMeasure : decode (.stage 0b01000000#8) = .ok .eMeasure := by decide
theorem test_decode_eHeader : decode (.stage 0b01010000#8) = .ok .eHeader := by decide
theorem test_decode_ePack : decode (.stage 0b01100000#8) = .ok .ePack := by decide
theorem test_decode_dHeader : decode (.stage 0b10000000#8) = .ok .dHeader := by decide
theorem test_decode_dTable : decode (.stage 0b10010000#8) = .ok .dTable := by decide
theorem test_decode_dWalk : decode (.stage 0b10100000#8) = .ok .dWalk := by decide

/-- 30_encoding.md R81: OPC = 0 with ZERO ≠ 0 is illegal; R84: PHASE 7 and 15 are reserved. -/
theorem test_decode_refuses : decode (.command 0x00000100) = .error (.illegalCommand 0x00000100) ∧
    decode (.command 0x80000001) = .error (.illegalCommand 0x80000001) ∧
    decode (.stage 0b01110000#8) = .error (.reservedPhase 7) ∧
    decode (.stage 0b11110000#8) = .error (.reservedPhase 15) := by decide

/-- opcode_table.json: a command row has 32 bits, a stage row 8; no row has 16. -/
theorem test_decodeTableWord : decodeTableWord 32 2 = some .decode ∧ decodeTableWord 8 0xA0 = some .dWalk ∧
    decodeTableWord 32 0x10 = none ∧ decodeTableWord 8 0x70 = none ∧ decodeTableWord 16 0x10 = none := by decide

/-! ## WellFormed: an ill-formed term for each check -/

/-- 00_scope.md R6: 1 ≤ IBUF_SIZE and 1 ≤ OBUF_SIZE. -/
theorem test_params_wellFormed_refuses :
    Config.Params.wellFormed { Config.instanceParams with ibufSize := 0 } = false ∧
    Config.Params.wellFormed { Config.instanceParams with obufSize := 0 } = false ∧
    Config.Params.wellFormed Config.instanceParams = true := by decide

/-- 20_memory.md R63: offsets are multiples of 4. -/
theorem test_offsets_wellFormed_refuses : alignedOffset 0x02 = false ∧ alignedOffset 0x1C = true ∧
    HostStep.wellFormed (.regRead 0x01) = false ∧ HostStep.wellFormed (.regWrite 0x03 0) = false ∧
    Event.wellFormed (.host (.regRead 0x06)) = false ∧ Event.wellFormed .engine = true := by decide

theorem test_instr_wellFormed : ∀ i ∈ [Instr.clr, .encode, .decode, .eFreq, .eBuild, .eCodes, .eMeasure, .eHeader, .ePack,
    .dHeader, .dTable, .dWalk], i.wellFormed = true := by decide

/-! ## Operand forms (95_test_vectors.md section 2.1) -/

/-- V-F1. -/
theorem test_varint_write : putVarint 0 = [0x00] ∧ putVarint 127 = [0x7F] ∧ putVarint 128 = [0x80, 0x01] ∧
    putVarint 300 = [0xAC, 0x02] ∧ putVarint 16384 = [0x80, 0x80, 0x01] ∧
    putVarint 268435455 = [0xFF, 0xFF, 0xFF, 0x7F] ∧ putVarint 4294967295 = [0xFF, 0xFF, 0xFF, 0xFF, 0x0F] := by decide

/-- V-F1, V-F2. -/
theorem test_varint_read : getVarint [0xFF, 0xFF, 0xFF, 0xFF, 0x0F, 0xAA] = some (4294967295, [0xAA]) ∧
    getVarint [0x8F, 0x01] = some (143, []) ∧ getVarint [0x80, 0x00] = none ∧ getVarint [0xFF, 0x80, 0x00] = none ∧
    getVarint [0x80, 0x80, 0x80, 0x80, 0x10] = none ∧ getVarint [0x80, 0x80, 0x80, 0x80, 0x80, 0x01] = none ∧
    getVarint [0x80] = none := by decide

/-- V-F3, V-F4. -/
theorem test_codeBits : putCodeBits 510 (codeBytes 9) = [0x01, 0xFE] ∧ putCodeBits 1 (codeBytes 16) = [0x00, 0x01] ∧
    putCodeBits 2 (codeBytes 4) = [0x02] ∧ getCodeBits (codeBytes 9) 0 [0x01, 0xFE] = some (510, []) ∧
    (readEntry Work.zero [0x61, 0x03, 0x08]).2 = none ∧ (readEntry Work.zero [0x61, 0x09, 0x02, 0x00]).2 = none := by
  decide +kernel

/-- V-F6 and 00_scope.md R10: bit 7 first, and "0010" and "010" are two codes of value 2. -/
theorem test_bit_order : bitsOfByte 0xB0 = [true, false, true, true, false, false, false, false] ∧
    packByte [false, false, false, false, true, true, true, true, true, true, true, false, true, false, false, false] 0 = 0x0F ∧
    packByte [false, false, false, false, true, true, true, true, true, true, true, false, true, false, false, false] 1 = 0xE8 ∧
    bits 2 4 = [false, false, true, false] ∧ bits 2 3 = [false, true, false] := by decide +kernel

/-! ## Commands (40_commands.md R111 to R114) -/

/-- R111's example: STATUS = 0x84, ERRCODE = 3, then CLR. -/
theorem test_clr : holds (exec .clr { State.reset with err := true, phase := 8, errcode := 3, outLen := 7 })
    (fun t => statusWord t == 0 && t.errcode == 0 && t.outLen == 7) = true := by decide

theorem test_clr_while_busy : holds (exec .clr (due State.reset 4)) (fun t => statusWord t == 0x41) = true := by decide

/-- R112: STATUS = 0x11 after the accepted write. -/
theorem test_encode : holds (exec .encode { State.reset with done := true, outLen := 7 })
    (fun t => statusWord t == 0x11 && t.outLen == 0) = true := by decide

/-- R113: STATUS = 0x81 after the accepted write. -/
theorem test_decode : holds (exec .decode { State.reset with err := true, errcode := 5, phase := 10 })
    (fun t => statusWord t == 0x81 && t.errcode == 0) = true := by decide

/-- R114's example: STATUS = 4, ERRCODE = 8, OUT_LEN = 0. -/
theorem test_illegal_command : holds (step { State.reset with outLen := 7, schedule := [.host (.regWrite 0x00 3)] })
    (fun t => statusWord t == 0x04 && errcodeWord t == 8 && t.outLen == 0 && !t.busy) = true := by decide

/-! ## Encoder stages on V-E1 (95_test_vectors.md section 2.2) -/

theorem test_eFreq : holds (exec .eFreq (load abc)) (fun t => tableGet t.work.count 0x61 == 4 &&
    tableGet t.work.count 0x62 == 3 && tableGet t.work.count 0x63 == 2 && t.work.nsym == 3 && t.phase == 2) = true := by
  decide +kernel

/-- V-E13 (a): STATUS = 0x14, ERRCODE = 1. -/
theorem test_eFreq_empty : holds (exec .eFreq (due State.reset 1))
    (fun t => statusWord t == 0x14 && t.errcode == 1) = true := by decide +kernel

theorem test_eBuild : holds (exec .eBuild { load abc with work := abcCounts }) (fun t =>
    nodeGet t.work.node 0 == some (.leaf 4 0x61) && nodeGet t.work.node 3 == some (.internal 5 2 1) &&
    nodeGet t.work.node 4 == some (.internal 9 0 3) && t.work.root == 4 && t.work.nnode == 5) = true := by decide +kernel

/-- V-E7, "abcc": the leaf of weight 2 before the internal node of weight 2. -/
theorem test_eBuild_tie : holds (exec .eBuild
    { State.reset with work := withCount (withCount (withCount Work.zero 0x61 1) 0x62 1) 0x63 2 })
    (fun t => nodeGet t.work.node 3 == some (.internal 2 0 1) && nodeGet t.work.node 4 == some (.internal 4 2 3)) = true := by
  decide +kernel

theorem test_eCodes : holds (exec .eCodes { load abc with work := abcTree }) (fun t =>
    tableGet t.work.ct 0x61 == { len := 1, val := 0 } && tableGet t.work.ct 0x62 == { len := 2, val := 3 } &&
    tableGet t.work.ct 0x63 == { len := 2, val := 2 } && validSymbols t.work == [0x61, 0x62, 0x63] &&
    t.work.maxlen == 2) = true := by decide +kernel

theorem test_eMeasure : holds (exec .eMeasure { load abc with work := { abcCodes with nsym := 3 } }) (fun t =>
    t.work.total == 9 && t.work.totalBits == 14 && t.work.pad == 2 && t.work.payloadLen == 2 && t.work.hdrLen == 17 &&
    t.phase == 5) = true := by decide +kernel

/-- V-E13 (c): OBUF_SIZE = 18 is one byte short; STATUS = 0x44, ERRCODE = 7. -/
theorem test_eMeasure_overflow : holds (exec .eMeasure { (due (sized (load abc) 2048 18) 4) with
    work := { abcCodes with nsym := 3 } }) (fun t => statusWord t == 0x44 && t.errcode == 7) = true := by decide +kernel

theorem test_eHeader : holds (exec .eHeader { load abc with work := abcMeasured })
    (fun t => bytesAt t.obuf 0 abcHeader && t.phase == 6) = true := by decide +kernel

theorem test_ePack : holds (exec .ePack { (due (load abc) 6) with work := abcMeasured })
    (fun t => bytesAt t.obuf 17 [0x0F, 0xE8] && t.outLen == 19 && statusWord t == 0x02) = true := by decide +kernel

/-! ## Decoder stages (95_test_vectors.md section 2.3) -/

/-- V-D1. -/
theorem test_dHeader : holds (exec .dHeader (load abcArtifact)) (fun t => t.work.nsym == 3 && t.work.maxlen == 2 &&
    t.work.total == 9 && t.work.pad == 2 && t.work.payloadOff == 17 && tableGet t.work.ct 0x62 == { len := 2, val := 3 } &&
    t.phase == 9) = true := by decide +kernel

/-- S8 (scenario 3): a flipped magic byte; STATUS = 0x84, ERRCODE = 3. -/
theorem test_dHeader_magic : holds (exec .dHeader (due (load (abcArtifact.set 0 0xB7)) 8))
    (fun t => statusWord t == 0x84 && t.errcode == 3) = true := by decide +kernel

theorem test_dTable : holds (exec .dTable { load abcArtifact with work := abcParsed }) (fun t => t.phase == 10) = true := by
  decide +kernel

/-- R154's example: "0" is a prefix of "01". -/
theorem test_dTable_clash : holds (exec .dTable { (due State.reset 9) with
    work := withCode (withCode Work.zero 0x61 1 0) 0x62 2 1 }) (fun t => statusWord t == 0x94 && t.errcode == 3) = true := by
  decide +kernel

/-- V-D1. -/
theorem test_dWalk : holds (exec .dWalk { (due (load abcArtifact) 10) with work := abcParsed })
    (fun t => bytesAt t.obuf 0 abc && t.outLen == 9 && statusWord t == 0x02) = true := by decide +kernel

/-- V-W1: the artifact without its last byte; STATUS = 0xA4, ERRCODE = 4. -/
theorem test_dWalk_truncated : holds (exec .dWalk { (due (load abcArtifact.dropLast) 10) with work := abcParsed })
    (fun t => statusWord t == 0xA4 && t.errcode == 4 && t.obuf == []) = true := by decide +kernel

/-! ## The agents -/

/-- Every row of opcode_table.json runs as the first instruction after reset. -/
theorem test_first_instruction : ([(32, 0), (32, 1), (32, 2), (8, 0x10), (8, 0x20), (8, 0x30), (8, 0x40), (8, 0x50),
    (8, 0x60), (8, 0x80), (8, 0x90), (8, 0xA0)].all fun p =>
      holds (step (State.reset.withFetchWord p.1 p.2)) fun _ => true) = true := by decide +kernel

/-- 20_memory.md R66: an IBUF write while BUSY = 1 is dropped. -/
theorem test_host_write_while_busy : holds (step { (due (load abc) 1) with schedule := [.host (.bufWrite .ibuf 0 0x55)] })
    (fun t => memRead t.ibuf 0 == 0x61) = true := by decide +kernel

/-- 20_memory.md R67: an IBUF read while BUSY = 1 returns 0. -/
theorem test_host_read_while_busy : holds (step { (due (load abc) 1) with schedule := [.host (.bufRead .ibuf 0)] })
    (fun t => t.replies == [.byte 0]) = true := by decide +kernel

/-! ## Hypotheses met: for each obligation with hypotheses, a concrete state and operands -/

theorem test_hyp_DecodeAndEncodeAgree :
    Instr.dWalk.wellFormed = true ∧
    decode (.command 0x00000001) = .ok .encode ∧
    ((0x00000003 : Word) ≠ 0 ∧ (0x00000003 : Word) ≠ 1 ∧ (0x00000003 : Word) ≠ 2) ∧
    ((0xFFFFFFFF : Word) ≠ 0 ∧ (0xFFFFFFFF : Word) ≠ 1 ∧ (0xFFFFFFFF : Word) ≠ 2) ∧
    decode (.stage 0x11) = .ok .eFreq ∧ decode (.stage 0xAF) = .ok .dWalk ∧
    phaseField 0x0F = 0 ∧
    phaseField 0x71 ∈ [7, 11, 12, 13, 14, 15] ∧ phaseField 0xB0 ∈ [7, 11, 12, 13, 14, 15] ∧
    phaseField 0xFF ∈ [7, 11, 12, 13, 14, 15] := by decide

theorem test_hyp_StepRunsTheDecodedInstruction :
    decode (.command 0x00000000) = .ok .clr ∧
    ((due State.reset 1).busy = true ∧ decode (.stage ((statusWord (due State.reset 1)).setWidth 8)) = .ok .eFreq) ∧
    ((due State.reset 10).busy = true ∧ decode (.stage ((statusWord (due State.reset 10)).setWidth 8)) = .ok .dWalk) := by
  decide

theorem test_hyp_busy_values : State.reset.busy = false ∧ (due State.reset 1).busy = true := by decide

theorem test_hyp_ReservedPhaseIsStuckAndNeverProduced :
    ((due State.reset 7).busy = true ∧ (due State.reset 7).phase ∈ [7, 11, 12, 13, 14, 15]) ∧
    ((due State.reset 11).busy = true ∧ (due State.reset 11).phase ∈ [7, 11, 12, 13, 14, 15]) ∧
    ((due State.reset 15).busy = true ∧ (due State.reset 15).phase ∈ [7, 11, 12, 13, 14, 15]) ∧
    State.reset.phase ∉ [7, 11, 12, 13, 14, 15] ∧ step State.reset = .next State.reset :=
  ⟨by decide, by decide, by decide, by decide, rfl⟩

theorem test_hyp_CmdWriteIsHandledInOneStep :
    (due State.reset 1).busy = true ∧ State.reset.busy = false ∧
    ((0x00000100 : Word) ≠ 0x00000000 ∧ (0x00000100 : Word) ≠ 0x00000001 ∧ (0x00000100 : Word) ≠ 0x00000002) := by decide

theorem test_hyp_UnmappedOffsetsReadZeroAndIgnoreWrites :
    ((0x20 : Word).toNat % 4 = 0 ∧ 0x20 ≤ (0x20 : Word).toNat) ∧
    ((0xFFFFFFFC : Word).toNat % 4 = 0 ∧ 0x20 ≤ (0xFFFFFFFC : Word).toNat) := by decide

theorem test_hyp_HostWritesAreIgnoredWhileBusy :
    (due State.reset 6).busy = true ∧ ((0x00 : Word).toNat % 4 = 0 ∧ (0x00 : Word) ≠ 0x0C) ∧
    ((0x10 : Word).toNat % 4 = 0 ∧ (0x10 : Word) ≠ 0x0C) ∧
    ((0xFFFFFFFC : Word).toNat % 4 = 0 ∧ (0xFFFFFFFC : Word) ≠ 0x0C) := by decide

theorem test_hyp_BufferAccessesWhenNotBusy :
    State.reset.busy = false ∧ (2047 : Word) < State.reset.params.ibufSize ∧ (2047 : Word) < State.reset.params.obufSize ∧
    State.reset.params.ibufSize ≤ (2048 : Word) ∧ State.reset.params.obufSize ≤ (2048 : Word) ∧
    Memory.wf State.reset.ibuf = true := by decide

theorem test_hyp_MisalignedRegisterAccessIsRefused :
    (0x01 : Word).toNat % 4 ≠ 0 ∧ (0x02 : Word).toNat % 4 ≠ 0 ∧ (0xFFFFFFFF : Word).toNat % 4 ≠ 0 := by decide

/-- An input as long as IBUF. -/
theorem test_hyp_LoadPlacesTheInput :
    (sized State.reset 2 2).busy = false ∧ Memory.wf (sized State.reset 2 2).ibuf = true ∧
    [0x41, (0x00 : Byte)].length ≤ (sized State.reset 2 2).params.ibufSize.toNat := by decide

/-- A result as long as both buffers. -/
theorem test_hyp_CopyBackMovesTheResultToTheInput :
    ∃ s : State, s.busy = false ∧ Memory.wf s.ibuf = true ∧ s.outLen ≤ s.params.ibufSize ∧ s.outLen ≤ s.params.obufSize ∧
      s.outLen ≠ 0 :=
  ⟨{ (sized State.reset 2 2) with obuf := [(0, 0x41), (1, 0x42)], outLen := 2, done := true }, by decide⟩

theorem test_hyp_HostStepsNeverDisturbARunningCommand :
    (due State.reset 1).busy = true ∧ HostStep.wellFormed (.regWrite 0x0C 1) = true ∧
    HostStep.wellFormed (.bufRead .obuf 0) = true := by decide

theorem test_hyp_OnlyTheHostAndResetChangeInputAndControl :
    (∃ s t : State, step s = .next t ∧ (t.ie != s.ie) = true) ∧ (∃ s t : State, step s = .next t ∧ (t.inLen != s.inLen) = true) ∧
    (∃ s t : State, step s = .next t ∧ (t.ibuf != s.ibuf) = true) :=
  ⟨⟨{ State.reset with schedule := [.host (.regWrite 0x0C 1)] }, exists_of_holds (by decide)⟩,
   ⟨{ State.reset with schedule := [.host (.regWrite 0x10 5)] }, exists_of_holds (by decide)⟩,
   ⟨{ State.reset with schedule := [.host (.bufWrite .ibuf 2047 5)] }, exists_of_holds (by decide)⟩⟩

theorem test_hyp_StageErrorsAreThoseOfTheTable :
    (∃ s t : State, isStage .eFreq = true ∧ s.err = false ∧ exec .eFreq s = .next t ∧ t.err = true) ∧
    (∃ s t : State, isStage .dWalk = true ∧ s.err = false ∧ exec .dWalk s = .next t ∧ t.err = true) ∧
    State.reset.busy = false ∧ ((0x00000003 : Word) ≠ 0 ∧ (0x00000003 : Word) ≠ 1 ∧ (0x00000003 : Word) ≠ 2) := by
  refine ⟨?_, ?_, by decide, by decide⟩
  · obtain ⟨t, ht⟩ := exists_of_holds (o := exec .eFreq State.reset) (p := (·.err)) (by decide)
    exact ⟨State.reset, t, rfl, rfl, ht⟩
  · obtain ⟨t, ht⟩ := exists_of_holds (o := exec .dWalk { load abcArtifact.dropLast with work := abcParsed }) (p := (·.err))
      (by decide +kernel)
    exact ⟨_, t, rfl, rfl, ht⟩

/-- Every stage succeeds on a state of V-E1 or V-D1. -/
theorem test_hyp_StageSuccessAdvancesOrCompletes :
    (∃ s t : State, s.err = false ∧ exec .eFreq s = .next t ∧ t.err = false) ∧
    (∃ s t : State, s.err = false ∧ exec .eBuild s = .next t ∧ t.err = false) ∧
    (∃ s t : State, s.err = false ∧ exec .eCodes s = .next t ∧ t.err = false) ∧
    (∃ s t : State, s.err = false ∧ exec .eMeasure s = .next t ∧ t.err = false) ∧
    (∃ s t : State, s.err = false ∧ exec .eHeader s = .next t ∧ t.err = false) ∧
    (∃ s t : State, s.err = false ∧ exec .ePack s = .next t ∧ t.err = false) ∧
    (∃ s t : State, s.err = false ∧ exec .dHeader s = .next t ∧ t.err = false) ∧
    (∃ s t : State, s.err = false ∧ exec .dTable s = .next t ∧ t.err = false) ∧
    (∃ s t : State, s.err = false ∧ exec .dWalk s = .next t ∧ t.err = false) := by
  have key (i : Instr) (s : State) (hs : s.err = false) (h : holds (exec i s) (fun t => !t.err) = true) :
      ∃ s t : State, s.err = false ∧ exec i s = .next t ∧ t.err = false := by
    obtain ⟨t, ht, he⟩ := exists_of_holds h
    exact ⟨s, t, hs, ht, by simpa using he⟩
  exact ⟨key .eFreq (load abc) rfl (by decide +kernel),
    key .eBuild { load abc with work := abcCounts } rfl (by decide +kernel),
    key .eCodes { load abc with work := abcTree } rfl (by decide +kernel),
    key .eMeasure { load abc with work := { abcCodes with nsym := 3 } } rfl (by decide +kernel),
    key .eHeader { load abc with work := abcMeasured } rfl (by decide +kernel),
    key .ePack { load abc with work := abcMeasured } rfl (by decide +kernel),
    key .dHeader (load abcArtifact) rfl (by decide +kernel),
    key .dTable { load abcArtifact with work := abcParsed } rfl (by decide +kernel),
    key .dWalk { load abcArtifact with work := abcParsed } rfl (by decide +kernel)⟩

theorem test_hyp_InterruptLineFollowsTheEndOfACommand :
    (∃ s t : State, isStage .eFreq = true ∧ s.busy = true ∧ s.done = false ∧ s.err = false ∧ exec .eFreq s = .next t ∧
      (s.ie && t.busy) = true) ∧
    (∃ s t : State, isStage .ePack = true ∧ s.busy = true ∧ s.done = false ∧ s.err = false ∧ exec .ePack s = .next t ∧
      (s.ie && !t.busy) = true) := by
  constructor
  · obtain ⟨t, ht⟩ := exists_of_holds (o := exec .eFreq { (due (load abc) 1) with ie := true }) (p := fun t => true && t.busy)
      (by decide +kernel)
    exact ⟨_, t, rfl, rfl, rfl, rfl, ht⟩
  · obtain ⟨t, ht⟩ := exists_of_holds (o := exec .ePack { (due (load abc) 6) with ie := true, work := abcMeasured })
      (p := fun t => true && !t.busy) (by decide +kernel)
    exact ⟨_, t, rfl, rfl, rfl, rfl, ht⟩

/-- Contents at the last address of each buffer. -/
theorem test_hyp_ResetClearsTheRegistersAndLeavesAnyContents :
    Memory.wf [(2047, 0xFF)] = true ∧ Memory.within [(2047, 0xFF)] State.reset.params.ibufSize.toNat = true ∧
    Memory.wf [(0, 0x01), (2047, 0xFF)] = true ∧
    Memory.within [(0, 0x01), (2047, 0xFF)] State.reset.params.obufSize.toNat = true := by decide

/-- IN_LEN one above IBUF_SIZE, 0, and IBUF_SIZE itself (V-E13). -/
theorem test_hyp_EFreqCountsTheInput :
    State.reset.params.ibufSize < (2049 : Word) ∧ (State.reset.inLen ≤ State.reset.params.ibufSize ∧ State.reset.inLen = 0) ∧
    ((sized (load abc) 9 9).inLen ≤ (sized (load abc) 9 9).params.ibufSize ∧ (sized (load abc) 9 9).inLen ≠ 0) := by decide

theorem test_hyp_FrequencyTableAccountsForTheInput :
    ∃ s t : State, s.err = false ∧ exec .eFreq s = .next t ∧ t.err = false := by
  obtain ⟨t, ht, he⟩ := exists_of_holds (o := exec .eFreq (load abc)) (p := fun t => !t.err) (by decide +kernel)
  exact ⟨_, t, rfl, ht, by simpa using he⟩

theorem test_hyp_QueueOrderIsTheTieBreakOrder : ∃ (t : Vector Node 511) (n m : Nat), n ≤ m ∧ m ≤ 511 ∧
    (∀ i, i < n → ∃ w a, nodeGet t i = some (.leaf w a)) ∧
    (∀ i j wi wj a b, i < j → j < n → nodeGet t i = some (.leaf wi a) → nodeGet t j = some (.leaf wj b) →
      a.toNat < b.toNat) ∧
    (∀ i, n ≤ i → i < m → ∃ w lo hi, nodeGet t i = some (.internal w lo hi)) := by
  have h0 : nodeGet abNodes 0 = some (.leaf 1 0x61) := by decide +kernel
  have h1 : nodeGet abNodes 1 = some (.leaf 1 0x62) := by decide +kernel
  have h2 : nodeGet abNodes 2 = some (.internal 2 0 1) := by decide +kernel
  refine ⟨abNodes, 2, 3, by omega, by omega, ?_, ?_, ?_⟩
  · intro i hi
    obtain rfl | rfl : i = 0 ∨ i = 1 := by omega
    · exact ⟨_, _, h0⟩
    · exact ⟨_, _, h1⟩
  · intro i j wi wj a b hij hj hi hj'
    obtain ⟨rfl, rfl⟩ : i = 0 ∧ j = 1 := by omega
    rw [h0] at hi
    rw [h1] at hj'
    cases hi
    cases hj'
    decide
  · intro i hi hi'
    obtain rfl : i = 2 := by omega
    exact ⟨_, _, _, h2⟩

theorem test_hyp_ZeroCountIsRaisedAndUnreachable :
    (tableGet (withCount Work.zero 0xFF 0).present 0xFF = true ∧ tableGet (withCount Work.zero 0xFF 0).count 0xFF = 0) ∧
    ∃ s t u : State, s.err = false ∧ exec .eFreq s = .next t ∧ t.err = false ∧ exec .eBuild t = .next u := by
  refine ⟨by decide +kernel, ?_⟩
  obtain ⟨t, ht, h⟩ := exists_of_holds (o := exec .eFreq (load abc))
    (p := fun t => !t.err && holds (exec .eBuild t) fun _ => true) (by decide +kernel)
  simp only [Bool.and_eq_true, Bool.not_eq_true'] at h
  obtain ⟨u, hu, -⟩ := exists_of_holds h.2
  exact ⟨_, t, u, rfl, ht, h.1, hu⟩

/-- n = 3 for R132, n = 1 for R134. -/
theorem test_hyp_EBuild :
    (abcCounts.nsym.toNat = (presentSymbols abcCounts).length ∧ 2 ≤ abcCounts.nsym.toNat ∧
      (∀ b : Symbol, tableGet abcCounts.present b = true → tableGet abcCounts.count b ≠ 0) ∧
      ((presentSymbols abcCounts).map fun b => (tableGet abcCounts.count b).toNat).sum < 2 ^ 32) ∧
    ((withCount Work.zero 0x7A 4).nsym.toNat = (presentSymbols (withCount Work.zero 0x7A 4)).length ∧
      (withCount Work.zero 0x7A 4).nsym = 1 ∧
      (∀ a : Symbol, tableGet (withCount Work.zero 0x7A 4).present a = true ↔ a = 0x7A) ∧
      tableGet (withCount Work.zero 0x7A 4).count 0x7A ≠ 0) := by
  refine ⟨⟨by decide +kernel, by decide +kernel, forall_listed (by decide +kernel), by decide +kernel⟩,
    by decide +kernel, by decide +kernel, fun a => ⟨forall_listed (P := fun a => a = 0x7A) (by decide +kernel) a, ?_⟩,
    by decide +kernel⟩
  rintro rfl
  decide +kernel

theorem test_hyp_EBuildOutsideTheRangeOfNsym :
    (Work.zero.nsym = 0 ∧ ∀ b : Symbol, tableGet Work.zero.present b = false) ∧
    (256 < ({ abcCounts with nsym := 257 } : Work).nsym.toNat ∧
      ∀ b : Symbol, tableGet abcCounts.present b = true → tableGet abcCounts.count b ≠ 0) :=
  ⟨⟨rfl, fun b => by simp [Work.zero]⟩, by decide, forall_listed (by decide +kernel)⟩

/-- The tree of V-E1, and the synthetic root of V-E2. -/
theorem test_hyp_ECodesAssignsThePaths :
    (Represents abcTree.node (.two (.leaf 0x61) (.two (.leaf 0x63) (.leaf 0x62))) abcTree.root.toNat ∧
      CodeTree.height (.two (.leaf 0x61) (.two (.leaf 0x63) (.leaf 0x62))) ≤ 255 ∧
      (CodeTree.symbols (.two (.leaf 0x61) (.two (.leaf 0x63) (.leaf 0x62)))).Nodup) ∧
    (Represents (nodePut (nodePut Work.zero.node 0 (.leaf 4 0x7A)) 1 (.internal 4 0 Config.nil)) (.one (.leaf 0x7A)) 1 ∧
      CodeTree.height (.one (.leaf 0x7A)) ≤ 255 ∧ (CodeTree.symbols (.one (.leaf 0x7A))).Nodup) := by
  have h0 : nodeGet abcTree.node 0 = some (.leaf 4 0x61) := by decide +kernel
  have h1 : nodeGet abcTree.node 1 = some (.leaf 3 0x62) := by decide +kernel
  have h2 : nodeGet abcTree.node 2 = some (.leaf 2 0x63) := by decide +kernel
  have h3 : nodeGet abcTree.node 3 = some (.internal 5 2 1) := by decide +kernel
  have h4 : nodeGet abcTree.node 4 = some (.internal 9 0 3) := by decide +kernel
  have k0 : nodeGet (nodePut (nodePut Work.zero.node 0 (.leaf 4 0x7A)) 1 (.internal 4 0 Config.nil)) 0 = some (.leaf 4 0x7A) := by
    decide +kernel
  have k1 : nodeGet (nodePut (nodePut Work.zero.node 0 (.leaf 4 0x7A)) 1 (.internal 4 0 Config.nil)) 1
      = some (.internal 4 0 Config.nil) := by decide +kernel
  exact ⟨⟨⟨9, 0, 3, h4, by decide, ⟨4, h0⟩, ⟨5, 2, 1, h3, by decide, ⟨2, h2⟩, ⟨3, h1⟩⟩⟩, by decide, by decide⟩,
    ⟨⟨4, 0, k1, ⟨4, k0⟩⟩, by decide, by decide⟩⟩

theorem test_hyp_CodesOfATreeArePrefixFreeAndComplete :
    1 ≤ CodeTree.height (.two (.leaf 0x61) (.two (.leaf 0x63) (.leaf 0x62))) ∧
    CodeTree.full (.two (.leaf 0x61) (.two (.leaf 0x63) (.leaf 0x62))) = true ∧
    ∃ t, exec .eCodes { load abc with work := abcTree } = .next t ∧ true = true :=
  ⟨by decide, by decide, exists_of_holds (p := fun _ => true) (by decide +kernel)⟩

/-- V-E1's sums; OBUF_SIZE = 18 is one byte short and 19 is enough (V-E13 (c)). -/
theorem test_hyp_EMeasureSizesTheArtifact :
    (sized (load abc) 9 18).inLen ≤ (sized (load abc) 9 18).params.ibufSize ∧
    14 = ((List.range (load abc).inLen.toNat).map fun i => (tableGet abcCodes.ct (memRead (load abc).ibuf i)).len.toNat).sum ∧
    2 = (8 - 14 % 8) % 8 ∧ 2 = (14 + 2) / 8 ∧
    17 = 5 + varintLen ({ abcCodes with nsym := 3 } : Work).nsym.toNat
      + ((validSymbols abcCodes).map fun b => 2 + ((tableGet abcCodes.ct b).len.toNat + 7) / 8).sum
      + varintLen (load abc).inLen.toNat + 1 ∧
    (sized (load abc) 9 18).params.obufSize.toNat < 17 + 2 ∧ 17 + 2 ≤ (sized (load abc) 9 19).params.obufSize.toNat := by
  decide +kernel

theorem test_hyp_TotalBitsIsTheWeightedSum : ∃ (s t u : State), s.err = false ∧ exec .eFreq s = .next t ∧
    t.err = false ∧
    exec .eMeasure { t with work := { t.work with ctValid := abcCodes.ctValid, ct := abcCodes.ct } } = .next u := by
  obtain ⟨t, ht, h⟩ := exists_of_holds (o := exec .eFreq (load abc)) (p := fun t => !t.err &&
    holds (exec .eMeasure { t with work := { t.work with ctValid := abcCodes.ctValid, ct := abcCodes.ct } }) fun _ => true)
    (by decide +kernel)
  simp only [Bool.and_eq_true, Bool.not_eq_true'] at h
  obtain ⟨u, hu, -⟩ := exists_of_holds h.2
  exact ⟨_, t, u, rfl, ht, h.1, hu⟩

theorem test_hyp_HeaderHasTheMeasuredLength :
    ∃ t, exec .eMeasure { load abc with work := { abcCodes with nsym := 3 } } = .next t ∧ true = true :=
  exists_of_holds (p := fun _ => true) (by decide +kernel)

/-- V-E1's header in an OBUF of just its length. -/
theorem test_hyp_EHeaderWritesTheHeader :
    abcHeader = [0x48, 0x55, 0x46, 0x46, 0x01] ++ putVarint abcMeasured.nsym.toNat
      ++ (validSymbols abcMeasured).flatMap (fun b => b :: (tableGet abcMeasured.ct b).len ::
          putCodeBits (tableGet abcMeasured.ct b).val.toNat (((tableGet abcMeasured.ct b).len.toNat + 7) / 8))
      ++ putVarint abcMeasured.total.toNat ++ [abcMeasured.pad.setWidth 8] ∧
    abcHeader.length ≤ (sized (load abc) 9 17).params.obufSize.toNat ∧ Memory.wf (sized (load abc) 9 17).obuf = true := by
  decide +kernel

/-- V-E1's stream in an OBUF of just the artifact's length. -/
theorem test_hyp_EPackWritesThePayload : ∃ stream : BitString,
    (sized (load abc) 9 19).inLen ≤ (sized (load abc) 9 19).params.ibufSize ∧
    stream = (inputBytes (sized (load abc) 9 19)).flatMap (codeOf abcMeasured) ++
      List.replicate abcMeasured.pad.toNat false ∧
    stream.length = 8 * abcMeasured.payloadLen.toNat ∧
    abcMeasured.hdrLen.toNat + abcMeasured.payloadLen.toNat ≤ (sized (load abc) 9 19).params.obufSize.toNat ∧
    Memory.wf (sized (load abc) 9 19).obuf = true :=
  ⟨[false, false, false, false, true, true, true, true, true, true, true, false, true, false, false, false],
    by decide +kernel⟩

theorem test_hyp_BitStringsAndValuesAgree : 0 < 2 ^ 0 ∧ 255 < 2 ^ 8 := by decide

theorem test_hyp_VarintsReadBackAndAreMinimal : 0 < varintLen 0 ∧ 4 < varintLen 4294967295 ∧ 0 < 2 ^ 32 ∧ 4294967295 < 2 ^ 32 ∧
    getVarint [0xFF, 0xFF, 0xFF, 0xFF, 0x0F] = some (4294967295, []) := by decide

/-- V-F3 and V-F4 at L = 9. -/
theorem test_hyp_CodeBitsReadBackAndRefuseWideValues : 1 < (9 + 7) / 8 ∧ 31 < (255 + 7) / 8 ∧ 0 < 2 ^ 255 ∧ 511 < 2 ^ 9 ∧ getCodeBits 2 0 [0x01, 0xFF] = some (511, []) ∧
    2 ^ (0x09 : Byte).toNat ≤ 512 ∧ 512 < 2 ^ (8 * codeBytes (0x09 : Byte).toNat) := by decide

/-- V-D8: V-E1's header with its entries in another order. -/
theorem test_hyp_DHeaderReadsEveryWellFormedHeader : ∃ (s : State) (h : Header) (payload : List Byte),
    s.inLen ≤ s.params.ibufSize ∧ h.wellFormed ∧ inputBytes s = h.toBytes ++ payload := by
  refine ⟨load [0x48, 0x55, 0x46, 0x46, 0x01, 0x03, 0x63, 0x02, 0x02, 0x62, 0x02, 0x03, 0x61, 0x01, 0x00, 0x09, 0x02, 0x0F,
    0xE8], { entries := [(0x63, 2, 2), (0x62, 2, 3), (0x61, 1, 0)], total := 9, pad := 2 }, [0x0F, 0xE8], by decide, ?_,
    by decide +kernel⟩
  exact ⟨by decide, by decide, by decide, by decide, by decide, by decide, by decide⟩

/-- IN_LEN one above IBUF_SIZE; and an empty artifact, which has no magic. -/
theorem test_hyp_DHeaderRefusesEveryOtherInput :
    State.reset.params.ibufSize < (2049 : Word) ∧ State.reset.inLen ≤ State.reset.params.ibufSize ∧
    ¬ ∃ (h : Header) (payload : List Byte), h.wellFormed ∧ inputBytes State.reset = h.toBytes ++ payload := by
  refine ⟨by decide, by decide, ?_⟩
  rintro ⟨h, payload, -, heq⟩
  have := congrArg List.length heq
  simp [Header.toBytes, State.reset] at this

theorem prefixFree_abcParsed : prefixFree abcParsed := (prefixClash_eq_false_iff _).1 (by decide +kernel)

theorem test_hyp_HeaderReadOfWriteIsTheTable : ∃ (w : Work) (u : State) (payload : List Byte),
    w.nsym.toNat = (validSymbols w).length ∧ 1 ≤ (validSymbols w).length ∧
    (∀ b : Symbol, tableGet w.ctValid b = true →
      1 ≤ (tableGet w.ct b).len.toNat ∧ (tableGet w.ct b).val.toNat < 2 ^ (tableGet w.ct b).len.toNat) ∧
    1 ≤ w.total.toNat ∧ prefixFree w ∧ u.inLen ≤ u.params.ibufSize ∧ inputBytes u = headerBytes w ++ payload :=
  ⟨abcParsed, load abcArtifact, [0x0F, 0xE8], by decide +kernel, by decide +kernel, forall_listed (by decide +kernel), by decide +kernel,
    prefixFree_abcParsed, by decide +kernel, by decide +kernel⟩

/-- V-E1's table, and R154's example of a clash. -/
theorem test_hyp_DTablePassesExactlyThePrefixFreeTables :
    prefixFree abcParsed ∧ ¬ prefixFree (withCode (withCode Work.zero 0x61 1 0) 0x62 2 1) :=
  ⟨prefixFree_abcParsed, fun h => absurd ((prefixClash_eq_false_iff _).2 h) (by decide +kernel)⟩

theorem test_hyp_DecodingIsUnambiguousAfterDTable : ∃ (s t : State) (x : BitString) (a : Symbol), s.err = false ∧
    exec .dTable s = .next t ∧ t.err = false ∧ tableGet t.work.ctValid a = true ∧ codeOf t.work a = x := by
  obtain ⟨t, ht, h⟩ := exists_of_holds (o := exec .dTable { load abcArtifact with work := abcParsed })
    (p := fun t => !t.err && tableGet t.work.ctValid 0x62 && codeOf t.work 0x62 == [true, true]) (by decide +kernel)
  simp only [Bool.and_eq_true, Bool.not_eq_true', beq_iff_eq] at h
  exact ⟨_, t, _, 0x62, rfl, ht, h.1.1, h.1.2, h.2⟩

theorem one_le_len_abcParsed : ∀ b : Symbol, tableGet abcParsed.ctValid b = true → 1 ≤ (tableGet abcParsed.ct b).len.toNat :=
  forall_listed (by decide +kernel)

/-- OBUF_SIZE = 8 is one byte short (V-W5), 9 is enough (V-D1), and V-W1 fails. -/
theorem test_hyp_DWalkRecoversTheSymbols :
    (sized (load abcArtifact) 19 8).params.obufSize < abcParsed.total ∧
    (∃ (s : State) (out : List Symbol) (tail : BitString), s.work.total ≤ s.params.obufSize ∧ prefixFree s.work ∧
      (∀ b : Symbol, tableGet s.work.ctValid b = true → 1 ≤ (tableGet s.work.ct b).len.toNat) ∧
      out.length = s.work.total.toNat ∧ (∀ b ∈ out, tableGet s.work.ctValid b = true) ∧
      dataBits s = out.flatMap (codeOf s.work) ++ tail ∧ Memory.wf s.obuf = true) ∧
    (∃ s t : State, s.err = false ∧ exec .dWalk s = .next t ∧ t.err = true) := by
  refine ⟨by decide, ⟨{ (sized (load abcArtifact) 19 9) with work := abcParsed }, abc, [], by decide +kernel,
    prefixFree_abcParsed, one_le_len_abcParsed, by decide +kernel, by decide +kernel, by decide +kernel, by decide +kernel⟩, ?_⟩
  obtain ⟨t, ht⟩ := exists_of_holds (o := exec .dWalk { load abcArtifact.dropLast with work := abcParsed }) (p := (·.err))
    (by decide +kernel)
  exact ⟨_, t, rfl, ht⟩

/-- The incomplete table of V-D10, a = "0", b = "10", with two symbols to recover. -/
def d10 : Work := { withCode (withCode Work.zero 0x61 1 0) 0x62 2 2 with nsym := 2, maxlen := 2, total := 2 }

/-- V-D10's payload `60` walks off the table at its third bit; with five pad bits more it ends after the second. -/
theorem test_hyp_DWalkErrorsAreTheFirstMet :
    prefixFree d10 ∧ (∀ b : Symbol, tableGet d10.ctValid b = true → 1 ≤ (tableGet d10.ct b).len.toNat) ∧
    [(0x61 : Symbol)].length < d10.total.toNat ∧ (∀ b ∈ [(0x61 : Symbol)], tableGet d10.ctValid b = true) ∧
    (tableGet d10.ctValid 0x62 = true ∧ isProperPrefix [true] (codeOf d10 0x62) = true) ∧
    (load [0x60]).inLen ≤ (load [0x60]).params.ibufSize ∧ d10.total ≤ (load [0x60]).params.obufSize ∧
    dataBits { load [0x60] with work := { d10 with pad := 6 } } = [(0x61 : Symbol)].flatMap (codeOf d10) ++ [true] ∧
    dataBits { load [0x60] with work := { d10 with pad := 5 } } =
      [(0x61 : Symbol)].flatMap (codeOf d10) ++ [true] ++ true :: [] ∧
    (∀ b : Symbol, tableGet d10.ctValid b = true → ¬ [true] ++ [true] <+: codeOf d10 b) :=
  ⟨(prefixClash_eq_false_iff _).1 (by decide +kernel), forall_listed (by decide +kernel), by decide, by decide +kernel,
    by decide +kernel, by decide, by decide, by decide +kernel, by decide +kernel, forall_listed (by decide +kernel)⟩

/-- V-D12: V-E1's artifact followed by `AA BB`. -/
theorem test_hyp_BitsAfterTheLastCodeAreIgnored : ∃ (s t : State) (ibuf : Memory) (inLen : Word) (pad : BitVec 3)
    (extra : BitString), s.err = false ∧ exec .dWalk s = .next t ∧ t.err = false ∧ extra.length = 16 ∧
    dataBits { s with ibuf := ibuf, inLen := inLen, work := { s.work with pad := pad } } = dataBits s ++ extra := by
  obtain ⟨t, ht, h⟩ := exists_of_holds (o := exec .dWalk { load abcArtifact with work := abcParsed }) (p := fun t => !t.err)
    (by decide +kernel)
  refine ⟨_, t, (load (abcArtifact ++ [0xAA, 0xBB])).ibuf, 21, 2,
    [false, false, true, false, true, false, true, false, true, false, true, false, true, true, true, false], rfl, ht,
    by simpa using h, rfl, by decide +kernel⟩

/-- IN_LEN one above IBUF_SIZE; OBUF_SIZE one below the header's length. -/
theorem test_hyp_EngineAddressOutsideABufferStops :
    (sized (load abc) 8 8).params.ibufSize < (sized (load abc) 8 8).inLen ∧
    (sized (load abc) 9 16).params.obufSize.toNat < (headerBytes abcMeasured).length ∧
    ((sized (load abc) 9 18).inLen ≤ (sized (load abc) 9 18).params.ibufSize ∧ 1 ≤ abcMeasured.payloadLen.toNat ∧
      (sized (load abc) 9 18).params.obufSize.toNat < abcMeasured.hdrLen.toNat + abcMeasured.payloadLen.toNat) := by
  decide +kernel

/-- V-D10's table, payload `02` in an IBUF of one byte and IN_LEN = 2: the walk needs a bit of IBUF[1]. -/
theorem test_hyp_EngineAddressOutsideABufferStops_walk : ∃ (s : State) (out : List Symbol) (part : BitString),
    s.work.total ≤ s.params.obufSize ∧ prefixFree s.work ∧
    (∀ b : Symbol, tableGet s.work.ctValid b = true → 1 ≤ (tableGet s.work.ct b).len.toNat) ∧
    out.length < s.work.total.toNat ∧ (∀ b ∈ out, tableGet s.work.ctValid b = true) ∧
    (part = [] ∨ ∃ b, tableGet s.work.ctValid b = true ∧ isProperPrefix part (codeOf s.work b) = true) ∧
    dataBits s = out.flatMap (codeOf s.work) ++ part ∧ (dataBits s).length < availBits s :=
  ⟨{ (sized (load [0x02]) 1 8) with inLen := 2, work := { d10 with total := 8 } },
    [0x61, 0x61, 0x61, 0x61, 0x61, 0x61, 0x62], [], by decide +kernel, (prefixClash_eq_false_iff _).1 (by decide +kernel),
    forall_listed (by decide +kernel), by decide +kernel, by decide +kernel, .inl rfl, by decide +kernel, by decide +kernel⟩

/-- Log entry 11, in that state. -/
theorem test_dWalk_outside : (match exec .dWalk
    { (sized (load [0x02]) 1 8) with inLen := 2, work := { d10 with total := 8 } } with
    | .fault f => f == .ibufOutside 1
    | .next _ => false
    | .refused _ => false) = true := by decide +kernel

theorem test_hyp_EveryStepKeepsTheInvariant : ∃ s t : State, Inv s ∧ step s = .next t :=
  ⟨load abc, load abc, inv_of_idleOk (by decide +kernel), rfl⟩

theorem test_hyp_NoStepIsEverStuck :
    (Live { (due (load abc) 1) with schedule := [.engine, .host (.regRead 0x04)] } ∧
      ∀ e ∈ [Event.engine, .host (.regRead 0x04)], Event.wellFormed e = true) ∧
    (Live { (load abc) with schedule := [.host (.regWrite 0x00 1)] } ∧
      ∀ e ∈ [Event.host (.regWrite 0x00 1)], Event.wellFormed e = true) :=
  ⟨⟨live_of_first_stage (s := { load abc with schedule := [.engine, .host (.regRead 0x04)] }) (by decide +kernel) (.inl rfl),
    by decide⟩, ⟨live_of_idleOk (by decide +kernel), by decide⟩⟩

theorem test_hyp_CommandsEndWithinTheirStages : Inv (load abc) ∧ (load abc).busy = false :=
  ⟨inv_of_idleOk (by decide +kernel), rfl⟩

/-- A HOST step before each of the ENGINE's turns, for both commands. -/
theorem test_hyp_EveryInterleavingEndsTheCommand :
    (Live (due (load abc) 1) ∧ (due (load abc) 1).busy = true ∧
      Interleaving (pollEvents 6) ∧
      6 ≤ ((pollEvents 6).filter fun e => decide (e = .engine)).length) ∧
    (Live (due (load abcArtifact) 8) ∧ (due (load abcArtifact) 8).busy = true ∧
      Interleaving (pollEvents 3) ∧
      3 ≤ ((pollEvents 3).filter fun e => decide (e = .engine)).length) := by
  have key : ∀ n, Interleaving (pollEvents n) := by
    intro n e he
    simp only [pollEvents, List.mem_flatten, List.mem_replicate] at he
    obtain ⟨l, ⟨-, rfl⟩, he⟩ := he
    simp only [List.mem_cons, List.not_mem_nil, or_false] at he
    rcases he with rfl | rfl
    · exact .inl rfl
    · exact .inr ⟨_, rfl, by decide⟩
  exact ⟨⟨live_of_first_stage (by decide +kernel) (.inl rfl), rfl, key 6, by decide⟩,
    ⟨live_of_first_stage (by decide +kernel) (.inr rfl), rfl, key 3, by decide⟩⟩

/-- IN_LEN one above IBUF_SIZE, 0, and an input that fits, with HOST steps between the stages. -/
theorem test_hyp_EncodeLeavesTheArtifactOrItsError :
    Interleaving interleaved ∧
    (Inv { (sized State.reset 8 19) with inLen := 9 } ∧
      ({ (sized State.reset 8 19) with inLen := 9 } : State).params.ibufSize < 9) ∧
    (Inv (load []) ∧ (load []).busy = false ∧ (load []).inLen = 0) ∧
    (Inv (sized (load abc) 9 19) ∧ (sized (load abc) 9 19).busy = false ∧
      (sized (load abc) 9 19).inLen ≤ (sized (load abc) 9 19).params.ibufSize ∧ (sized (load abc) 9 19).inLen ≠ 0) :=
  ⟨interleaving_interleaved, ⟨inv_of_idleOk (by decide +kernel), by decide⟩, ⟨inv_of_idleOk (by decide +kernel), rfl, rfl⟩,
    ⟨inv_of_idleOk (by decide +kernel), rfl, by decide, by decide⟩⟩

/-- V-E3, "A": the encoding is done, and V-E3's artifact is its result, with HOST steps between the stages. -/
theorem test_hyp_DecodeOfEncodeIsTheInput : ∃ (s t u : State) (events : List Event), Inv s ∧ s.busy = false ∧
    Interleaving events ∧ CommandEnds s 0x00000001 events t ∧ t.done = true ∧ Inv u ∧ u.busy = false ∧
    u.inLen ≤ u.params.ibufSize ∧ inputBytes u = resultBytes t ∧ s.inLen ≤ u.params.obufSize := by
  obtain ⟨t, ht, h⟩ := exists_commandEnds (n := 12) (s := load [0x41]) (word := 0x00000001) (events := interleaved)
    (p := fun t => t.done &&
      inputBytes (sized (load [0x48, 0x55, 0x46, 0x46, 0x01, 0x01, 0x41, 0x01, 0x00, 0x01, 0x07, 0x00]) 12 1)
        == resultBytes t) (by decide +kernel)
  simp only [Bool.and_eq_true, beq_iff_eq] at h
  exact ⟨_, t, _, _, inv_of_idleOk (by decide +kernel), rfl, interleaving_interleaved, ht, h.1,
    inv_of_idleOk (by decide +kernel), rfl, by decide +kernel, h.2, by decide +kernel⟩

/-- The same artifact without its last byte. -/
theorem test_hyp_ArtifactCutByOneByteIsTruncated : ∃ (s t u : State) (events : List Event), Inv s ∧ s.busy = false ∧
    Interleaving events ∧ CommandEnds s 0x00000001 events t ∧ t.done = true ∧ Inv u ∧ u.busy = false ∧
    u.inLen ≤ u.params.ibufSize ∧ inputBytes u = (resultBytes t).dropLast ∧ s.inLen ≤ u.params.obufSize := by
  obtain ⟨t, ht, h⟩ := exists_commandEnds (n := 12) (s := load [0x41]) (word := 0x00000001) (events := interleaved)
    (p := fun t => t.done &&
      inputBytes (sized (load [0x48, 0x55, 0x46, 0x46, 0x01, 0x01, 0x41, 0x01, 0x00, 0x01, 0x07]) 11 1)
        == (resultBytes t).dropLast) (by decide +kernel)
  simp only [Bool.and_eq_true, beq_iff_eq] at h
  exact ⟨_, t, _, _, inv_of_idleOk (by decide +kernel), rfl, interleaving_interleaved, ht, h.1,
    inv_of_idleOk (by decide +kernel), rfl, by decide +kernel, h.2, by decide +kernel⟩

/-- Two states with one input and different earlier contents of OBUF and of the working state, one command with HOST steps
between its stages and one without. -/
theorem test_hyp_ResultDependsOnTheInputAlone : ∃ (s s' : State) (events events' : List Event), Inv s ∧ Inv s' ∧
    s.busy = false ∧ s'.busy = false ∧ s.params = s'.params ∧ s.inLen = s'.inLen ∧
    (∀ i < s.inLen.toNat, memRead s.ibuf i = memRead s'.ibuf i) ∧ Interleaving events ∧ Interleaving events' ∧
    s.obuf ≠ s'.obuf ∧ s.work ≠ s'.work :=
  ⟨load abc, { load abc with obuf := [(3, 0x41)], work := abcMeasured }, interleaved, [], inv_of_idleOk (by decide +kernel),
    inv_of_idleOk (by decide +kernel), rfl, rfl, rfl, rfl, fun _ _ => rfl, interleaving_interleaved, interleaving_nil,
    by decide, by decide +kernel⟩

end Sys2Proof.Tests
end

section
/-! PROOFS. What a HOST step does, one lemma per access (20_memory.md R61 to R67), and the statements about unmapped offsets
and about accesses while BUSY = 1. -/

namespace Sys2Proof.Machine

/-! ### A scheduled HOST step -/

/-- The next scheduled step is the HOST's (20_memory.md R70). -/
@[simp] theorem step_host (s : State) (h : HostStep) (rest : List Event) :
    step { s with schedule := .host h :: rest } = hostStep h { s with schedule := rest } := rfl

@[simp] theorem alignedOffset_iff {off : Word} : alignedOffset off = true ↔ off.toNat % 4 = 0 := by simp [alignedOffset]

/-- A read of an aligned register offset delivers `regRead`'s word (20_memory.md R61). -/
theorem hostStep_regRead {off : Word} (aligned : off.toNat % 4 = 0) (s : State) :
    hostStep (.regRead off) s = .next (s.reply (.word (regRead s off))) :=
  if_pos (alignedOffset_iff.2 aligned)

/-- A write to an aligned register offset is `regWrite` (20_memory.md R61). -/
theorem hostStep_regWrite {off : Word} (aligned : off.toNat % 4 = 0) (w : Word) (s : State) :
    hostStep (.regWrite off w) s = regWrite s off w :=
  if_pos (alignedOffset_iff.2 aligned)

@[simp] theorem hostStep_bufRead (space : Space) (a : Word) (s : State) :
    hostStep (.bufRead space a) s = .next (s.reply (.byte (bufRead s space a))) := rfl

@[simp] theorem hostStep_bufWrite (space : Space) (a : Word) (b : Byte) (s : State) :
    hostStep (.bufWrite space a b) s = .next (bufWrite s space a b) := rfl

/-! ### Register offsets no register has (20_memory.md R64) -/

/-- Every register lies below 0x20 (10_state.md R21). -/
theorem ne_of_unmapped {off mapped : Word} (unmapped : 0x20 ≤ off.toNat) (h : mapped.toNat < 0x20) : off ≠ mapped := by
  rintro rfl
  omega

theorem regRead_of_unmapped {off : Word} (unmapped : 0x20 ≤ off.toNat) (s : State) : regRead s off = 0 := by
  simp [regRead, ne_of_unmapped unmapped]

theorem regWrite_of_unmapped {off : Word} (unmapped : 0x20 ≤ off.toNat) (s : State) (w : Word) :
    regWrite s off w = .next s := by
  simp [regWrite, ne_of_unmapped unmapped]

/-! ### Writes to CMD and CTRL -/

/-- A command word selects one of the three commands or none (30_encoding.md R80, R81). -/
theorem decodeCommand_cases (w : Word) :
    decodeCommand w = .ok .clr ∨ decodeCommand w = .ok .encode ∨ decodeCommand w = .ok .decode ∨
      decodeCommand w = .error (.illegalCommand w) := by
  unfold decodeCommand
  split_ifs <;> simp

/-- Whatever the word, a write to CMD is accepted or ignored as a whole (40_commands.md R110). -/
theorem cmdWrite_eq_accept (w : Word) (s : State) : ∃ effect, cmdWrite w s = .next (accept s effect) := by
  unfold cmdWrite
  obtain h | h | h | h := decodeCommand_cases w <;> rw [h] <;> exact ⟨_, rfl⟩

@[simp] theorem regWrite_ctrl (s : State) (w : Word) : regWrite s 0x0C w = .next { s with ie := w.getLsbD 0 } := rfl

/-! ### Accesses while BUSY = 1 (20_memory.md R66, R67) -/

section Busy

variable {s : State} (busy : s.busy = true)
include busy

theorem accept_of_busy (effect : State → State) : accept s effect = s := if_pos busy

theorem cmdWrite_of_busy (w : Word) : cmdWrite w s = .next s := by
  obtain ⟨effect, h⟩ := cmdWrite_eq_accept w s
  rw [h, accept_of_busy busy]

/-- CMD and IN_LEN test BUSY, and no other offset but CTRL's stores anything. -/
theorem regWrite_of_busy {off : Word} (notCtrl : off ≠ 0x0C) (w : Word) : regWrite s off w = .next s := by
  unfold regWrite
  rw [if_neg notCtrl, cmdWrite_of_busy busy, if_pos busy, ite_self, ite_self]

theorem bufWrite_of_busy (space : Space) (a : Word) (b : Byte) : bufWrite s space a b = s := by
  cases space with
  | ibuf => simp [bufWrite, busy]
  | obuf => rfl

theorem bufRead_of_busy (space : Space) (a : Word) : bufRead s space a = 0x00 := if_pos busy

end Busy

/-! ### The statements -/

/-- Settles O11: an offset from 0x20 upward is none of those that `regRead` and `regWrite` know. -/
theorem unmappedOffsetsReadZeroAndIgnoreWrites : Obligations.UnmappedOffsetsReadZeroAndIgnoreWrites := by
  intro s rest off w aligned unmapped
  constructor
  · rw [step_host, hostStep_regRead aligned, regRead_of_unmapped unmapped]
    rfl
  · rw [step_host, hostStep_regWrite aligned, regWrite_of_unmapped unmapped]

/-- Settles O13: each write tests BUSY or stores nothing, except the one to CTRL. -/
theorem hostWritesAreIgnoredWhileBusy : Obligations.HostWritesAreIgnoredWhileBusy := by
  intro s rest busy
  have busyRest : ({ s with schedule := rest } : State).busy = true := busy
  refine ⟨fun off w aligned notCtrl => ?_, fun space a b => ?_, fun w => ?_⟩
  · rw [step_host, hostStep_regWrite aligned, regWrite_of_busy busyRest notCtrl]
  · rw [step_host, hostStep_bufWrite, bufWrite_of_busy busyRest]
  · rw [step_host, hostStep_regWrite (by decide), regWrite_ctrl]

/-- Settles O14: with BUSY = 1 `bufRead` gives 0x00 before it looks at the buffer. -/
theorem bufferReadsAreZeroWhileBusy : Obligations.BufferReadsAreZeroWhileBusy := by
  intro s rest space a busy
  have busyRest : ({ s with schedule := rest } : State).busy = true := busy
  rw [step_host, hostStep_bufRead, bufRead_of_busy busyRest]
  rfl

end Sys2Proof.Machine
end

section
/-! PROOFS. What a step can do: one inversion lemma per stage and per agent, and from them that no step gives PHASE a reserved
code (30_encoding.md R84). -/

namespace Sys2Proof.Machine

variable {s t : State}

/-! ### What each stage can do -/

theorem engineInput_ok {input : List Byte} (h : engineInput s = .ok input) :
    s.inLen ≤ s.params.ibufSize ∧ input = inputBytes s := by
  obtain ⟨range, read⟩ | ⟨-, read⟩ := engineInput_cases s <;> rw [read] at h <;> cases h
  exact ⟨range, rfl⟩

theorem execEFreq_next (h : execEFreq s = .next t) :
    (s.params.ibufSize < s.inLen ∧ t = s.raise .inputRange) ∨
    (s.inLen ≤ s.params.ibufSize ∧ s.inLen = 0 ∧ t = s.raise .emptyInput) ∨
    (s.inLen ≤ s.params.ibufSize ∧ s.inLen ≠ 0 ∧ t = (s.setWork (frequencies s.work (inputBytes s))).setPhase 2) := by
  unfold execEFreq at h
  split_ifs at h with range empty <;> cases h
  · exact .inl ⟨range, rfl⟩
  · exact .inr (.inl ⟨BitVec.not_lt.1 range, empty, rfl⟩)
  · exact .inr (.inr ⟨BitVec.not_lt.1 range, empty, rfl⟩)

theorem execEBuild_next (h : execEBuild s = .next t) :
    (zeroWeight s.work = true ∧ t = s.raise .invalidFrequency) ∨
    (zeroWeight s.work = false ∧ s.work.nsym.toNat ≤ 256 ∧ t = (s.setWork (buildTree s.work)).setPhase 3) := by
  unfold execEBuild at h
  split_ifs at h with zero many <;> cases h
  · exact .inl ⟨zero, rfl⟩
  · exact .inr ⟨Bool.eq_false_iff.2 zero, Nat.not_lt.1 many, rfl⟩

theorem execECodes_next (h : execECodes s = .next t) :
    ∃ w, visit s.work.node Config.nodeCap s.work.root.toNat [] (clearCodes s.work) = .ok w ∧
      t = (s.setWork w).setPhase 4 := by
  obtain ⟨w, visited, h⟩ := orFault_next h
  cases h
  exact ⟨w, visited, rfl⟩

/-- The overflow test reads the registers E_MEASURE has just written. -/
theorem execEMeasure_next (h : execEMeasure s = .next t) : s.inLen ≤ s.params.ibufSize ∧
    ∃ w, w = measure s.work s.inLen (inputBytes s) ∧
      ((s.params.obufSize.toNat < w.hdrLen.toNat + w.payloadLen.toNat ∧ t = (s.setWork w).raise .outputOverflow) ∨
       (w.hdrLen.toNat + w.payloadLen.toNat ≤ s.params.obufSize.toNat ∧ t = (s.setWork w).setPhase 5)) := by
  obtain ⟨input, read, h⟩ := orFault_next h
  obtain ⟨range, rfl⟩ := engineInput_ok read
  refine ⟨range, _, rfl, ?_⟩
  dsimp only at h
  split_ifs at h with overflow <;> cases h
  · exact .inl ⟨overflow, rfl⟩
  · exact .inr ⟨Nat.not_lt.1 overflow, rfl⟩

theorem execEHeader_next (h : execEHeader s = .next t) :
    (headerBytes s.work).length ≤ s.params.obufSize.toNat ∧
      t = (s.setObuf (memWriteRun s.obuf 0 (headerBytes s.work))).setPhase 6 := by
  obtain ⟨u, put, h⟩ := orFault_next h
  obtain ⟨rfl, room⟩ := enginePut_ok put
  cases h
  exact ⟨by omega, rfl⟩

theorem execEPack_next (h : execEPack s = .next t) : s.inLen ≤ s.params.ibufSize ∧
    (s.work.payloadLen.toNat = 0 ∨ s.work.hdrLen.toNat + s.work.payloadLen.toNat ≤ s.params.obufSize.toNat) ∧
    t = (s.setObuf (memWriteRun s.obuf s.work.hdrLen.toNat (payloadBytes s.work (inputBytes s)))).complete
      (s.work.hdrLen.toNat + s.work.payloadLen.toNat) := by
  obtain ⟨input, read, h⟩ := orFault_next h
  obtain ⟨range, rfl⟩ := engineInput_ok read
  obtain ⟨u, put, h⟩ := orFault_next h
  obtain ⟨rfl, room⟩ := enginePut_ok put
  cases h
  exact ⟨range, by simpa [payloadBytes] using room, rfl⟩

theorem execDHeader_next (h : execDHeader s = .next t) :
    (s.params.ibufSize < s.inLen ∧ t = s.raise .inputRange) ∨
    (s.inLen ≤ s.params.ibufSize ∧ ∃ w,
      (readHeader s.inLen.toNat s.work (inputBytes s) = (w, none) ∧ t = (s.setWork w).raise .corruptHeader) ∨
      (∃ rest, readHeader s.inLen.toNat s.work (inputBytes s) = (w, some rest) ∧ t = (s.setWork w).setPhase 9)) := by
  unfold execDHeader at h
  split_ifs at h with range
  · cases h
    exact .inl ⟨range, rfl⟩
  · refine .inr ⟨BitVec.not_lt.1 range, ?_⟩
    split at h <;> cases h
    case h_1 w read => exact ⟨w, .inl ⟨read, rfl⟩⟩
    case h_2 w rest read => exact ⟨w, .inr ⟨rest, read, rfl⟩⟩

theorem execDTable_next (h : execDTable s = .next t) :
    (prefixClash s.work = true ∧ t = s.raise .corruptHeader) ∨ (prefixClash s.work = false ∧ t = s.setPhase 10) := by
  unfold execDTable at h
  split_ifs at h with clash <;> cases h
  · exact .inl ⟨clash, rfl⟩
  · exact .inr ⟨Bool.eq_false_iff.2 clash, rfl⟩

theorem execDWalk_next (h : execDWalk s = .next t) :
    (s.params.obufSize < s.work.total ∧ t = s.raise .outputOverflow) ∨
    (s.work.total ≤ s.params.obufSize ∧
      ((walk s.work (dataBits s) [] s.work.total.toNat = .truncated ∧ availBits s ≤ (dataBits s).length ∧
          t = s.raise .truncatedStream) ∨
       (walk s.work (dataBits s) [] s.work.total.toNat = .invalid ∧ t = s.raise .invalidCode) ∨
       (∃ out, walk s.work (dataBits s) [] s.work.total.toNat = .recovered out ∧
          (out.length = 0 ∨ out.length ≤ s.params.obufSize.toNat) ∧
          t = (s.setObuf (memWriteRun s.obuf 0 out)).complete s.work.total.toNat))) := by
  unfold execDWalk at h
  split at h
  · next overflow =>
    cases h
    exact .inl ⟨overflow, rfl⟩
  · next room =>
    refine .inr ⟨BitVec.not_lt.1 room, ?_⟩
    split at h
    · next truncated =>
      split_ifs at h with outside
      cases h
      exact .inl ⟨truncated, Nat.not_lt.1 outside, rfl⟩
    · next invalid =>
      cases h
      exact .inr (.inl ⟨invalid, rfl⟩)
    · next out recovered =>
      obtain ⟨u, put, h⟩ := orFault_next h
      obtain ⟨rfl, fits⟩ := enginePut_ok put
      cases h
      exact .inr (.inr ⟨out, recovered, by simpa using fits, rfl⟩)

/-! ### Whose step it is -/

@[simp] theorem step_engine (s : State) (rest : List Event) :
    step { s with schedule := .engine :: rest } = engineTurn { s with schedule := rest } := rfl

/-- A step takes the first scheduled event, or is the ENGINE's turn when nothing is scheduled. -/
theorem step_eq_eventStep (s : State) : ∃ e rest, step s = eventStep e { s with schedule := rest } ∧
    (s.schedule = e :: rest ∨ s.schedule = [] ∧ e = .engine ∧ rest = []) := by
  unfold step systemStep
  split
  · next nothing => exact ⟨.engine, [], by rw [← nothing]; rfl, .inr ⟨nothing, rfl, rfl⟩⟩
  · next e rest scheduled => exact ⟨e, rest, rfl, .inl scheduled⟩

theorem engineTurn_next (h : engineTurn s = .next t) :
    (s.busy = false ∧ t = s) ∨ (s.busy = true ∧ ∃ i, decodePhase s.phase = .ok i ∧ exec i s = .next t) := by
  unfold engineTurn at h
  split at h
  · next busy =>
    split at h
    · next i selected => exact .inr ⟨busy, i, selected, h⟩
    · cases h
  · next idle =>
    cases h
    exact .inl ⟨Bool.eq_false_iff.2 idle, rfl⟩

theorem engineTurn_of_reject {r : DecodeReject} (busy : s.busy = true) (rejected : decodePhase s.phase = .error r) :
    engineTurn s = .fault (.noStage s.phase) := by
  rw [engineTurn, if_pos busy, rejected]

theorem cmdWrite_next {w : Word} (h : cmdWrite w s = .next t) :
    (∃ i, decodeCommand w = .ok i ∧ exec i s = .next t) ∨ t = accept s State.rejectCommand := by
  unfold cmdWrite at h
  split at h
  · next i selected => exact .inl ⟨i, selected, h⟩
  · cases h
    exact .inr rfl

/-- All that a register write can do. -/
theorem regWrite_next {off w : Word} (h : regWrite s off w = .next t) :
    (off = 0x00 ∧ cmdWrite w s = .next t) ∨ (off = 0x0C ∧ t = { s with ie := w.getLsbD 0 }) ∨
    (off = 0x10 ∧ s.busy = false ∧ t = { s with inLen := w }) ∨ t = s := by
  unfold regWrite at h
  split_ifs at h with ctrl cmd inLen busy
  · cases h
    exact .inr (.inl ⟨ctrl, rfl⟩)
  · exact .inl ⟨cmd, h⟩
  · cases h
    exact .inr (.inr (.inr rfl))
  · cases h
    exact .inr (.inr (.inl ⟨inLen, Bool.eq_false_iff.2 busy, rfl⟩))
  · cases h
    exact .inr (.inr (.inr rfl))

/-- A HOST step only adds a reply, or is one of the two writes. -/
theorem hostStep_next {access : HostStep} (h : hostStep access s = .next t) :
    (∃ r, t = s.reply r) ∨
    (∃ off w, access = .regWrite off w ∧ off.toNat % 4 = 0 ∧ regWrite s off w = .next t) ∨
    (∃ space a b, access = .bufWrite space a b ∧ t = bufWrite s space a b) := by
  cases access with
  | regRead off =>
    simp only [hostStep] at h
    split_ifs at h
    cases h
    exact .inl ⟨_, rfl⟩
  | regWrite off w =>
    simp only [hostStep] at h
    split_ifs at h with aligned
    exact .inr (.inl ⟨off, w, rfl, alignedOffset_iff.1 aligned, h⟩)
  | bufRead space a =>
    cases h
    exact .inl ⟨_, rfl⟩
  | bufWrite space a b =>
    cases h
    exact .inr (.inr ⟨space, a, b, rfl, rfl⟩)

/-! ### The values a step can give PHASE

It keeps PHASE or sets it to 0 or to a stage code. -/

theorem accept_phase {effect : State → State} (moves : (effect s.prologue).phase ∈ s.phase :: 0 :: stageCodes) :
    (accept s effect).phase ∈ s.phase :: 0 :: stageCodes := by
  obtain ⟨-, ignored⟩ | ⟨-, accepted⟩ := accept_cases s effect
  · rw [ignored]
    exact List.mem_cons_self
  · rwa [accepted]

theorem exec_next_phase {i : Instr} (h : exec i s = .next t) : t.phase ∈ s.phase :: 0 :: stageCodes := by
  cases i with
  | clr => cases h; exact accept_phase (by simp)
  | encode => cases h; exact accept_phase (by simp [stageCodes])
  | decode => cases h; exact accept_phase (by simp [stageCodes])
  | eFreq => obtain ⟨-, rfl⟩ | ⟨-, -, rfl⟩ | ⟨-, -, rfl⟩ := execEFreq_next h <;> simp [stageCodes]
  | eBuild => obtain ⟨-, rfl⟩ | ⟨-, -, rfl⟩ := execEBuild_next h <;> simp [stageCodes]
  | eCodes => obtain ⟨w, -, rfl⟩ := execECodes_next h; simp [stageCodes]
  | eMeasure => obtain ⟨-, w, -, ⟨-, rfl⟩ | ⟨-, rfl⟩⟩ := execEMeasure_next h <;> simp [stageCodes]
  | eHeader => obtain ⟨-, rfl⟩ := execEHeader_next h; simp [stageCodes]
  | ePack => obtain ⟨-, -, rfl⟩ := execEPack_next h; simp
  | dHeader =>
    obtain ⟨-, rfl⟩ | ⟨-, w, ⟨-, rfl⟩ | ⟨rest, -, rfl⟩⟩ := execDHeader_next h <;> simp [stageCodes]
  | dTable => obtain ⟨-, rfl⟩ | ⟨-, rfl⟩ := execDTable_next h <;> simp [stageCodes]
  | dWalk =>
    obtain ⟨-, rfl⟩ | ⟨-, ⟨-, -, rfl⟩ | ⟨-, rfl⟩ | ⟨out, -, -, rfl⟩⟩ := execDWalk_next h <;> simp

theorem engineTurn_next_phase (h : engineTurn s = .next t) : t.phase ∈ s.phase :: 0 :: stageCodes := by
  obtain ⟨-, rfl⟩ | ⟨-, i, -, executed⟩ := engineTurn_next h
  · exact List.mem_cons_self
  · exact exec_next_phase executed

/-- Of the registers only CMD changes PHASE. -/
theorem regWrite_next_phase {off w : Word} (h : regWrite s off w = .next t) : t.phase ∈ s.phase :: 0 :: stageCodes := by
  obtain ⟨-, written⟩ | ⟨-, rfl⟩ | ⟨-, -, rfl⟩ | rfl := regWrite_next h
  · obtain ⟨i, -, executed⟩ | rfl := cmdWrite_next written
    · exact exec_next_phase executed
    · exact accept_phase (by simp)
  all_goals exact List.mem_cons_self

theorem bufWrite_phase (space : Space) (a : Word) (b : Byte) (s : State) : (bufWrite s space a b).phase = s.phase := by
  cases space with
  | ibuf => unfold bufWrite; split_ifs <;> rfl
  | obuf => rfl

theorem hostStep_next_phase {access : HostStep} (h : hostStep access s = .next t) :
    t.phase ∈ s.phase :: 0 :: stageCodes := by
  obtain ⟨r, rfl⟩ | ⟨off, w, -, -, written⟩ | ⟨space, a, b, -, rfl⟩ := hostStep_next h
  · exact List.mem_cons_self
  · exact regWrite_next_phase written
  · rw [bufWrite_phase]
    exact List.mem_cons_self

theorem eventStep_next_phase {e : Event} (h : eventStep e s = .next t) : t.phase ∈ s.phase :: 0 :: stageCodes := by
  cases e with
  | engine => exact engineTurn_next_phase h
  | host access => exact hostStep_next_phase h
  | reset c => cases h; exact List.mem_cons_of_mem _ List.mem_cons_self

theorem step_next_phase (h : step s = .next t) : t.phase ∈ s.phase :: 0 :: stageCodes := by
  obtain ⟨e, rest, taken, -⟩ := step_eq_eventStep s
  exact eventStep_next_phase (s := { s with schedule := rest }) (taken ▸ h)

/-! ### The reserved codes (30_encoding.md R84) -/

theorem decodePhase_of_reserved : ∀ p : BitVec 4, p ∈ [7, 11, 12, 13, 14, 15] → decodePhase p = .error (.reservedPhase p) := by
  decide

/-- The codes that are not reserved are 0 and those of the stages (30_encoding.md R83). -/
theorem not_reserved_iff : ∀ p : BitVec 4, p ∉ [7, 11, 12, 13, 14, 15] ↔ p ∈ 0 :: stageCodes := by
  decide

/-- Settles O5: a reserved code selects no stage, and what a step gives PHASE is its old value, 0 or a stage code. -/
theorem reservedPhaseIsStuckAndNeverProduced : Obligations.ReservedPhaseIsStuckAndNeverProduced := by
  refine ⟨fun s rest busy reserved => ?_, fun s t unreserved h => ?_⟩
  · rw [step_engine]
    exact engineTurn_of_reject (s := { s with schedule := rest }) busy (decodePhase_of_reserved s.phase reserved)
  · obtain kept | moved := List.mem_cons.1 (step_next_phase h)
    · rwa [kept]
    · exact (not_reserved_iff t.phase).2 moved

end Sys2Proof.Machine
end

section
/-! PROOFS. Varints (30_encoding.md R92): what the writer puts at each byte, that reading gives it back, and that the reader
accepts nothing else. -/

namespace Sys2Proof.Machine

/-! ### The last group and the groups before it -/

@[simp] theorem varintLen_of_lt {x : Nat} (small : x < 128) : varintLen x = 1 := if_pos small

/-- Taking the least significant group off shortens the varint by one byte. -/
theorem varintLen_of_le {x : Nat} (large : 128 ≤ x) (bound : x < 2 ^ 35) : varintLen x = varintLen (x / 128) + 1 := by
  unfold varintLen
  split_ifs <;> omega

theorem varintLen_pos (x : Nat) : 0 < varintLen x := by
  unfold varintLen
  split_ifs <;> decide

theorem putVarintFrom_of_lt {x : Nat} (small : x < 128) (fuel : Nat) :
    putVarintFrom (fuel + 1) x = [BitVec.ofNat 8 x] := by
  rw [putVarintFrom_succ, if_neg (by omega), Nat.mod_eq_of_lt small]

theorem putVarintFrom_of_le {x : Nat} (large : 128 ≤ x) (fuel : Nat) :
    putVarintFrom (fuel + 1) x = BitVec.ofNat 8 (x % 128 + 128) :: putVarintFrom fuel (x / 128) := by
  rw [putVarintFrom_succ, if_pos (by omega)]

/-- The reader's last byte: bit 7 is 0. -/
theorem getVarintFrom_cons_of_lt {b : Byte} (last : b.toNat < 128) (fuel k a : Nat) (bs rest : List Byte) (x : Nat) :
    getVarintFrom (fuel + 1) k a (b :: bs) = some (x, rest) ↔
      (0 < k → b.toNat ≠ 0) ∧ x < 2 ^ 32 ∧ x = a + b.toNat * 2 ^ (7 * k) ∧ bs = rest := by
  simp only [getVarintFrom, Config.cntW, Nat.mod_eq_of_lt last, if_pos last]
  split_ifs with zero wide
  · simp [zero]
  · simp only [false_iff]
    omega
  · simp only [Option.some.injEq, Prod.mk.injEq]
    constructor
    · rintro ⟨rfl, rfl⟩
      exact ⟨fun later isZero => zero ⟨later, isZero⟩, by omega, rfl, rfl⟩
    · rintro ⟨-, -, rfl, rfl⟩
      exact ⟨rfl, rfl⟩

/-- The reader's other bytes: bit 7 is 1. -/
theorem getVarintFrom_cons_of_le {b : Byte} (more : 128 ≤ b.toNat) (fuel k a : Nat) (bs : List Byte) :
    getVarintFrom (fuel + 1) k a (b :: bs) = getVarintFrom fuel (k + 1) (a + b.toNat % 128 * 2 ^ (7 * k)) bs := by
  rw [getVarintFrom, if_neg (by omega)]

/-- The groups of `x`, least significant first, are at most `fuel`: what the induction along a varint goes by. -/
inductive VarintFits : Nat → Nat → Prop
  | last {fuel x : Nat} (small : x < 128) : VarintFits (fuel + 1) x
  | more {fuel x : Nat} (large : 128 ≤ x) (bound : x < 2 ^ 35) (tail : VarintFits fuel (x / 128)) : VarintFits (fuel + 1) x

theorem varintFits_of_varintLen_le {fuel : Nat} : ∀ {x : Nat}, x < 2 ^ 35 → varintLen x ≤ fuel → VarintFits fuel x := by
  induction fuel with
  | zero => intro x _ len; have := varintLen_pos x; omega
  | succ fuel ih =>
    intro x bound len
    by_cases small : x < 128
    · exact .last small
    · have large : 128 ≤ x := by omega
      rw [varintLen_of_le large bound] at len
      exact .more large bound (ih (by omega) (by omega))

/-- VARINT_MAX_BYTES groups are enough for every 32-bit value (00_scope.md R6). -/
theorem varintFits {x : Nat} (bound : x < 2 ^ 32) : VarintFits Config.varintMaxBytes x :=
  varintFits_of_varintLen_le (by omega) (varintLen_le x)

/-! ### What is written -/

theorem putVarintFrom_length {fuel x : Nat} (fits : VarintFits fuel x) :
    (putVarintFrom fuel x).length = varintLen x := by
  induction fits with
  | last small => rw [putVarintFrom_of_lt small, varintLen_of_lt small]; rfl
  | more large bound _ ih => rw [putVarintFrom_of_le large, varintLen_of_le large bound, List.length_cons, ih]

/-- Byte `k` holds group `k`, and bit 7 tells whether more groups follow. -/
theorem putVarintFrom_getElem? {fuel x : Nat} (fits : VarintFits fuel x) :
    ∀ k < varintLen x, (putVarintFrom fuel x)[k]? =
      some (BitVec.ofNat 8 (x / 128 ^ k % 128 + if k + 1 < varintLen x then 128 else 0)) := by
  induction fits with
  | last small =>
    intro k hk
    obtain rfl : k = 0 := by rw [varintLen_of_lt small] at hk; omega
    simp [putVarintFrom_of_lt small, varintLen_of_lt small, Nat.mod_eq_of_lt small]
  | more large bound _ ih =>
    rw [putVarintFrom_of_le large, varintLen_of_le large bound]
    intro k hk
    cases k with
    | zero => simp [varintLen_pos]
    | succ k =>
      rw [List.getElem?_cons_succ, ih k (by omega), Nat.div_div_eq_div_mul, ← Nat.pow_succ']
      simp only [Nat.add_lt_add_iff_right]

@[simp] theorem putVarint_length {x : Nat} (bound : x < 2 ^ 32) : (putVarint x).length = varintLen x :=
  putVarintFrom_length (varintFits bound)

theorem putVarint_getElem? {x k : Nat} (bound : x < 2 ^ 32) (hk : k < varintLen x) : (putVarint x)[k]? =
    some (BitVec.ofNat 8 (x / 128 ^ k % 128 + if k + 1 < varintLen x then 128 else 0)) :=
  putVarintFrom_getElem? (varintFits bound) k hk

/-! ### Reading what is written -/

/-- From byte number `k` on, the reader adds the value of the groups that follow, shifted to their place. -/
theorem getVarintFrom_putVarintFrom {fuel x : Nat} (fits : VarintFits fuel x) (rest : List Byte) :
    ∀ k a, (0 < k → x ≠ 0) → a + x * 2 ^ (7 * k) < 2 ^ 32 →
      getVarintFrom fuel k a (putVarintFrom fuel x ++ rest) = some (a + x * 2 ^ (7 * k), rest) := by
  induction fits with
  | @last fuel x small =>
    intro k a minimal bound
    have byte : (BitVec.ofNat 8 x).toNat = x := by rw [BitVec.toNat_ofNat]; omega
    rw [putVarintFrom_of_lt small, List.singleton_append, getVarintFrom_cons_of_lt (by omega), byte]
    exact ⟨minimal, bound, rfl, rfl⟩
  | @more fuel x large _ _ ih =>
    intro k a _ bound
    have byte : (BitVec.ofNat 8 (x % 128 + 128)).toNat = x % 128 + 128 := by rw [BitVec.toNat_ofNat]; omega
    have groups : a + (x % 128 + 128) % 128 * 2 ^ (7 * k) + x / 128 * 2 ^ (7 * (k + 1)) = a + x * 2 ^ (7 * k) := by
      conv_rhs => rw [← Nat.mod_add_div x 128]
      rw [Nat.add_mod_right, Nat.mod_mod]
      ring
    rw [putVarintFrom_of_le large, List.cons_append, getVarintFrom_cons_of_le (by omega), byte,
      ih (k + 1) _ (by omega) (by omega), groups]

theorem getVarint_putVarint {x : Nat} (bound : x < 2 ^ 32) (rest : List Byte) :
    getVarint (putVarint x ++ rest) = some (x, rest) := by
  simpa [getVarint, putVarint] using
    getVarintFrom_putVarintFrom (varintFits bound) rest 0 0 (by simp) (by simpa using bound)

/-! ### Nothing else is read -/

/-- The bytes read from byte number `k` on are those written for the value they add: no leading zero group and no group
beyond the last is accepted. -/
theorem eq_putVarintFrom_of_getVarintFrom {fuel : Nat} {rest : List Byte} {x : Nat} :
    ∀ {k a : Nat} {bs : List Byte}, getVarintFrom fuel k a bs = some (x, rest) →
      x < 2 ^ 32 ∧ ∃ y, (0 < k → y ≠ 0) ∧ x = a + y * 2 ^ (7 * k) ∧ bs = putVarintFrom fuel y ++ rest := by
  induction fuel with
  | zero => simp [getVarintFrom]
  | succ fuel ih =>
    intro k a bs read
    cases bs with
    | nil => simp [getVarintFrom] at read
    | cons b bs =>
      by_cases last : b.toNat < 128
      · obtain ⟨minimal, bound, value, rfl⟩ := (getVarintFrom_cons_of_lt last ..).1 read
        refine ⟨bound, b.toNat, minimal, value, ?_⟩
        simp [putVarintFrom_of_lt last]
      · have more : 128 ≤ b.toNat := by omega
        rw [getVarintFrom_cons_of_le more] at read
        obtain ⟨bound, y, minimal, value, rfl⟩ := ih read
        have nonzero : y ≠ 0 := minimal k.succ_pos
        have group : (y * 128 + b.toNat % 128) % 128 + 128 = b.toNat := by omega
        have tail : (y * 128 + b.toNat % 128) / 128 = y := by omega
        refine ⟨bound, y * 128 + b.toNat % 128, by omega, ?_, ?_⟩
        · rw [value]; ring
        · rw [putVarintFrom_of_le (by omega), group, tail, BitVec.ofNat_toNat, BitVec.setWidth_eq, List.cons_append]

theorem eq_putVarint_of_getVarint {bs rest : List Byte} {x : Nat} (read : getVarint bs = some (x, rest)) :
    x < 2 ^ 32 ∧ bs = putVarint x ++ rest := by
  obtain ⟨bound, y, -, rfl, rfl⟩ := eq_putVarintFrom_of_getVarintFrom read
  simpa [putVarint] using bound

/-- Settles O41, from the induction along the groups for writing and reading back, and along the bytes for the converse. -/
theorem varintsReadBackAndAreMinimal : Obligations.VarintsReadBackAndAreMinimal :=
  ⟨fun _ _ => putVarint_getElem?, fun _ rest bound => ⟨getVarint_putVarint bound rest, putVarint_length bound⟩,
    fun _ _ _ => eq_putVarint_of_getVarint⟩

end Sys2Proof.Machine
end

section
/-! PROOFS. codeBits (30_encoding.md R91): reading is the inverse of writing, byte by byte, and a table entry whose value
needs more bits than its length is refused. -/

namespace Sys2Proof.Machine

/-- The most significant byte comes first. -/
theorem putCodeBits_succ (v n : Nat) :
    putCodeBits v (n + 1) = BitVec.ofNat 8 (v / 2 ^ (8 * n) % 256) :: putCodeBits v n := by
  simp only [putCodeBits, List.range_succ_eq_map, List.map_cons, List.map_map, Nat.add_sub_cancel, Nat.sub_zero]
  congr 1
  refine List.map_congr_left fun k _ => ?_
  rw [Function.comp_apply, Nat.succ_eq_add_one, Nat.sub_add_eq, Nat.sub_right_comm]

theorem putCodeBits_getElem? {v n k : Nat} (hk : k < n) :
    (putCodeBits v n)[k]? = some (BitVec.ofNat 8 ((v >>> (8 * (n - 1 - k))) % 256)) := by
  simp [putCodeBits, hk, Nat.shiftRight_eq_div_pow]

/-- A number is the value read so far and one byte below it just when its quotient is the one and its remainder the other. -/
theorem eq_mul_add_byte_iff (q a : Nat) (b : Byte) : q = a * 256 + b.toNat ↔ q / 256 = a ∧ b = BitVec.ofNat 8 (q % 256) := by
  have := b.isLt
  rw [← BitVec.toNat_inj, BitVec.toNat_ofNat]
  omega

/-- Reading `n` bytes after the value `a` gives exactly the values whose part above these bytes is `a`, each from the bytes
written for it. -/
theorem getCodeBits_eq_some_iff {n v : Nat} {rest : List Byte} : ∀ {a : Nat} {bs : List Byte},
    getCodeBits n a bs = some (v, rest) ↔ v / 2 ^ (8 * n) = a ∧ bs = putCodeBits v n ++ rest := by
  induction n with
  | zero => simp [getCodeBits, putCodeBits, eq_comm]
  | succ n ih =>
    intro a bs
    have quotient : v / 2 ^ (8 * (n + 1)) = v / 2 ^ (8 * n) / 256 := by
      rw [Nat.div_div_eq_div_mul, Nat.mul_succ, Nat.pow_add]
    rw [putCodeBits_succ, quotient]
    cases bs with
    | nil => simp [getCodeBits]
    | cons b bs => rw [getCodeBits, ih, eq_mul_add_byte_iff, and_assoc, List.cons_append, List.cons.injEq]

/-- A value below 2^L fits the ceil(L/8) bytes of its codeBits. -/
theorem lt_two_pow_codeBytes {L v : Nat} (bound : v < 2 ^ L) : v < 2 ^ (8 * codeBytes L) :=
  bound.trans_le (Nat.pow_le_pow_right Nat.two_pos (by unfold codeBytes; omega))

theorem getCodeBits_putCodeBits {n v : Nat} (bound : v < 2 ^ (8 * n)) (rest : List Byte) :
    getCodeBits n 0 (putCodeBits v n ++ rest) = some (v, rest) :=
  getCodeBits_eq_some_iff.2 ⟨Nat.div_eq_of_lt bound, rfl⟩

theorem eq_putCodeBits_of_getCodeBits {n v : Nat} {bs rest : List Byte} (read : getCodeBits n 0 bs = some (v, rest)) :
    v < 2 ^ (8 * n) ∧ bs = putCodeBits v n ++ rest := by
  obtain ⟨quotient, bytes⟩ := getCodeBits_eq_some_iff.1 read
  exact ⟨(Nat.div_eq_zero_iff_lt (by positivity)).1 quotient, bytes⟩

/-- Condition 7 of 30_encoding.md R98. -/
theorem readEntry_of_wide {len : Byte} {v : Nat} {bs rest : List Byte}
    (read : getCodeBits (codeBytes len.toNat) 0 bs = some (v, rest)) (wide : 2 ^ len.toNat ≤ v) (w : Work) (s : Symbol) :
    readEntry w (s :: len :: bs) = (w, none) := by
  simp only [readEntry, read, ge_iff_le, if_pos wide, ite_self]

/-- Settles O42: reading and writing are inverse by induction on the number of bytes. -/
theorem codeBitsReadBackAndRefuseWideValues : Obligations.CodeBitsReadBackAndRefuseWideValues :=
  ⟨fun _ _ _ _ hk => ⟨putCodeBits_length .., putCodeBits_getElem? hk⟩,
    fun _ _ rest bound => getCodeBits_putCodeBits (lt_two_pow_codeBytes bound) rest,
    fun _ _ _ _ => eq_putCodeBits_of_getCodeBits,
    fun w s _ _ rest wide bound => readEntry_of_wide (getCodeBits_putCodeBits bound rest) wide w s⟩

end Sys2Proof.Machine
end

section
/-! PROOFS. Handling a CMD write (40_commands.md R110, R111, R114). -/

namespace Sys2Proof.Machine

/-! ### The words of the commands (30_encoding.md R80, R81) -/

/-- The two fields of a command word are the word. -/
theorem word_eq_of_fields {w v : Word} (zero : zeroField w = zeroField v) (opc : opcField w = opcField v) : w = v := by
  unfold zeroField at zero
  unfold opcField at opc
  refine BitVec.eq_of_getLsbD_eq fun i hi => ?_
  by_cases low : i < 8
  · have := congrArg (·.getLsbD i) opc
    simpa [low] using this
  · have := congrArg (·.getLsbD (i - 8)) zero
    simpa [show i - 8 < 24 by omega, show 8 + (i - 8) = i by omega] using this

/-- Every word other than the three of R80 is illegal. -/
theorem decodeCommand_of_illegal {w : Word} (notClr : w ≠ 0) (notEncode : w ≠ 1) (notDecode : w ≠ 2) :
    decodeCommand w = .error (.illegalCommand w) := by
  unfold decodeCommand
  rw [if_neg fun h => notClr (word_eq_of_fields h.1 h.2), if_neg fun h => notEncode (word_eq_of_fields h.1 h.2),
    if_neg fun h => notDecode (word_eq_of_fields h.1 h.2)]

theorem cmdWrite_clr (s : State) : cmdWrite 0x00000000 s = execClr s := rfl

theorem cmdWrite_encode (s : State) : cmdWrite 0x00000001 s = execEncode s := rfl

theorem cmdWrite_decode (s : State) : cmdWrite 0x00000002 s = execDecode s := rfl

theorem cmdWrite_of_illegal {w : Word} (notClr : w ≠ 0) (notEncode : w ≠ 1) (notDecode : w ≠ 2) (s : State) :
    cmdWrite w s = illegalCommand s := by
  rw [cmdWrite, decodeCommand_of_illegal notClr notEncode notDecode]

/-- The HOST's write to CMD is `cmdWrite`, in one step. -/
theorem step_cmdWrite (s : State) (w : Word) (rest : List Event) :
    step { s with schedule := .host (.regWrite 0x00 w) :: rest } = cmdWrite w { s with schedule := rest } := rfl

theorem accept_of_idle {s : State} (idle : s.busy = false) (effect : State → State) :
    accept s effect = effect s.prologue := by
  rw [accept, idle]
  rfl

section Idle

variable {s : State} (idle : s.busy = false)
include idle

theorem execClr_of_idle : execClr s = .next (s.prologue.setPhase 0) :=
  congrArg Host.Outcome.next (accept_of_idle idle fun s => s.setPhase 0)

theorem execEncode_of_idle : execEncode s = .next (s.prologue.startAt 1) :=
  congrArg Host.Outcome.next (accept_of_idle idle fun s => s.startAt 1)

theorem execDecode_of_idle : execDecode s = .next (s.prologue.startAt 8) :=
  congrArg Host.Outcome.next (accept_of_idle idle fun s => s.startAt 8)

theorem illegalCommand_of_idle : illegalCommand s = .next s.prologue.rejectCommand :=
  congrArg Host.Outcome.next (accept_of_idle idle State.rejectCommand)

end Idle

/-! ### The statements -/

/-- Settles O6: BUSY is tested first, and with BUSY = 0 the word decides between the three commands and the refusal. -/
theorem cmdWriteIsHandledInOneStep : Obligations.CmdWriteIsHandledInOneStep := by
  intro s w rest
  simp only [step_cmdWrite]
  have busyRest (busy : s.busy = true) : ({ s with schedule := rest } : State).busy = true := busy
  have idleRest (idle : s.busy = false) : ({ s with schedule := rest } : State).busy = false := idle
  refine ⟨fun busy => cmdWrite_of_busy (busyRest busy) w, ?_, ?_, ?_, ?_⟩
  · rintro idle rfl
    exact (cmdWrite_clr _).trans (execClr_of_idle (idleRest idle))
  · rintro idle rfl
    exact (cmdWrite_encode _).trans (execEncode_of_idle (idleRest idle))
  · rintro idle rfl
    exact (cmdWrite_decode _).trans (execDecode_of_idle (idleRest idle))
  · intro idle notClr notEncode notDecode
    rw [cmdWrite_of_illegal notClr notEncode notDecode]
    exact illegalCommand_of_idle (idleRest idle)

/-- Settles O7: an accepted CLR is the prologue and PHASE 0, and irq needs DONE or ERR. -/
theorem clrClearsTheFlagsAndKeepsTheResult : Obligations.ClrClearsTheFlagsAndKeepsTheResult := by
  intro s
  refine ⟨fun idle => ⟨?_, ?_⟩, fun busy => ?_⟩
  · exact execClr_of_idle idle
  · simp [irq, commandEnded]
  · exact congrArg Host.Outcome.next (accept_of_busy busy fun s => s.setPhase 0)

end Sys2Proof.Machine
end

section
/-! PROOFS. What a stage that succeeds does beside its data writes (40_commands.md R116, R117). -/

namespace Sys2Proof.Machine

/-- ERR tells a stage that raised from one that succeeded. -/
theorem ne_raise_of_err {s t : State} (noError : t.err = false) (e : ErrorCode) : t ≠ s.raise e := by
  rintro rfl
  cases noError

/-- After a completion irq is IE. -/
theorem irq_complete (s : State) (n : Nat) : irq (s.complete n) = s.ie := by
  simp [irq, commandEnded]

/-- The artifact's length is stored as it is: with no payload HDR_LEN alone fits, and else OBUF_SIZE bounds the sum. -/
theorem artifactLength_lt {w : Work} {size : Word}
    (room : w.payloadLen.toNat = 0 ∨ w.hdrLen.toNat + w.payloadLen.toNat ≤ size.toNat) :
    w.hdrLen.toNat + w.payloadLen.toNat < 2 ^ 32 := by
  have := w.hdrLen.isLt
  have := size.isLt
  omega

/-- Settles O22, from what each stage can do: ERR = 0 afterwards leaves the case in which it succeeds. -/
theorem stageSuccessAdvancesOrCompletes : Obligations.StageSuccessAdvancesOrCompletes := by
  intro s t _ noError
  have raised := fun (u : State) e => ne_raise_of_err (s := u) noError e
  refine ⟨fun h => ?_, fun h => ?_, fun h => ?_, fun h => ?_, fun h => ?_, fun h => ?_, fun h => ?_, fun h => ?_,
    fun h => ?_⟩
  · obtain ⟨-, rfl⟩ | ⟨-, -, rfl⟩ | ⟨-, -, rfl⟩ := execEFreq_next h
    · exact absurd rfl (raised _ _)
    · exact absurd rfl (raised _ _)
    · rfl
  · obtain ⟨-, rfl⟩ | ⟨-, -, rfl⟩ := execEBuild_next h
    · exact absurd rfl (raised _ _)
    · rfl
  · obtain ⟨w, -, rfl⟩ := execECodes_next h
    rfl
  · obtain ⟨-, w, -, ⟨-, rfl⟩ | ⟨-, rfl⟩⟩ := execEMeasure_next h
    · exact absurd rfl (raised _ _)
    · rfl
  · obtain ⟨-, rfl⟩ := execEHeader_next h
    rfl
  · obtain ⟨-, rfl⟩ | ⟨-, w, ⟨-, rfl⟩ | ⟨rest, -, rfl⟩⟩ := execDHeader_next h
    · exact absurd rfl (raised _ _)
    · exact absurd rfl (raised _ _)
    · rfl
  · obtain ⟨-, rfl⟩ | ⟨-, rfl⟩ := execDTable_next h
    · exact absurd rfl (raised _ _)
    · rfl
  · obtain ⟨-, room, rfl⟩ := execEPack_next h
    rw [← fit_eq_ofNat (artifactLength_lt room)]
    exact ⟨rfl, irq_complete _ _⟩
  · obtain ⟨-, rfl⟩ | ⟨-, ⟨-, -, rfl⟩ | ⟨-, rfl⟩ | ⟨out, -, -, rfl⟩⟩ := execDWalk_next h
    · exact absurd rfl (raised _ _)
    · exact absurd rfl (raised _ _)
    · exact absurd rfl (raised _ _)
    · exact ⟨by rw [State.complete, fit_of_toNat]; rfl, irq_complete _ _⟩

end Sys2Proof.Machine
end

section
/-! PROOFS. Reading the header (42_decoder_stages.md R150) gives back what writing it was given (40_commands.md R125). -/

namespace Sys2Proof.Machine

/-! ### Writing several entries of a table -/

/-- `T[s] <- v` for each pair in turn. -/
def putAll {α : Type} (t : Vector α 256) (l : List (Symbol × α)) : Vector α 256 :=
  l.foldl (fun t p => tablePut t p.1 p.2) t

@[simp] theorem putAll_cons {α : Type} (t : Vector α 256) (p : Symbol × α) (l : List (Symbol × α)) :
    putAll t (p :: l) = putAll (tablePut t p.1 p.2) l := rfl

theorem tableGet_putAll_of_not_mem {α : Type} {l : List (Symbol × α)} {s : Symbol} (h : s ∉ l.map (·.1)) :
    ∀ t : Vector α 256, tableGet (putAll t l) s = tableGet t s := by
  induction l with
  | nil => exact fun t => rfl
  | cons p l ih =>
    intro t
    simp only [List.map_cons, List.mem_cons, not_or] at h
    rw [putAll_cons, ih h.2, tableGet_tablePut_ne t _ h.1]

/-- Where no symbol occurs twice each entry stays as written. -/
theorem tableGet_putAll_of_mem {α : Type} {l : List (Symbol × α)} {s : Symbol} {v : α} (distinct : (l.map (·.1)).Nodup)
    (h : (s, v) ∈ l) : ∀ t : Vector α 256, tableGet (putAll t l) s = v := by
  induction l with
  | nil => cases h
  | cons p l ih =>
    intro t
    obtain ⟨fresh, distinct⟩ := List.nodup_cons.1 distinct
    obtain rfl | h := List.mem_cons.1 h
    · rw [putAll_cons, tableGet_putAll_of_not_mem fresh, tableGet_tablePut_self]
    · exact ih distinct h _

/-- Marking symbols one after another adds them to the marked ones. -/
theorem tableGet_putAll_true (l : List Symbol) (s : Symbol) :
    ∀ t : Vector Bool 256, tableGet (putAll t (l.map fun a => (a, true))) s = true ↔ s ∈ l ∨ tableGet t s = true := by
  induction l with
  | nil => simp [putAll]
  | cons a l ih =>
    intro t
    rw [List.map_cons, putAll_cons, ih, tableGet_tablePut, List.mem_cons]
    split_ifs with same <;> simp [same]

/-! ### One entry -/

/-- What the header holds for one symbol (30_encoding.md R88). -/
def bytesOfEntry (e : Symbol × Byte × Nat) : List Byte := e.1 :: e.2.1 :: putCodeBits e.2.2 (codeBytes e.2.1.toNat)

/-- Conditions 6 and 7 of 30_encoding.md R98 for one entry. -/
def EntryFits (e : Symbol × Byte × Nat) : Prop := 1 ≤ e.2.1.toNat ∧ e.2.2 < 2 ^ e.2.1.toNat

theorem readEntry_bytesOfEntry {w : Work} {e : Symbol × Byte × Nat} (fits : EntryFits e)
    (fresh : tableGet w.ctValid e.1 = false) (rest : List Byte) :
    readEntry w (bytesOfEntry e ++ rest) = (putEntry w e.1 e.2.1 e.2.2, some rest) := by
  obtain ⟨s, len, v⟩ := e
  obtain ⟨positive, bound⟩ := fits
  have nonzero : len ≠ 0 := by
    rintro rfl
    exact Nat.not_succ_le_zero 0 positive
  have read := getCodeBits_putCodeBits (lt_two_pow_codeBytes bound) rest
  simp only [bytesOfEntry, List.cons_append, readEntry, read, if_neg nonzero, ge_iff_le, if_neg (Nat.not_le.2 bound), fresh,
    Bool.false_eq_true, if_false]

/-! ### All entries -/

/-- The working state after the entries of a header have been written. -/
def putEntries (w : Work) (entries : List (Symbol × Byte × Nat)) : Work :=
  entries.foldl (fun w e => putEntry w e.1 e.2.1 e.2.2) w

/-- The entry of table CT that a header's entry stands for. -/
def codeOfEntry (e : Symbol × Byte × Nat) : Symbol × Code := (e.1, { len := e.2.1, val := fit 255 e.2.2 })

theorem putEntries_eq (entries : List (Symbol × Byte × Nat)) : ∀ w : Work, putEntries w entries =
    { w with ct := putAll w.ct (entries.map codeOfEntry)
             ctValid := putAll w.ctValid ((entries.map (·.1)).map fun s => (s, true))
             maxlen := (putEntries w entries).maxlen } := by
  induction entries with
  | nil => exact fun w => rfl
  | cons e entries ih => exact fun w => ih (putEntry w e.1 e.2.1 e.2.2)

theorem readEntries_bytes {entries : List (Symbol × Byte × Nat)} (fits : ∀ e ∈ entries, EntryFits e)
    (distinct : (entries.map (·.1)).Nodup) (rest : List Byte) : ∀ {w : Work},
    (∀ s ∈ entries.map (·.1), tableGet w.ctValid s = false) →
      readEntries entries.length w (entries.flatMap bytesOfEntry ++ rest) = (putEntries w entries, some rest) := by
  induction entries with
  | nil => exact fun _ => rfl
  | cons e entries ih =>
    intro w fresh
    obtain ⟨unused, distinct⟩ := List.nodup_cons.1 distinct
    obtain ⟨fitsHead, fits⟩ := List.forall_mem_cons.1 fits
    obtain ⟨freshHead, fresh⟩ := List.forall_mem_cons.1 fresh
    have freshNow : ∀ s ∈ entries.map (·.1), tableGet (putEntry w e.1 e.2.1 e.2.2).ctValid s = false := by
      intro s hs
      have other : s ≠ e.1 := fun same => unused (by rwa [same] at hs)
      exact (tableGet_tablePut_ne _ _ other).trans (fresh s hs)
    rw [List.flatMap_cons, List.append_assoc, List.length_cons, readEntries, readEntry_bytesOfEntry fitsHead freshHead]
    exact ih fits distinct freshNow

/-! ### The whole header -/

@[simp] theorem expectBytes_append (bs rest : List Byte) : expectBytes bs (bs ++ rest) = some rest := by
  induction bs with
  | nil => rfl
  | cons b bs ih => rw [List.cons_append, expectBytes, if_pos rfl, ih]

theorem readTrailer_bytes {total pad : Nat} (positive : 1 ≤ total) (bound : total < 2 ^ 32) (padBound : pad ≤ 7) (inLen : Nat)
    (w : Work) (payload : List Byte) :
    readTrailer inLen w (putVarint total ++ BitVec.ofNat 8 pad :: payload) =
      ({ w with total := fit 32 total, pad := fit 3 pad, payloadOff := fit 32 (inLen - payload.length) }, some payload) := by
  have byte : (BitVec.ofNat 8 pad).toNat = pad := by rw [BitVec.toNat_ofNat]; omega
  simp only [readTrailer, getVarint_putVarint bound, byte, if_neg (show ¬ total = 0 by omega),
    if_neg (show ¬ pad > 7 by omega)]

/-- The working state after a header has been read whole. -/
def Header.parsed (h : Header) (w : Work) : Work :=
  { putEntries { clearCodes w with nsym := fit 9 h.entries.length } h.entries with
    total := fit 32 h.total, pad := fit 3 h.pad, payloadOff := fit 32 h.toBytes.length }

theorem Header.toBytes_append (h : Header) (payload : List Byte) : h.toBytes ++ payload =
    (Config.magic ++ [Config.version]) ++ (putVarint h.entries.length ++ (h.entries.flatMap bytesOfEntry ++
      (putVarint h.total ++ BitVec.ofNat 8 h.pad :: payload))) := by
  simp only [Header.toBytes, List.append_assoc]
  rfl

/-- D_HEADER's reader accepts every well-formed header, whatever the order of its entries (42_decoder_stages.md R151). -/
theorem readHeader_toBytes {h : Header} (wf : h.wellFormed) (w : Work) (payload : List Byte) :
    readHeader (h.toBytes ++ payload).length w (h.toBytes ++ payload) = (h.parsed w, some payload) := by
  obtain ⟨nonempty, few, fits, distinct, positive, bound, padBound⟩ := wf
  have fresh : ∀ s ∈ h.entries.map (·.1),
      tableGet ({ clearCodes w with nsym := fit 9 h.entries.length } : Work).ctValid s = false :=
    fun s _ => tableGet_replicate false s
  have count : ¬ (h.entries.length = 0 ∨ h.entries.length > Config.nsymMax) := by
    simp only [Config.nsymMax]
    omega
  generalize len : (h.toBytes ++ payload).length = n
  have off : n - payload.length = h.toBytes.length := by
    rw [← len, List.length_append, Nat.add_sub_cancel]
  rw [Header.toBytes_append]
  simp only [readHeader, expectBytes_append, getVarint_putVarint (show h.entries.length < 2 ^ 32 by omega), if_neg count,
    readEntries_bytes fits distinct _ fresh, readTrailer_bytes positive bound padBound, off]
  rfl

section Parsed

variable {h : Header} (w : Work)

theorem Header.parsed_eq : h.parsed w =
    { w with ct := putAll w.ct (h.entries.map codeOfEntry)
             ctValid := putAll (Vector.replicate 256 false) ((h.entries.map (·.1)).map fun s => (s, true))
             maxlen := (h.parsed w).maxlen, nsym := fit 9 h.entries.length, total := fit 32 h.total, pad := fit 3 h.pad
             payloadOff := fit 32 h.toBytes.length } := by
  conv_lhs => rw [Header.parsed, putEntries_eq]
  rfl

theorem Header.parsed_ctValid (s : Symbol) : tableGet (h.parsed w).ctValid s = true ↔ s ∈ h.entries.map (·.1) := by
  rw [Header.parsed_eq, tableGet_putAll_true]
  simp

theorem Header.parsed_ct_of_mem (distinct : (h.entries.map (·.1)).Nodup) {e : Symbol × Byte × Nat} (he : e ∈ h.entries) :
    tableGet (h.parsed w).ct e.1 = { len := e.2.1, val := fit 255 e.2.2 } := by
  rw [Header.parsed_eq]
  refine tableGet_putAll_of_mem ?_ (List.mem_map_of_mem (f := codeOfEntry) he) _
  rwa [List.map_map]

theorem Header.parsed_payloadOff (length : h.toBytes.length < 2 ^ 32) : (h.parsed w).payloadOff.toNat = h.toBytes.length := by
  rw [Header.parsed_eq, fit_toNat length]

end Parsed

/-! ### D_HEADER -/

theorem execDHeader_of_read {s : State} {w : Work} {rest : List Byte} (range : s.inLen ≤ s.params.ibufSize)
    (read : readHeader s.inLen.toNat s.work (inputBytes s) = (w, some rest)) :
    execDHeader s = .next ((s.setWork w).setPhase 9) := by
  rw [execDHeader, if_neg (BitVec.not_lt.2 range), read]

theorem execDHeader_toBytes {s : State} {h : Header} {payload : List Byte} (range : s.inLen ≤ s.params.ibufSize)
    (wf : h.wellFormed) (input : inputBytes s = h.toBytes ++ payload) :
    execDHeader s = .next ((s.setWork (h.parsed s.work)).setPhase 9) := by
  refine execDHeader_of_read (rest := payload) range ?_
  rw [← inputBytes_length, input, readHeader_toBytes wf]

/-! ### The header of a code table -/

/-- The entry of the header for a symbol of a code table. -/
def entryOf (w : Work) (s : Symbol) : Symbol × Byte × Nat := (s, (tableGet w.ct s).len, (tableGet w.ct s).val.toNat)

/-- The header that E_HEADER writes (41_encoder_stages.md R139). -/
def headerOf (w : Work) : Header :=
  { entries := (validSymbols w).map (entryOf w), total := w.total.toNat, pad := w.pad.toNat }

@[simp] theorem headerOf_symbols (w : Work) : (headerOf w).entries.map (·.1) = validSymbols w := by
  simp [headerOf, entryOf, Function.comp_def]

@[simp] theorem headerOf_entries_length (w : Work) : (headerOf w).entries.length = (validSymbols w).length := by
  simp [headerOf]

theorem headerBytes_eq_toBytes {w : Work} (counted : w.nsym.toNat = (validSymbols w).length) :
    headerBytes w = (headerOf w).toBytes := by
  have pad : w.pad.setWidth 8 = BitVec.ofNat 8 w.pad.toNat := (BitVec.ofNat_toNat 8 w.pad).symm
  rw [headerBytes, Header.toBytes, headerOf_entries_length, counted, pad, headerOf, List.flatMap_map]
  rfl

/-- What every code table has when a header is made of it: a code of 1 to 255 bits for each valid symbol, NSYM of them. -/
structure CodesFit (w : Work) : Prop where
  counted : w.nsym.toNat = (validSymbols w).length
  nonempty : 1 ≤ (validSymbols w).length
  codes : ∀ b : Symbol, tableGet w.ctValid b = true →
    1 ≤ (tableGet w.ct b).len.toNat ∧ (tableGet w.ct b).val.toNat < 2 ^ (tableGet w.ct b).len.toNat

theorem headerOf_wellFormed {w : Work} (codes : CodesFit w) (total : 1 ≤ w.total.toNat) : (headerOf w).wellFormed := by
  refine ⟨?_, ?_, ?_, ?_, total, w.total.isLt, Nat.le_of_lt_succ w.pad.isLt⟩
  · rw [headerOf_entries_length]
    exact codes.nonempty
  · rw [headerOf_entries_length]
    exact symbolsIn_length_le _
  · intro e he
    obtain ⟨b, valid, rfl⟩ := List.mem_map.1 he
    exact codes.codes b (mem_validSymbols.1 valid)
  · rw [headerOf_symbols]
    exact symbolsIn_nodup _

/-- Two working states hold the same code table: the symbols with a code and the codes. -/
structure SameCodes (w v : Work) : Prop where
  valid : v.ctValid = w.ctValid
  code : ∀ b : Symbol, tableGet w.ctValid b = true → tableGet v.ct b = tableGet w.ct b

theorem sameCodes_parsed (w v : Work) : SameCodes w ((headerOf w).parsed v) where
  valid := table_ext fun b => Bool.eq_iff_iff.2 (by rw [Header.parsed_ctValid, headerOf_symbols, mem_validSymbols])
  code b valid := by
    have listed : entryOf w b ∈ (headerOf w).entries := List.mem_map_of_mem (mem_validSymbols.2 valid)
    have distinct : ((headerOf w).entries.map (·.1)).Nodup := by
      rw [headerOf_symbols]
      exact symbolsIn_nodup _
    rw [show b = (entryOf w b).1 from rfl, Header.parsed_ct_of_mem v distinct listed]
    simp [entryOf]

theorem headerOf_parsed_total (w v : Work) : ((headerOf w).parsed v).total = w.total := by
  rw [Header.parsed_eq]
  exact fit_of_toNat w.total

theorem headerOf_parsed_pad (w v : Work) : ((headerOf w).parsed v).pad = w.pad := by
  rw [Header.parsed_eq]
  exact fit_of_toNat w.pad

theorem headerOf_parsed_nsym {w : Work} (counted : w.nsym.toNat = (validSymbols w).length) (v : Work) :
    ((headerOf w).parsed v).nsym = w.nsym := by
  rw [Header.parsed_eq, headerOf_entries_length, ← counted, fit_of_toNat]

/-- What an input begins with has fewer than 2^32 bytes. -/
theorem length_lt_of_inputBytes {s : State} {header rest : List Byte} (input : inputBytes s = header ++ rest) :
    header.length < 2 ^ 32 := by
  have length := congrArg List.length input
  rw [inputBytes_length, List.length_append] at length
  have := s.inLen.isLt
  omega

/-- Settles O45: the header's bytes are those of a well-formed `Header`, which the reader gives back entry by entry. -/
theorem headerReadOfWriteIsTheTable : Obligations.HeaderReadOfWriteIsTheTable := by
  intro w u payload counted nonempty codes total _ range input
  rw [headerBytes_eq_toBytes counted] at input ⊢
  have same := sameCodes_parsed w u.work
  exact ⟨(headerOf w).parsed u.work,
    execDHeader_toBytes range (headerOf_wellFormed ⟨counted, nonempty, codes⟩ total) input, same.valid, same.code,
    headerOf_parsed_nsym counted _, headerOf_parsed_total _ _, headerOf_parsed_pad _ _,
    Header.parsed_payloadOff _ (length_lt_of_inputBytes input)⟩

end Sys2Proof.Machine
end

section
/-! PROOFS. A command's run under every interleaving (20_memory.md R66, R70, R71): the ENGINE's turns decide it, and what
HOST steps change meanwhile no turn of the ENGINE reads. -/

namespace Sys2Proof.Machine

/-! ### What HOST steps change while BUSY = 1 -/

/-- The state with another IE, other replies and another schedule. -/
def State.withHost (s : State) (ie : Bool) (replies : List Reply) (schedule : List Event) : State :=
  { s with ie := ie, replies := replies, schedule := schedule }

/-- The outcome with its next state changed. -/
def mapNext (f : State → State) : Host.Outcome State Fault Refusal → Host.Outcome State Fault Refusal
  | .next t => .next (f t)
  | .fault r => .fault r
  | .refused r => .refused r

@[simp] theorem mapNext_next (f : State → State) (t : State) : mapNext f (.next t) = .next (f t) := rfl

theorem mapNext_ite (f : State → State) (c : Prop) [Decidable c] (a b : Host.Outcome State Fault Refusal) :
    mapNext f (if c then a else b) = if c then mapNext f a else mapNext f b := apply_ite ..

/-- A HOST step that exists leaves a running command alone (20_memory.md R66, R67). -/
theorem hostStep_of_busy {s : State} (busy : s.busy = true) {h : HostStep} (wf : h.wellFormed = true) :
    ∃ ie replies, hostStep h s = .next (s.withHost ie replies s.schedule) := by
  cases h with
  | regRead off => exact ⟨s.ie, _, hostStep_regRead (alignedOffset_iff.1 wf) s⟩
  | regWrite off w =>
    rw [hostStep_regWrite (alignedOffset_iff.1 wf)]
    by_cases ctrl : off = 0x0C
    · exact ⟨w.getLsbD 0, s.replies, by rw [ctrl]; rfl⟩
    · exact ⟨s.ie, s.replies, regWrite_of_busy busy ctrl w⟩
  | bufRead space a => exact ⟨s.ie, _, rfl⟩
  | bufWrite space a b => exact ⟨s.ie, s.replies, by rw [hostStep_bufWrite, bufWrite_of_busy busy]; rfl⟩

/-! ### No stage reads it -/

section WithHost

variable (s : State) (ie : Bool) (replies : List Reply) (schedule : List Event)

theorem engineInput_withHost : engineInput (s.withHost ie replies schedule) = engineInput s := rfl

theorem orFault_enginePut_withHost (base : Nat) (bytes : List Byte) (k : State → State)
    (same : ∀ m, k ((s.withHost ie replies schedule).setObuf m) = (k (s.setObuf m)).withHost ie replies schedule) :
    (orFault (enginePut (s.withHost ie replies schedule) base bytes) fun t => .next (k t)) =
      mapNext (·.withHost ie replies schedule) (orFault (enginePut s base bytes) fun t => .next (k t)) := by
  by_cases room : bytes.length = 0 ∨ base + bytes.length ≤ s.params.obufSize.toNat
  · have here : enginePut s base bytes = .ok (s.setObuf (memWriteRun s.obuf base bytes)) := if_pos room
    have there : enginePut (s.withHost ie replies schedule) base bytes =
      .ok ((s.withHost ie replies schedule).setObuf (memWriteRun s.obuf base bytes)) := if_pos room
    rw [here, there, orFault_ok, orFault_ok, mapNext_next, same]
  · have here : enginePut s base bytes = .error _ := if_neg room
    have there : enginePut (s.withHost ie replies schedule) base bytes = .error _ := if_neg room
    rw [here, there]
    rfl

theorem execDHeader_withHost : execDHeader (s.withHost ie replies schedule) =
    mapNext (·.withHost ie replies schedule) (execDHeader s) := by
  have same : readHeader (s.withHost ie replies schedule).inLen.toNat (s.withHost ie replies schedule).work
    (inputBytes (s.withHost ie replies schedule)) = readHeader s.inLen.toNat s.work (inputBytes s) := rfl
  rw [execDHeader, execDHeader, same, mapNext_ite]
  obtain ⟨w, _ | rest⟩ := readHeader s.inLen.toNat s.work (inputBytes s) <;> rfl

theorem execDWalk_withHost : execDWalk (s.withHost ie replies schedule) =
    mapNext (·.withHost ie replies schedule) (execDWalk s) := by
  have same : walk (s.withHost ie replies schedule).work (dataBits (s.withHost ie replies schedule)) []
    (s.withHost ie replies schedule).work.total.toNat = walk s.work (dataBits s) [] s.work.total.toNat := rfl
  rw [execDWalk, execDWalk, same, mapNext_ite]
  cases walk s.work (dataBits s) [] s.work.total.toNat with
  | truncated => rw [mapNext_ite]; rfl
  | invalid => rfl
  | recovered out =>
    rw [← orFault_enginePut_withHost s ie replies schedule 0 out (·.complete s.work.total.toNat) fun m => rfl]
    rfl

/-- A stage's outcome is the same but for what it leaves as it was. -/
theorem exec_withHost {i : Instr} (stage : isStage i = true) :
    exec i (s.withHost ie replies schedule) = mapNext (·.withHost ie replies schedule) (exec i s) := by
  cases i with
  | clr | encode | decode => cases stage
  | eFreq => simp only [exec, execEFreq, mapNext_ite]; rfl
  | eBuild => simp only [exec, execEBuild, mapNext_ite]; rfl
  | eCodes =>
    simp only [exec, execECodes, State.withHost]
    cases visit s.work.node Config.nodeCap s.work.root.toNat [] (clearCodes s.work) <;> rfl
  | eMeasure =>
    simp only [exec, execEMeasure, engineInput_withHost]
    cases engineInput s with
    | error f => rfl
    | ok input => simp only [orFault_ok, mapNext_ite]; rfl
  | eHeader => exact orFault_enginePut_withHost s ie replies schedule 0 _ (·.setPhase 6) fun m => rfl
  | ePack =>
    simp only [exec, execEPack, engineInput_withHost]
    cases engineInput s with
    | error f => rfl
    | ok input =>
      exact orFault_enginePut_withHost s ie replies schedule _ _
        (·.complete (s.work.hdrLen.toNat + s.work.payloadLen.toNat)) fun m => rfl
  | dHeader => exact execDHeader_withHost s ie replies schedule
  | dTable => simp only [exec, execDTable, mapNext_ite]; rfl
  | dWalk => exact execDWalk_withHost s ie replies schedule

end WithHost

/-- PHASE selects stages only (30_encoding.md R83). -/
theorem decodePhase_all_isStage : ∀ p : BitVec 4, (decodePhase p).toOption.all isStage = true := by
  decide

theorem isStage_of_decodePhase {p : BitVec 4} {i : Instr} (h : decodePhase p = .ok i) : isStage i = true := by
  simpa [h, Except.toOption] using decodePhase_all_isStage p

theorem engineTurn_of_idle {s : State} (idle : s.busy = false) : engineTurn s = .next s := by
  rw [engineTurn, idle]
  rfl

/-- With BUSY = 1 the turn is the stage's that PHASE selects (40_commands.md R115). -/
theorem engineTurn_of_select {s : State} {i : Instr} (busy : s.busy = true) (selected : decodePhase s.phase = .ok i) :
    engineTurn s = exec i s := by
  simp only [engineTurn, if_pos busy, selected]

theorem engineTurn_withHost {s t : State} (h : engineTurn s = .next t) (ie : Bool) (replies : List Reply)
    (schedule : List Event) :
    engineTurn (s.withHost ie replies schedule) = .next (t.withHost ie replies schedule) := by
  obtain ⟨idle, rfl⟩ | ⟨busy, i, selected, executed⟩ := engineTurn_next h
  · exact engineTurn_of_idle (s := t.withHost ie replies schedule) idle
  · have turn : engineTurn (s.withHost ie replies schedule) = exec i (s.withHost ie replies schedule) :=
      engineTurn_of_select busy selected
    rw [turn, exec_withHost s ie replies schedule (isStage_of_decodePhase selected), executed, mapNext_next]

/-! ### The run of a command -/

/-- The ENGINE's turns alone take `s` to its first state with BUSY = 0, and that is `t`. -/
inductive EngineEnds : State → State → Prop where
  | ended {s : State} (idle : s.busy = false) : EngineEnds s s
  | turn {s u t : State} (busy : s.busy = true) (next : engineTurn s = .next u) (rest : EngineEnds u t) : EngineEnds s t

theorem EngineEnds.stage {s u t : State} {i : Instr} (busy : s.busy = true) (selected : decodePhase s.phase = .ok i)
    (executed : exec i s = .next u) (rest : EngineEnds u t) : EngineEnds s t :=
  .turn busy ((engineTurn_of_select busy selected).trans executed) rest

/-- Whatever exists between the ENGINE's turns, the run ends in the same state but for what HOST steps change. -/
theorem EngineEnds.endsIn {s t : State} (h : EngineEnds s t) : ∀ (events : List Event) (ie : Bool) (replies : List Reply),
    Interleaving events → ∃ ie' replies' schedule,
      EndsIn (s.withHost ie replies events) (t.withHost ie' replies' schedule) := by
  induction h with
  | ended idle => exact fun events ie replies _ => ⟨ie, replies, events, .ended idle⟩
  | @turn s u t busy next _ ih =>
    intro events
    induction events with
    | nil =>
      intro ie replies _
      obtain ⟨ie', replies', schedule, rest⟩ := ih [] ie replies interleaving_nil
      exact ⟨ie', replies', schedule, .goesOn busy (engineTurn_withHost next ie replies []) rest⟩
    | cons e events tail =>
      intro ie replies all
      obtain ⟨rfl | ⟨h, rfl, wf⟩, interleaved⟩ := interleaving_cons.1 all
      · obtain ⟨ie', replies', schedule, rest⟩ := ih events ie replies interleaved
        exact ⟨ie', replies', schedule, .goesOn busy (engineTurn_withHost next ie replies events) rest⟩
      · obtain ⟨ie₁, replies₁, host⟩ := hostStep_of_busy (s := s.withHost ie replies events) busy wf
        obtain ⟨ie', replies', schedule, rest⟩ := tail ie₁ replies₁ interleaved
        exact ⟨ie', replies', schedule, .goesOn busy host rest⟩

/-- A CMD write of `word` in `s` starts a command at the stage of code `p`. -/
def Starts (s : State) (word : Word) (p : BitVec 4) : Prop :=
  ∀ schedule, cmdWrite word { s with schedule := schedule } = .next { s.prologue.startAt p with schedule := schedule }

theorem starts_encode {s : State} (idle : s.busy = false) : Starts s 0x00000001 1 := fun schedule =>
  (cmdWrite_encode _).trans (execEncode_of_idle (s := { s with schedule := schedule }) idle)

theorem starts_decode {s : State} (idle : s.busy = false) : Starts s 0x00000002 8 := fun schedule =>
  (cmdWrite_decode _).trans (execDecode_of_idle (s := { s with schedule := schedule }) idle)

/-- A command started and then interleaved in any way ends as the ENGINE's turns alone end it. -/
theorem Starts.commandEnds {s t : State} {word : Word} {p : BitVec 4} {events : List Event} (starts : Starts s word p)
    (ends : EngineEnds (s.prologue.startAt p) t) (interleaved : Interleaving events) :
    ∃ ie replies schedule, CommandEnds s word events (t.withHost ie replies schedule) := by
  obtain ⟨ie, replies, schedule, run⟩ := ends.endsIn events s.ie s.replies interleaved
  exact ⟨ie, replies, schedule, _, (step_cmdWrite s word events).trans (starts events), run⟩

end Sys2Proof.Machine
end

section
/-! PROOFS. Bit strings and bytes (00_scope.md R9, R10): a code read from its length and value, and the stream bits of packed
bytes (30_encoding.md R96). -/

namespace Sys2Proof.Machine

/-! ### Values of bit strings -/

theorem val_append_bit_eq_bit (c : BitString) (b : Bool) : val (c ++ [b]) = Nat.bit b (val c) := by
  rw [val_append_bit, Nat.bit_val]

theorem val_lt (c : BitString) : val c < 2 ^ c.length := by
  induction c using List.reverseRecOn with
  | nil => simp
  | append_singleton c b ih =>
    have := b.toNat_le
    rw [val_append_bit, List.length_append, List.length_singleton, Nat.pow_succ]
    omega

/-- Counted from the end of the string the bits are those of its value. -/
theorem testBit_val (x : BitString) : ∀ k (h : k < x.length), (val x).testBit (x.length - 1 - k) = x[k] := by
  induction x using List.reverseRecOn with
  | nil => intro k h; simp at h
  | append_singleton x b ih =>
    intro k h
    rw [val_append_bit_eq_bit, List.length_append, List.length_singleton]
    by_cases last : k = x.length
    · subst last
      simp
    · have before : k < x.length := by simp at h; omega
      rw [show x.length + 1 - 1 - k = (x.length - 1 - k) + 1 by omega, Nat.testBit_bit_succ, ih k before,
        List.getElem_append_left before]

theorem bits_getElem {v L k : Nat} (bound : v < 2 ^ L) (h : k < (bits v L).length) :
    (bits v L)[k] = v.testBit (L - 1 - k) := by
  have small : k < L := by simpa using h
  have : L - 1 - k < L := by omega
  simp only [bits, List.getElem_map, List.getElem_range, fit_eq_ofNat bound, BitVec.getMsbD, BitVec.getLsbD_ofNat, small, this,
    decide_true, Bool.true_and]

/-- A bit string is read back from its value and its length (00_scope.md R10). -/
theorem bits_val (c : BitString) : bits (val c) c.length = c := by
  refine List.ext_getElem (bits_length _ _) fun k h h' => ?_
  rw [bits_getElem (val_lt c), testBit_val]

/-! ### Packed bytes -/

theorem bitsOfByte_eq_bits (b : Byte) : bitsOfByte b = bits b.toNat 8 := by
  refine List.map_congr_left fun t ht => ?_
  have := List.mem_range.1 ht
  simp [BitVec.getMsbD, this]

/-- The eight bits that byte `j` of a packed stream takes. -/
def octet (st : BitString) (j : Nat) : BitString := (List.range 8).map fun t => streamBit st (8 * j + t)

@[simp] theorem octet_length (st : BitString) (j : Nat) : (octet st j).length = 8 := by simp [octet]

theorem packByte_eq_val (st : BitString) (j : Nat) : packByte st j = BitVec.ofNat 8 (val (octet st j)) := by
  have range : List.range 8 = [0, 1, 2, 3, 4, 5, 6, 7] := rfl
  simp only [packByte, octet, range, val, List.map_cons, List.map_nil, List.sum_cons, List.sum_nil, List.foldl_cons,
    List.foldl_nil]
  congr 1
  ring

theorem bitsOfByte_packByte (st : BitString) (j : Nat) : bitsOfByte (packByte st j) = octet st j := by
  have bound : val (octet st j) < 2 ^ 8 := by simpa using val_lt (octet st j)
  rw [bitsOfByte_eq_bits, packByte_eq_val, BitVec.toNat_ofNat, Nat.mod_eq_of_lt bound]
  simpa using bits_val (octet st j)

theorem octet_eq_take_drop {st : BitString} {j : Nat} (room : 8 * (j + 1) ≤ st.length) :
    octet st j = (st.drop (8 * j)).take 8 := by
  refine List.ext_getElem (by simp; omega) fun t h h' => ?_
  have inside : 8 * j + t < st.length := by simp at h; omega
  simp [octet, streamBit, inside]

/-- The bytes packed from a stream hold its bits in stream order. -/
theorem streamOf_packBytes (st : BitString) : ∀ n, 8 * n ≤ st.length →
    streamOf ((List.range n).map (packByte st)) = st.take (8 * n)
  | 0, _ => rfl
  | n + 1, room => by
    rw [List.range_succ, List.map_append, streamOf_append, streamOf_packBytes st n (by omega), Nat.mul_succ, List.take_add]
    congr 1
    simpa [streamOf] using (bitsOfByte_packByte st n).trans (octet_eq_take_drop room)

end Sys2Proof.Machine
end

section
/-! PROOFS. The frequency table of an input (41_encoder_stages.md R130, R131). -/

namespace Sys2Proof.Machine

variable (input : List Byte) (w : Work) (b : Symbol)

theorem present_countSymbols :
    tableGet (input.foldl countSymbol w).present b = true ↔ b ∈ input ∨ tableGet w.present b = true := by
  induction input generalizing w with
  | nil => simp
  | cons a input ih =>
    rw [List.foldl_cons, ih, List.mem_cons]
    simp only [countSymbol, tableGet_tablePut]
    split_ifs with same <;> simp [same]

/-- Each occurrence counts one, as long as the counts fit their fields. -/
theorem count_countSymbols (bound : ∀ b, (tableGet w.count b).toNat + input.length < 2 ^ 32) :
    (tableGet (input.foldl countSymbol w).count b).toNat = (tableGet w.count b).toNat + input.count b := by
  induction input generalizing w with
  | nil => simp
  | cons a input ih =>
    simp only [List.length_cons] at bound
    have entry : ∀ b, (tableGet (countSymbol w a).count b).toNat = (tableGet w.count b).toNat + if a = b then 1 else 0 := by
      intro b
      simp only [countSymbol, tableGet_tablePut]
      split_ifs with same other other
      · rw [fit_toNat (by have := bound a; omega), same]
      · exact absurd same.symm other
      · exact absurd other.symm same
      · rfl
    have boundTail : ∀ b, (tableGet (countSymbol w a).count b).toNat + input.length < 2 ^ 32 := by
      intro b
      have := bound b
      rw [entry]
      split_ifs <;> omega
    rw [List.foldl_cons, ih _ boundTail, entry, List.count_cons]
    simp only [beq_iff_eq]
    omega

/-- Counting reads and writes PRESENT and COUNT only. -/
theorem countSymbols_eq (v : Work) (present : v.present = w.present) (count : v.count = w.count) :
    input.foldl countSymbol w = { w with present := (input.foldl countSymbol v).present
                                         count := (input.foldl countSymbol v).count } := by
  induction input generalizing w v with
  | nil => simp [present, count]
  | cons a input ih =>
    exact ih (countSymbol w a) (countSymbol v a) (by simp only [countSymbol, present]) (by simp only [countSymbol, count])

/-- The frequency table is a function of the input alone. -/
theorem frequencies_eq (v : Work) : frequencies w input = { w with present := (frequencies v input).present
                                                                   count := (frequencies v input).count
                                                                   nsym := (frequencies v input).nsym } := by
  unfold frequencies
  rw [countSymbols_eq input (clearCounts w) (clearCounts v) rfl rfl]
  rfl

theorem frequencies_present : tableGet (frequencies w input).present b = true ↔ b ∈ input := by
  unfold frequencies
  exact (present_countSymbols input _ b).trans (by simp [clearCounts])

theorem mem_presentSymbols {v : Work} {b : Symbol} : b ∈ presentSymbols v ↔ tableGet v.present b = true := by
  rw [presentSymbols, mem_symbolsIn]

theorem frequencies_count (bound : input.length < 2 ^ 32) :
    (tableGet (frequencies w input).count b).toNat = input.count b := by
  unfold frequencies
  exact (count_countSymbols input (clearCounts w) b (by simpa [clearCounts] using bound)).trans (by simp [clearCounts])

theorem frequencies_nsym : (frequencies w input).nsym.toNat = (presentSymbols (frequencies w input)).length := by
  have := symbolsIn_length_le (input.foldl countSymbol (clearCounts w)).present
  exact fit_toNat (by unfold presentSymbols; omega)

/-- An input that is not empty has a first symbol present. -/
theorem one_le_frequencies_nsym {input : List Byte} (nonempty : input ≠ []) : 1 ≤ (frequencies w input).nsym.toNat := by
  obtain ⟨b, hb⟩ := List.exists_mem_of_ne_nil input nonempty
  rw [frequencies_nsym]
  exact List.length_pos_of_mem (mem_presentSymbols.2 ((frequencies_present input w b).2 hb))

/-- E_FREQ leaves no present symbol with count 0 (41_encoder_stages.md R135). -/
theorem zeroWeight_frequencies (bound : input.length < 2 ^ 32) : zeroWeight (frequencies w input) = false := by
  refine List.any_eq_false.2 fun b hb zero => ?_
  have present := (frequencies_present input w b).1 (mem_presentSymbols.1 hb)
  have counted := frequencies_count input w b bound
  rw [beq_iff_eq.1 zero] at counted
  exact absurd (List.count_pos_iff.2 present) (by simp_all)

end Sys2Proof.Machine
end

section
/-! PROOFS. The tree builder (41_encoder_stages.md R132, R134): whatever the node table held before, E_BUILD leaves in it one
tree over the present symbols, which the frequency table alone decides. -/

namespace Sys2Proof.Machine

/-! ### Code trees -/

theorem CodeTree.one_le_symbols_length (tree : CodeTree) : 1 ≤ tree.symbols.length := by
  induction tree with
  | leaf s => exact le_rfl
  | one low ih => exact ih
  | two low high ihLow _ => exact ihLow.trans (by simp [CodeTree.symbols])

/-- Each level of a full tree has a leaf beside its longest path. -/
theorem CodeTree.height_lt_of_full {tree : CodeTree} (full : tree.full = true) : tree.height < tree.symbols.length := by
  induction tree with
  | leaf s => exact Nat.zero_lt_one
  | one low _ => cases full
  | two low high ihLow ihHigh =>
    obtain ⟨fullLow, fullHigh⟩ := (Bool.and_eq_true _ _).mp full
    have := ihLow fullLow
    have := ihHigh fullHigh
    simp only [CodeTree.height, CodeTree.symbols, List.length_append]
    omega

/-! ### Trees in the entries below an index -/

/-- The two node tables have the same entries below `m`. -/
def AgreeBelow (m : Nat) (t t' : Vector Node 511) : Prop := ∀ i < m, nodeGet t' i = nodeGet t i

theorem AgreeBelow.mono {m m' : Nat} {t t' : Vector Node 511} (h : AgreeBelow m t t') (le : m' ≤ m) : AgreeBelow m' t t' :=
  fun i lt => h i (lt.trans_le le)

theorem AgreeBelow.trans {m : Nat} {t t' t'' : Vector Node 511} (h : AgreeBelow m t t') (h' : AgreeBelow m t' t'') :
    AgreeBelow m t t'' :=
  fun i lt => (h' i lt).trans (h i lt)

/-- A write at `m` or above is not seen below `m`. -/
theorem agreeBelow_nodePut (t : Vector Node 511) {m i : Nat} (le : m ≤ i) (v : Node) : AgreeBelow m t (nodePut t i v) :=
  fun j lt => nodeGet_nodePut_ne t v (by omega)

/-- The same node written at `m` makes the tables agree at `m` too. -/
theorem AgreeBelow.nodePut {m : Nat} {t t' : Vector Node 511} (h : AgreeBelow m t t') (room : m < 511) (v : Node) :
    AgreeBelow (m + 1) (nodePut t m v) (nodePut t' m v) := by
  intro i lt
  by_cases last : i = m
  · rw [last, nodeGet_nodePut_self _ _ room, nodeGet_nodePut_self _ _ room]
  · rw [nodeGet_nodePut_ne _ _ last, nodeGet_nodePut_ne _ _ last]
    exact h i (by omega)

/-- The entries below `m` hold the tree at index `i`: every table with these entries represents it. -/
def RepresentsBelow (m : Nat) (t : Vector Node 511) (tree : CodeTree) (i : Nat) : Prop :=
  ∀ t', AgreeBelow m t t' → Represents t' tree i

theorem RepresentsBelow.of_agree {m m' : Nat} {t t' : Vector Node 511} {tree : CodeTree} {i : Nat}
    (h : RepresentsBelow m t tree i) (agree : AgreeBelow m t t') (le : m ≤ m') : RepresentsBelow m' t' tree i :=
  fun _ further => h _ (agree.trans (further.mono le))

theorem representsBelow_leaf {m i : Nat} {t : Vector Node 511} {w : BitVec 32} {s : Symbol} (lt : i < m)
    (entry : nodeGet t i = some (.leaf w s)) : RepresentsBelow m t (.leaf s) i :=
  fun _ agree => ⟨w, (agree i lt).trans entry⟩

/-- Indices of existing entries fit their 9-bit fields, and none is NIL. -/
theorem toNat_ofNat_index {i : Nat} (lt : i < 511) : (BitVec.ofNat 9 i).toNat = i := by
  rw [BitVec.toNat_ofNat]
  omega

theorem ofNat_index_ne_nil {i : Nat} (lt : i < 511) : BitVec.ofNat 9 i ≠ Config.nil := by
  intro h
  have := congrArg BitVec.toNat h
  rw [toNat_ofNat_index lt, Config.nil] at this
  simp at this
  omega

theorem representsBelow_two {m a b : Nat} {t : Vector Node 511} {low high : CodeTree} (w : BitVec 32) (room : m < 511)
    (ltA : a < m) (ltB : b < m) (ha : RepresentsBelow m t low a) (hb : RepresentsBelow m t high b) :
    RepresentsBelow (m + 1) (nodePut t m (.internal w (BitVec.ofNat 9 a) (BitVec.ofNat 9 b))) (.two low high) m := by
  intro t' agree
  have below : AgreeBelow m t t' := (agreeBelow_nodePut t le_rfl _).trans (agree.mono (Nat.le_succ m))
  have entry := agree m (Nat.lt_succ_self m)
  rw [nodeGet_nodePut_self _ _ room] at entry
  refine ⟨w, _, _, entry, ofNat_index_ne_nil (ltB.trans room), ?_, ?_⟩
  · rw [toNat_ofNat_index (ltA.trans room)]
    exact ha t' below
  · rw [toNat_ofNat_index (ltB.trans room)]
    exact hb t' below

/-! ### The leaves -/

theorem nodeGet_placeLeaves_below (w : Work) (ss : List Symbol) : ∀ (k : Nat) (t : Vector Node 511) {j : Nat}, j < k →
    nodeGet (placeLeaves w k ss t) j = nodeGet t j := by
  induction ss with
  | nil => exact fun _ _ _ _ => rfl
  | cons s ss ih =>
    intro k t j lt
    rw [placeLeaves, ih (k + 1) _ (by omega), nodeGet_nodePut_ne _ _ (by omega)]

theorem nodeGet_placeLeaves (w : Work) (ss : List Symbol) : ∀ (k : Nat) (t : Vector Node 511), k + ss.length ≤ 511 →
    ∀ i (h : i < ss.length), nodeGet (placeLeaves w k ss t) (k + i) = some (.leaf (tableGet w.count ss[i]) ss[i]) := by
  induction ss with
  | nil => intro k t _ i h; simp at h
  | cons s ss ih =>
    intro k t room i h
    simp only [List.length_cons] at room h
    rw [placeLeaves]
    cases i with
    | zero =>
      exact (nodeGet_placeLeaves_below w ss (k + 1) _ (Nat.lt_succ_self k)).trans (nodeGet_nodePut_self _ _ (by omega))
    | succ i =>
      rw [show k + (i + 1) = k + 1 + i by omega, ih (k + 1) _ (by omega) i (by omega)]
      rfl

/-- The leaves are the same whatever the table held before. -/
theorem agreeBelow_placeLeaves (w : Work) {ss : List Symbol} (few : ss.length ≤ 511) (t t' : Vector Node 511) :
    AgreeBelow ss.length (placeLeaves w 0 ss t) (placeLeaves w 0 ss t') := by
  intro i lt
  have entry := fun t => nodeGet_placeLeaves w ss 0 t (by omega) i lt
  rw [Nat.zero_add] at entry
  rw [entry t, entry t']

/-! ### The queue's least member (41_encoder_stages.md R133) -/

theorem exists_least (t : Vector Node 511) {q : List Nat} (nonempty : q ≠ []) : ∃ a ∈ q, least t q = some a := by
  induction q with
  | nil => exact absurd rfl nonempty
  | cons x xs ih =>
    rw [least]
    by_cases single : xs = []
    · subst single
      exact ⟨x, List.mem_cons_self, rfl⟩
    · obtain ⟨y, mem, found⟩ := ih single
      simp only [found]
      split_ifs
      · exact ⟨y, List.mem_cons_of_mem _ mem, rfl⟩
      · exact ⟨x, List.mem_cons_self, rfl⟩

theorem AgreeBelow.weightAt {m : Nat} {t t' : Vector Node 511} (h : AgreeBelow m t t') {i : Nat} (lt : i < m) :
    weightAt t' i = weightAt t i := by
  rw [Machine.weightAt, Machine.weightAt, h i lt]

theorem AgreeBelow.precedes {m : Nat} {t t' : Vector Node 511} (h : AgreeBelow m t t') {x y : Nat} (ltX : x < m) (ltY : y < m) :
    precedes t' x y = precedes t x y := by
  rw [Machine.precedes, Machine.precedes, h.weightAt ltX, h.weightAt ltY]

theorem AgreeBelow.least {m : Nat} {t t' : Vector Node 511} (h : AgreeBelow m t t') {q : List Nat} (below : ∀ i ∈ q, i < m) :
    least t' q = least t q := by
  induction q with
  | nil => rfl
  | cons x xs ih =>
    obtain ⟨ltX, below⟩ := List.forall_mem_cons.1 below
    rw [Machine.least, Machine.least, ih below]
    by_cases single : xs = []
    · rw [single]
      rfl
    · obtain ⟨y, mem, found⟩ := exists_least t single
      simp only [found, h.precedes (below y mem) ltX]

/-! ### The merges -/

/-- One round takes two members off the queue, the same for every table with the same entries below `next`. -/
theorem mergeNodes_round {q : List Nat} (two : 2 ≤ q.length) {next : Nat} (below : ∀ i ∈ q, i < next) (t : Vector Node 511) :
    ∃ (a b : Nat) (rest : List Nat) (w : BitVec 32), q.Perm (a :: b :: rest) ∧ ∀ t', AgreeBelow next t t' → ∀ fuel,
      mergeNodes (fuel + 1) q next t' =
        mergeNodes fuel (rest ++ [next]) (next + 1) (nodePut t' next (.internal w (BitVec.ofNat 9 a) (BitVec.ofNat 9 b))) := by
  obtain ⟨a, memA, leastA⟩ := exists_least t (List.ne_nil_of_length_pos (show 0 < q.length by omega))
  have lengthA := List.length_erase_of_mem memA
  obtain ⟨b, memB, leastB⟩ := exists_least t (List.ne_nil_of_length_pos (show 0 < (q.erase a).length by omega))
  have belowA : ∀ i ∈ q.erase a, i < next := fun i mem => below i (List.mem_of_mem_erase mem)
  refine ⟨a, b, (q.erase a).erase b, fit 32 (weightAt t a + weightAt t b),
    (List.perm_cons_erase memA).trans ((List.perm_cons_erase memB).cons a), fun t' agree fuel => ?_⟩
  simp only [mergeNodes, agree.least below, leastA, agree.least belowA, leastB, agree.weightAt (below a memA),
    agree.weightAt (belowA b memB)]

theorem mergeNodes_of_single (fuel x next : Nat) (t : Vector Node 511) : mergeNodes fuel [x] next t = t := by
  cases fuel with
  | zero => rfl
  | succ fuel => simp [mergeNodes, least]

/-- The tables merged are decided by the entries below `next`. -/
theorem agreeBelow_mergeNodes {k : Nat} : ∀ {fuel next : Nat} {q : List Nat} {t t' : Vector Node 511}, q.length = k + 1 →
    k ≤ fuel → next + k ≤ 511 → (∀ i ∈ q, i < next) → AgreeBelow next t t' →
    AgreeBelow (next + k) (mergeNodes fuel q next t) (mergeNodes fuel q next t') := by
  induction k with
  | zero =>
    intro fuel next q t t' length _ _ _ agree
    obtain ⟨x, rfl⟩ := List.length_eq_one_iff.1 length
    rwa [mergeNodes_of_single, mergeNodes_of_single]
  | succ k ih =>
    intro fuel next q t t' length enough room below agree
    obtain ⟨a, b, rest, w, perm, round⟩ := mergeNodes_round (by omega) below t
    obtain ⟨fuel, rfl⟩ : ∃ f, fuel = f + 1 := ⟨fuel - 1, by omega⟩
    have lengthRest : (a :: b :: rest).length = q.length := perm.length_eq.symm
    have belowRest : ∀ i ∈ rest ++ [next], i < next + 1 := by
      intro i mem
      obtain mem | mem := List.mem_append.1 mem
      · exact (below i (perm.mem_iff.2 (by simp [mem]))).trans (Nat.lt_succ_self next)
      · rw [List.mem_singleton.1 mem]
        exact Nat.lt_succ_self next
    rw [round t (fun _ _ => rfl), round t' agree, show next + (k + 1) = next + 1 + k by omega]
    refine ih ?_ (by omega) (by omega) belowRest (agree.nodePut (by omega) _)
    simp only [List.length_cons, List.length_append, List.length_nil] at lengthRest ⊢
    omega

/-- The entries of the queue stand for full trees in the entries below `next`; `F` names the tree of each. -/
structure Forest (F : Nat → CodeTree) (q : List Nat) (next : Nat) (t : Vector Node 511) : Prop where
  below : ∀ i ∈ q, i < next
  trees : ∀ i ∈ q, RepresentsBelow next t (F i) i
  full : ∀ i ∈ q, (F i).full = true

/-- The symbols of the trees of a queue. -/
def forestSymbols (F : Nat → CodeTree) (q : List Nat) : List Symbol := q.flatMap fun i => (F i).symbols

/-- The trees after the node `next` has taken `a` and `b` as children. -/
def mergedTrees (F : Nat → CodeTree) (a b next : Nat) : Nat → CodeTree := Function.update F next (.two (F a) (F b))

theorem Forest.merge {F : Nat → CodeTree} {q rest : List Nat} {a b next : Nat} {t : Vector Node 511} (forest : Forest F q next t)
    (perm : q.Perm (a :: b :: rest)) (room : next < 511) (w : BitVec 32) :
    Forest (mergedTrees F a b next) (rest ++ [next]) (next + 1)
      (nodePut t next (.internal w (BitVec.ofNat 9 a) (BitVec.ofNat 9 b))) ∧
    (forestSymbols (mergedTrees F a b next) (rest ++ [next])).Perm (forestSymbols F q) := by
  have memA : a ∈ q := perm.mem_iff.2 (by simp)
  have memB : b ∈ q := perm.mem_iff.2 (by simp)
  have memRest : ∀ i ∈ rest, i ∈ q := fun i mem => perm.mem_iff.2 (by simp [mem])
  have old : ∀ i ∈ rest, mergedTrees F a b next i = F i := fun i mem =>
    Function.update_of_ne (Nat.ne_of_lt (forest.below i (memRest i mem))) _ _
  have new : mergedTrees F a b next next = .two (F a) (F b) := Function.update_self ..
  refine ⟨⟨fun i mem => ?_, fun i mem => ?_, fun i mem => ?_⟩, ?_⟩
  · obtain mem | mem := List.mem_append.1 mem
    · exact (forest.below i (memRest i mem)).trans (Nat.lt_succ_self next)
    · rw [List.mem_singleton.1 mem]
      exact Nat.lt_succ_self next
  · obtain mem | mem := List.mem_append.1 mem
    · rw [old i mem]
      exact (forest.trees i (memRest i mem)).of_agree (agreeBelow_nodePut t le_rfl _) (Nat.le_succ next)
    · rw [List.mem_singleton.1 mem, new]
      exact representsBelow_two w room (forest.below a memA) (forest.below b memB) (forest.trees a memA) (forest.trees b memB)
  · obtain mem | mem := List.mem_append.1 mem
    · rw [old i mem]
      exact forest.full i (memRest i mem)
    · rw [List.mem_singleton.1 mem, new, CodeTree.full, forest.full a memA, forest.full b memB]
      rfl
  · have rest' : forestSymbols (mergedTrees F a b next) rest = forestSymbols F rest :=
      List.flatMap_congr fun i mem => by rw [old i mem]
    have split : forestSymbols (mergedTrees F a b next) (rest ++ [next]) =
        forestSymbols F rest ++ ((F a).symbols ++ (F b).symbols) := by
      rw [← rest']
      simp [forestSymbols, new, CodeTree.symbols]
    rw [split]
    refine (List.perm_append_comm).trans (.trans ?_ (perm.flatMap_right _).symm)
    simp [forestSymbols]

/-- The merges leave one full tree with the symbols of all, at the last index written. -/
theorem exists_mergeNodes_tree {k : Nat} : ∀ {F : Nat → CodeTree} {fuel next : Nat} {q : List Nat} {t : Vector Node 511},
    q.length = k + 1 → k ≤ fuel → next + k ≤ 511 → (k = 0 → next - 1 ∈ q) → Forest F q next t →
    ∃ tree, RepresentsBelow (next + k) (mergeNodes fuel q next t) tree (next + k - 1) ∧ tree.full = true ∧
      tree.symbols.Perm (forestSymbols F q) := by
  induction k with
  | zero =>
    intro F fuel next q t length _ _ last forest
    obtain ⟨x, rfl⟩ := List.length_eq_one_iff.1 length
    obtain rfl := List.mem_singleton.1 (last rfl)
    rw [mergeNodes_of_single]
    exact ⟨F (next - 1), forest.trees _ (by simp), forest.full _ (by simp), by simp [forestSymbols]⟩
  | succ k ih =>
    intro F fuel next q t length enough room _ forest
    obtain ⟨a, b, rest, w, perm, round⟩ := mergeNodes_round (by omega) forest.below t
    obtain ⟨fuel, rfl⟩ : ∃ f, fuel = f + 1 := ⟨fuel - 1, by omega⟩
    obtain ⟨merged, symbols⟩ := forest.merge perm (by omega) w
    have lengthRest : (rest ++ [next]).length = k + 1 := by
      have := perm.length_eq
      simp only [List.length_cons, List.length_append, List.length_nil] at this ⊢
      omega
    obtain ⟨tree, represented, full, same⟩ := ih lengthRest (Nat.le_of_succ_le_succ enough) (by omega) (by simp) merged
    rw [round t (fun _ _ => rfl), show next + (k + 1) = next + 1 + k by omega]
    exact ⟨tree, represented, full, same.trans symbols⟩

/-! ### E_BUILD -/

/-- The leaf placed for entry `i` of the queue. -/
def leafAt (ss : List Symbol) (i : Nat) : CodeTree := .leaf (ss.getD i 0)

theorem forest_placeLeaves (w : Work) {ss : List Symbol} (few : ss.length ≤ 511) (t : Vector Node 511) :
    Forest (leafAt ss) (List.range ss.length) ss.length (placeLeaves w 0 ss t) where
  below i mem := List.mem_range.1 mem
  full _ _ := rfl
  trees i mem := by
    have lt := List.mem_range.1 mem
    have entry := nodeGet_placeLeaves w ss 0 t (by omega) i lt
    rw [Nat.zero_add] at entry
    rw [leafAt, List.getD_eq_getElem _ _ lt]
    exact representsBelow_leaf lt entry

theorem forestSymbols_leafAt (ss : List Symbol) : forestSymbols (leafAt ss) (List.range ss.length) = ss := by
  have leaves : forestSymbols (leafAt ss) (List.range ss.length) = (List.range ss.length).map (ss.getD · 0) :=
    List.map_eq_flatMap.symm
  rw [leaves]
  refine List.ext_getElem (by simp) fun i h h' => ?_
  simp [h']

/-- What E_BUILD finds after E_FREQ: NSYM present symbols, at least one (41_encoder_stages.md R131). -/
structure Counted (w : Work) : Prop where
  nsym : w.nsym.toNat = (presentSymbols w).length
  positive : 1 ≤ w.nsym.toNat

/-- The working states have the same frequency table. -/
structure SameCounts (w v : Work) : Prop where
  present : v.present = w.present
  count : v.count = w.count
  nsym : v.nsym = w.nsym

theorem SameCounts.presentSymbols {w v : Work} (same : SameCounts w v) : presentSymbols v = presentSymbols w := by
  rw [Machine.presentSymbols, Machine.presentSymbols, same.present]

theorem placeLeaves_congr {w v : Work} (count : v.count = w.count) (ss : List Symbol) :
    ∀ (k : Nat) (t : Vector Node 511), placeLeaves v k ss t = placeLeaves w k ss t := by
  induction ss with
  | nil => exact fun _ _ => rfl
  | cons s ss ih =>
    intro k t
    rw [placeLeaves, placeLeaves, count, ih]

/-- The synthetic root of a single symbol (41_encoder_stages.md R134). -/
theorem represents_buildTree_one {v : Work} {s : Symbol} (single : presentSymbols v = [s]) (one : v.nsym.toNat = 1) :
    Represents (buildTree v).node (.one (.leaf s)) (buildTree v).root.toNat := by
  have leaf := nodeGet_placeLeaves v [s] 0 v.node (by simp) 0 (by simp)
  simp only [buildTree, one, if_true, single]
  refine ⟨_, _, nodeGet_nodePut_self _ _ (by decide), _, (nodeGet_nodePut_ne _ _ (by decide)).trans leaf⟩

/-- For two symbols or more the merges are those of any table with the same leaves (41_encoder_stages.md R132). -/
theorem represents_buildTree_merged {w v : Work} (same : SameCounts w v) (counted : Counted w) (two : 2 ≤ w.nsym.toNat)
    (few : w.nsym.toNat ≤ 256) {tree : CodeTree}
    (merged : RepresentsBelow (2 * w.nsym.toNat - 1) (mergeNodes w.nsym.toNat (List.range w.nsym.toNat) w.nsym.toNat
      (placeLeaves w 0 (presentSymbols w) w.node)) tree (2 * w.nsym.toNat - 2)) :
    Represents (buildTree v).node tree (buildTree v).root.toNat := by
  have leaves := agreeBelow_placeLeaves w (ss := presentSymbols w) (by rw [← counted.nsym]; omega) w.node v.node
  rw [← counted.nsym] at leaves
  have agree := agreeBelow_mergeNodes (k := w.nsym.toNat - 1) (fuel := w.nsym.toNat) (q := List.range w.nsym.toNat)
    (by rw [List.length_range]; omega) (by omega) (by omega) (fun i mem => List.mem_range.1 mem) leaves
  rw [show w.nsym.toNat + (w.nsym.toNat - 1) = 2 * w.nsym.toNat - 1 by omega] at agree
  simp only [buildTree, same.nsym, same.presentSymbols, placeLeaves_congr same.count,
    if_neg (show ¬ w.nsym.toNat = 1 by omega), if_neg (show ¬ w.nsym.toNat = 0 by omega),
    fit_toNat (show 2 * w.nsym.toNat - 2 < 2 ^ 9 by omega)]
  exact merged _ agree

/-- E_BUILD's tree is over the present symbols, deep enough for no code to be empty and no deeper than 255, and it is the
same for every working state with the same frequency table. -/
theorem exists_buildTree {w : Work} (counted : Counted w) : ∃ tree : CodeTree,
    tree.symbols.Perm (presentSymbols w) ∧ 1 ≤ tree.height ∧ tree.height ≤ 255 ∧ (2 ≤ w.nsym.toNat → tree.full = true) ∧
    ∀ v : Work, SameCounts w v → Represents (buildTree v).node tree (buildTree v).root.toNat := by
  have few : w.nsym.toNat ≤ 256 := counted.nsym ▸ symbolsIn_length_le _
  have positive := counted.positive
  by_cases one : w.nsym.toNat = 1
  · obtain ⟨s, single⟩ := List.length_eq_one_iff.1 (counted.nsym.symm.trans one)
    refine ⟨.one (.leaf s), by rw [single]; exact .refl _, le_rfl, by simp [CodeTree.height], by omega, fun v same => ?_⟩
    exact represents_buildTree_one (same.presentSymbols.trans single) (by rw [same.nsym, one])
  · have forest := forest_placeLeaves w (ss := presentSymbols w) (by rw [← counted.nsym]; omega) w.node
    rw [← counted.nsym] at forest
    obtain ⟨tree, merged, full, symbols⟩ := exists_mergeNodes_tree (k := w.nsym.toNat - 1) (fuel := w.nsym.toNat)
      (by rw [List.length_range]; omega) (by omega) (by omega) (by omega) forest
    rw [show w.nsym.toNat + (w.nsym.toNat - 1) = 2 * w.nsym.toNat - 1 by omega,
      show 2 * w.nsym.toNat - 1 - 1 = 2 * w.nsym.toNat - 2 by omega] at merged
    rw [counted.nsym, forestSymbols_leafAt] at symbols
    have leaves : tree.symbols.length = w.nsym.toNat := symbols.length_eq.trans counted.nsym.symm
    have height := CodeTree.height_lt_of_full full
    refine ⟨tree, symbols, ?_, by omega, fun _ => full, fun v same =>
      represents_buildTree_merged same counted (by omega) few merged⟩
    cases tree with
    | leaf s => simp [CodeTree.symbols] at leaves; omega
    | one low => cases full
    | two low high => simp [CodeTree.height]

end Sys2Proof.Machine
end

section
/-! PROOFS. The code table (41_encoder_stages.md R136): the traversal of a tree gives each leaf its path, and paths to
different leaves never continue one another (40_commands.md R126). -/

namespace Sys2Proof.Machine

/-! ### The paths of a tree -/

theorem CodeTree.paths_symbols (tree : CodeTree) : ∀ path, (tree.paths path).map (·.1) = tree.symbols := by
  induction tree with
  | leaf s => exact fun _ => rfl
  | one low ih => exact fun path => ih _
  | two low high ihLow ihHigh => intro path; simp [CodeTree.paths, CodeTree.symbols, ihLow, ihHigh]

/-- A path continues the path to the root of its tree, by at most the tree's height. -/
theorem CodeTree.mem_paths {tree : CodeTree} : ∀ {path : BitString} {p : Symbol × BitString}, p ∈ tree.paths path →
    path <+: p.2 ∧ p.2.length ≤ path.length + tree.height := by
  induction tree with
  | leaf s =>
    intro path p mem
    rw [List.mem_singleton.1 mem]
    exact ⟨List.prefix_rfl, le_rfl⟩
  | one low ih =>
    intro path p mem
    obtain ⟨pre, length⟩ := ih mem
    rw [List.length_append, List.length_singleton] at length
    exact ⟨(List.prefix_append _ _).trans pre, by rw [CodeTree.height]; omega⟩
  | two low high ihLow ihHigh =>
    intro path p mem
    rw [CodeTree.height]
    obtain mem | mem := List.mem_append.1 mem
    · obtain ⟨pre, length⟩ := ihLow mem
      rw [List.length_append, List.length_singleton] at length
      exact ⟨(List.prefix_append _ _).trans pre, by omega⟩
    · obtain ⟨pre, length⟩ := ihHigh mem
      rw [List.length_append, List.length_singleton] at length
      exact ⟨(List.prefix_append _ _).trans pre, by omega⟩

/-- From a root that is no leaf every path has a first bit. -/
theorem CodeTree.length_pos_of_mem_paths {tree : CodeTree} (height : 1 ≤ tree.height) {p : Symbol × BitString}
    (mem : p ∈ tree.paths []) : 1 ≤ p.2.length := by
  cases tree with
  | leaf s => cases height
  | one low => exact (CodeTree.mem_paths (tree := low) (path := [false]) mem).1.length_le
  | two low high =>
    obtain mem | mem := List.mem_append.1 mem
    · exact (CodeTree.mem_paths mem).1.length_le
    · exact (CodeTree.mem_paths mem).1.length_le

/-- Strings that continue a string by different bits are not prefixes of one another. -/
theorem not_prefix_of_branches {path x y : BitString} {b c : Bool} (ne : b ≠ c) (hx : path ++ [b] <+: x)
    (hy : path ++ [c] <+: y) : ¬ x <+: y := by
  intro h
  have same := (List.prefix_of_prefix_length_le (hx.trans h) hy (by simp)).eq_of_length (by simp)
  exact ne (by simpa using same)

/-- No path of a tree begins another leaf's path. -/
theorem CodeTree.eq_of_prefix {tree : CodeTree} : ∀ {path : BitString} {p q : Symbol × BitString}, p ∈ tree.paths path →
    q ∈ tree.paths path → p.2 <+: q.2 → p = q := by
  induction tree with
  | leaf s =>
    intro path p q memP memQ _
    rw [List.mem_singleton.1 memP, List.mem_singleton.1 memQ]
  | one low ih => exact fun memP memQ => ih memP memQ
  | two low high ihLow ihHigh =>
    intro path p q memP memQ pre
    obtain memP | memP := List.mem_append.1 memP <;> obtain memQ | memQ := List.mem_append.1 memQ
    · exact ihLow memP memQ pre
    · exact absurd pre (not_prefix_of_branches (by decide) (mem_paths memP).1 (mem_paths memQ).1)
    · exact absurd pre (not_prefix_of_branches (by decide) (mem_paths memP).1 (mem_paths memQ).1)
    · exact ihHigh memP memQ pre

/-! ### The traversal -/

/-- The working state after the codes of the paths have been written in turn. -/
def putCodes (w : Work) (paths : List (Symbol × BitString)) : Work := paths.foldl (fun w p => putCode w p.1 p.2) w

/-- The traversal of a tree's representation writes the codes of its paths. -/
theorem visit_of_represents {t : Vector Node 511} {tree : CodeTree} : ∀ {fuel i : Nat} {path : BitString} {w : Work},
    Represents t tree i → tree.height < fuel → visit t fuel i path w = .ok (putCodes w (tree.paths path)) := by
  induction tree with
  | leaf s =>
    intro fuel i path w represented enough
    obtain ⟨fuel, rfl⟩ : ∃ f, fuel = f + 1 := ⟨fuel - 1, by omega⟩
    obtain ⟨weight, entry⟩ := represented
    simp only [visit, entry]
    rfl
  | one low ih =>
    intro fuel i path w represented enough
    obtain ⟨fuel, rfl⟩ : ∃ f, fuel = f + 1 := ⟨fuel - 1, by omega⟩
    obtain ⟨weight, lo, entry, hLow⟩ := represented
    simp only [visit, entry, ih hLow (Nat.lt_of_succ_lt_succ enough), if_true]
    rfl
  | two low high ihLow ihHigh =>
    intro fuel i path w represented enough
    obtain ⟨fuel, rfl⟩ : ∃ f, fuel = f + 1 := ⟨fuel - 1, by omega⟩
    obtain ⟨weight, lo, hi, entry, notNil, hLow, hHigh⟩ := represented
    rw [CodeTree.height] at enough
    simp only [visit, entry, ihLow hLow (show low.height < fuel by omega), if_neg notNil,
      ihHigh hHigh (show high.height < fuel by omega)]
    rw [putCodes, putCodes, putCodes, CodeTree.paths, List.foldl_append]

/-! ### The table written -/

/-- The entry of table CT for a path. -/
def codeOfPath (p : Symbol × BitString) : Symbol × Code := (p.1, { len := fit 8 p.2.length, val := fit 255 (val p.2) })

theorem putCodes_eq (paths : List (Symbol × BitString)) : ∀ w : Work, putCodes w paths =
    { w with ct := putAll w.ct (paths.map codeOfPath)
             ctValid := putAll w.ctValid ((paths.map (·.1)).map fun s => (s, true))
             maxlen := (putCodes w paths).maxlen } := by
  induction paths with
  | nil => exact fun w => rfl
  | cons p paths ih => exact fun w => ih (putCode w p.1 p.2)

/-- The code table of a tree, in a working state. -/
def treeCodes (tree : CodeTree) (w : Work) : Work := putCodes (clearCodes w) (tree.paths [])

theorem execECodes_of_represents {s : State} {tree : CodeTree} (represented : Represents s.work.node tree s.work.root.toNat)
    (height : tree.height ≤ 255) : execECodes s = .next ((s.setWork (treeCodes tree s.work)).setPhase 4) := by
  have visited := visit_of_represents (path := []) (w := clearCodes s.work) represented
    (show tree.height < Config.nodeCap by rw [Config.nodeCap]; omega)
  rw [execECodes, visited]
  rfl

section TreeCodes

variable {tree : CodeTree} (w : Work)

theorem treeCodes_eq : treeCodes tree w =
    { w with ct := putAll w.ct ((tree.paths []).map codeOfPath)
             ctValid := putAll (Vector.replicate 256 false) (tree.symbols.map fun s => (s, true))
             maxlen := (treeCodes tree w).maxlen } := by
  conv_lhs => rw [treeCodes, putCodes_eq, CodeTree.paths_symbols]
  rfl

theorem treeCodes_ctValid (b : Symbol) : tableGet (treeCodes tree w).ctValid b = true ↔ b ∈ tree.symbols := by
  rw [treeCodes_eq, tableGet_putAll_true]
  simp

@[simp] theorem treeCodes_nsym : (treeCodes tree w).nsym = w.nsym := by rw [treeCodes_eq]

theorem exists_path {b : Symbol} (mem : b ∈ tree.symbols) : ∃ p ∈ tree.paths [], p.1 = b := by
  rwa [← CodeTree.paths_symbols tree [], List.mem_map] at mem

variable (distinct : tree.symbols.Nodup)
include distinct

theorem validSymbols_treeCodes_perm : (validSymbols (treeCodes tree w)).Perm tree.symbols :=
  (List.perm_ext_iff_of_nodup (symbolsIn_nodup _) distinct).2 fun b => by
    rw [mem_symbolsIn, treeCodes_ctValid]

theorem treeCodes_ct {p : Symbol × BitString} (mem : p ∈ tree.paths []) : tableGet (treeCodes tree w).ct p.1 = (codeOfPath p).2 := by
  rw [treeCodes_eq]
  refine tableGet_putAll_of_mem ?_ (List.mem_map_of_mem (f := codeOfPath) mem) _
  rw [List.map_map]
  exact (CodeTree.paths_symbols tree []).symm ▸ distinct

/-- Trees of one shape give one table. -/
theorem sameCodes_treeCodes (v : Work) : SameCodes (treeCodes tree w) (treeCodes tree v) where
  valid := table_ext fun b => Bool.eq_iff_iff.2 (by rw [treeCodes_ctValid, treeCodes_ctValid])
  code b valid := by
    obtain ⟨p, mem, rfl⟩ := exists_path ((treeCodes_ctValid w b).1 valid)
    rw [treeCodes_ct w distinct mem, treeCodes_ct v distinct mem]

variable (height : tree.height ≤ 255)
include height

theorem treeCodes_len {p : Symbol × BitString} (mem : p ∈ tree.paths []) :
    (tableGet (treeCodes tree w).ct p.1).len.toNat = p.2.length := by
  have := (CodeTree.mem_paths mem).2
  rw [List.length_nil] at this
  rw [treeCodes_ct w distinct mem, codeOfPath, fit_toNat (by omega)]

theorem treeCodes_val {p : Symbol × BitString} (mem : p ∈ tree.paths []) :
    (tableGet (treeCodes tree w).ct p.1).val.toNat = val p.2 := by
  have := (CodeTree.mem_paths mem).2
  rw [List.length_nil] at this
  rw [treeCodes_ct w distinct mem, codeOfPath,
    fit_toNat ((val_lt p.2).trans_le (Nat.pow_le_pow_right Nat.two_pos (by omega)))]

/-- The code of a leaf's symbol is the path to it. -/
theorem codeOf_treeCodes {p : Symbol × BitString} (mem : p ∈ tree.paths []) : codeOf (treeCodes tree w) p.1 = p.2 := by
  rw [codeOf, treeCodes_len w distinct height mem, treeCodes_val w distinct height mem, bits_val]

theorem prefixFree_treeCodes : prefixFree (treeCodes tree w) := by
  intro a b ne validA validB pre
  obtain ⟨p, memP, rfl⟩ := exists_path ((treeCodes_ctValid w a).1 validA)
  obtain ⟨q, memQ, rfl⟩ := exists_path ((treeCodes_ctValid w b).1 validB)
  rw [codeOf_treeCodes w distinct height memP, codeOf_treeCodes w distinct height memQ] at pre
  exact ne (congrArg Prod.fst (CodeTree.eq_of_prefix memP memQ pre))

theorem codesFit_treeCodes (positive : 1 ≤ tree.height) (nsym : w.nsym.toNat = tree.symbols.length) :
    CodesFit (treeCodes tree w) where
  counted := by
    rw [(validSymbols_treeCodes_perm w distinct).length_eq, ← nsym, treeCodes_nsym]
  nonempty := by
    rw [(validSymbols_treeCodes_perm w distinct).length_eq]
    exact tree.one_le_symbols_length
  codes b valid := by
    obtain ⟨p, mem, rfl⟩ := exists_path ((treeCodes_ctValid w b).1 valid)
    rw [treeCodes_len w distinct height mem, treeCodes_val w distinct height mem]
    exact ⟨CodeTree.length_pos_of_mem_paths positive mem, val_lt p.2⟩

end TreeCodes

end Sys2Proof.Machine
end

section
/-! PROOFS. The artifact that a code table gives an input: its length is the one measured (41_encoder_stages.md R138, R139,
R141), and it depends on the codes and not on the rest of the working state. -/

namespace Sys2Proof.Machine

/-! ### What E_MEASURE stores -/

section Measure

variable (w : Work) {inLen : Word} {input : List Byte}

theorem padFor_lt (totalBits : Nat) : padFor totalBits < 8 := Nat.mod_lt _ (by decide)

/-- With the pad bits the code bits fill the payload's bytes. -/
theorem eight_mul_payloadBytesFor (totalBits : Nat) : 8 * payloadBytesFor totalBits = totalBits + padFor totalBits := by
  unfold payloadBytesFor padFor
  omega

theorem measure_pad : (measure w inLen input).pad.toNat = padFor (codeLenSum w input) :=
  fit_toNat (padFor_lt _)

theorem measure_hdrLen : (measure w inLen input).hdrLen.toNat = headerLen w inLen.toNat := by
  have := headerLen_le w inLen.toNat (w.nsym.isLt.trans (by decide))
  exact fit_toNat (by omega)

variable (length : input.length = inLen.toNat)
include length

theorem measure_payloadLen : (measure w inLen input).payloadLen.toNat = payloadBytesFor (codeLenSum w input) := by
  have sum := codeLenSum_le w input
  have whole := eight_mul_payloadBytesFor (codeLenSum w input)
  have pad := padFor_lt (codeLenSum w input)
  have := inLen.isLt
  exact fit_toNat (by omega)

theorem packStream_measure_length :
    (packStream (measure w inLen input) input).length = 8 * (measure w inLen input).payloadLen.toNat := by
  rw [packStream_length, measure_pad, measure_payloadLen w length, eight_mul_payloadBytesFor]
  rfl

end Measure

/-! ### The header's length -/

theorem flatMap_entryBytes_length (w : Work) (ss : List Symbol) :
    (ss.flatMap (entryBytes w)).length = (ss.map fun s => 2 + codeBytes (tableGet w.ct s).len.toNat).sum := by
  rw [List.length_flatMap]
  simp only [entryBytes_length]

theorem headerBytes_length (w : Work) : (headerBytes w).length = headerLen w w.total.toNat := by
  have nsym : w.nsym.toNat < 2 ^ 32 := w.nsym.isLt.trans (by decide)
  simp only [headerBytes, headerLen, List.length_append, flatMap_entryBytes_length, putVarint_length nsym,
    putVarint_length w.total.isLt, Config.magic, Config.version, List.length_cons, List.length_nil]

/-- The header has the length that E_MEASURE stores for it. -/
theorem headerBytes_measure_length (w : Work) (inLen : Word) (input : List Byte) :
    (headerBytes (measure w inLen input)).length = (measure w inLen input).hdrLen.toNat := by
  rw [headerBytes_length, measure_hdrLen]
  rfl

/-! ### The artifact -/

/-- The header and the payload of an input, in the code table of a working state. -/
def artifact (w : Work) (input : List Byte) : List Byte := headerBytes w ++ payloadBytes w input

@[simp] theorem payloadBytes_length (w : Work) (input : List Byte) : (payloadBytes w input).length = w.payloadLen.toNat := by
  simp [payloadBytes]

theorem artifact_measure_length (w : Work) (inLen : Word) (input : List Byte) :
    (artifact (measure w inLen input) input).length =
      (measure w inLen input).hdrLen.toNat + (measure w inLen input).payloadLen.toNat := by
  rw [artifact, List.length_append, headerBytes_measure_length, payloadBytes_length]

/-! ### What it depends on -/

/-- The working states have the same code table and were measured alike. -/
structure SameMeasured (w v : Work) : Prop extends SameCodes w v where
  nsym : v.nsym = w.nsym
  total : v.total = w.total
  pad : v.pad = w.pad
  payloadLen : v.payloadLen = w.payloadLen

section Congr

variable {w v : Work} (same : SameCodes w v)
include same

theorem codeOf_congr {b : Symbol} (valid : tableGet w.ctValid b = true) : codeOf v b = codeOf w b := by
  rw [codeOf, codeOf, same.code b valid]

theorem validSymbols_congr : validSymbols v = validSymbols w := by
  rw [validSymbols, validSymbols, same.valid]

theorem flatMap_entryBytes_congr : (validSymbols w).flatMap (entryBytes v) = (validSymbols w).flatMap (entryBytes w) :=
  List.flatMap_congr fun b valid => by rw [entryBytes, entryBytes, same.code b (mem_validSymbols.1 valid)]

variable {input : List Byte} (valid : ∀ b ∈ input, tableGet w.ctValid b = true)
include valid

theorem codeLenSum_congr : codeLenSum v input = codeLenSum w input := by
  have lengths : input.map (fun b => (tableGet v.ct b).len.toNat) = input.map fun b => (tableGet w.ct b).len.toNat :=
    List.map_congr_left fun b mem => by rw [same.code b (valid b mem)]
  rw [codeLenSum, codeLenSum, lengths]

theorem flatMap_codeOf_congr : input.flatMap (codeOf v) = input.flatMap (codeOf w) :=
  List.flatMap_congr fun b mem => codeOf_congr same (valid b mem)

theorem sameMeasured_measure (nsym : v.nsym = w.nsym) (inLen : Word) :
    SameMeasured (measure w inLen input) (measure v inLen input) where
  valid := same.valid
  code := same.code
  nsym := nsym
  total := rfl
  pad := by simp only [measure, codeLenSum_congr same valid]
  payloadLen := by simp only [measure, codeLenSum_congr same valid]

end Congr

theorem artifact_congr {w v : Work} (same : SameMeasured w v) {input : List Byte}
    (valid : ∀ b ∈ input, tableGet w.ctValid b = true) : artifact v input = artifact w input := by
  simp only [artifact, headerBytes, payloadBytes, packStream, same.nsym, validSymbols_congr same.toSameCodes, same.total,
    same.pad, same.payloadLen, flatMap_entryBytes_congr same.toSameCodes, flatMap_codeOf_congr same.toSameCodes valid]

end Sys2Proof.Machine
end

section
/-! PROOFS. ENCODE from its first stage to its end (40_commands.md R116 to R119): how it ends is a function of the parameters
and the input. -/

namespace Sys2Proof.Machine

/-! ### How a command can end -/

/-- A command's end as the HOST sees it: with a result (40_commands.md R117), or error-stopped (60_exceptions.md R174). -/
inductive Ending where
  | completed (result : List Byte)
  | stopped (phase : BitVec 4) (e : ErrorCode)

/-- The registers and the result a HOST finds after the end. -/
def Shows (t : State) : Ending → Prop
  | .completed result => t.busy = false ∧ t.done = true ∧ t.err = false ∧ t.phase = 0 ∧ t.errcode = 0 ∧ resultBytes t = result
  | .stopped phase e => t.busy = false ∧ t.done = false ∧ t.err = true ∧ t.phase = phase ∧ t.errcode = e.code ∧ t.outLen = 0

/-- The ENGINE's turns from `u` end the command so. -/
def EndsAs (u : State) (ending : Ending) : Prop := ∃ t, EngineEnds u t ∧ Shows t ending

theorem Shows.withHost {t : State} {ending : Ending} (h : Shows t ending) (ie : Bool) (replies : List Reply)
    (schedule : List Event) : Shows (t.withHost ie replies schedule) ending := by
  cases ending <;> exact h

theorem EndsAs.stage {s u : State} {i : Instr} {ending : Ending} (executed : exec i s = .next u) (busy : s.busy = true)
    (selected : decodePhase s.phase = .ok i) (rest : EndsAs u ending) : EndsAs s ending := by
  obtain ⟨t, ends, shows⟩ := rest
  exact ⟨t, ends.stage busy selected executed, shows⟩

/-- A stage that raises is the last. -/
theorem endsAs_stopped {s u : State} {i : Instr} {e : ErrorCode} (executed : exec i s = .next (u.raise e)) (busy : s.busy = true)
    (selected : decodePhase s.phase = .ok i) (done : u.done = false) (outLen : u.outLen = 0) :
    EndsAs s (.stopped u.phase e) :=
  .stage executed busy selected ⟨_, .ended rfl, rfl, done, rfl, rfl, rfl, outLen⟩

/-- A stage that completes is the last. -/
theorem endsAs_completed {s u : State} {i : Instr} {n : Nat} {bytes : List Byte} (executed : exec i s = .next (u.complete n))
    (busy : s.busy = true) (selected : decodePhase s.phase = .ok i) (err : u.err = false) (errcode : u.errcode = 0)
    (result : resultBytes (u.complete n) = bytes) : EndsAs s (.completed bytes) :=
  .stage executed busy selected ⟨_, .ended rfl, rfl, rfl, err, rfl, errcode, result⟩

/-! ### The result in OBUF -/

theorem memWriteRun_append (xs ys : List Byte) : ∀ (m : Memory) (a : Nat),
    memWriteRun m a (xs ++ ys) = memWriteRun (memWriteRun m a xs) (a + xs.length) ys := by
  induction xs with
  | nil => exact fun _ _ => rfl
  | cons x xs ih =>
    intro m a
    rw [List.cons_append, memWriteRun, memWriteRun, ih, List.length_cons, Nat.add_right_comm, Nat.add_assoc]

/-- Bytes written from address 0 are the result of that length. -/
theorem resultBytes_of_written {t : State} {m : Memory} {bytes : List Byte} (wf : Memory.wf m = true)
    (written : t.obuf = memWriteRun m 0 bytes) (length : t.outLen.toNat = bytes.length) : resultBytes t = bytes := by
  refine List.ext_getElem (by simp [resultBytes, length]) fun i h h' => ?_
  have read := memRead_memWriteRun_inside (a := 0) wf h'
  rw [Nat.zero_add] at read
  simp only [resultBytes, List.getElem_map, List.getElem_range, written, read]

/-! ### The tree of an input -/

/-- The tree that E_BUILD leaves for an input, whatever the working state before E_FREQ was. -/
structure InputTree (input : List Byte) (tree : CodeTree) : Prop where
  symbols : ∀ b : Symbol, b ∈ tree.symbols ↔ b ∈ input
  distinct : tree.symbols.Nodup
  positive : 1 ≤ tree.height
  height : tree.height ≤ 255
  nsym : ∀ w : Work, (frequencies w input).nsym.toNat = tree.symbols.length
  built : ∀ w : Work, Represents (buildTree (frequencies w input)).node tree (buildTree (frequencies w input)).root.toNat

theorem exists_inputTree (input : List Byte) : ∃ tree, input ≠ [] → InputTree input tree := by
  by_cases nonempty : input = []
  · exact ⟨.leaf 0, fun h => absurd nonempty h⟩
  have counted : Counted (frequencies Work.zero input) := ⟨frequencies_nsym input _, one_le_frequencies_nsym _ nonempty⟩
  have same : ∀ w, SameCounts (frequencies Work.zero input) (frequencies w input) := fun w => by
    rw [frequencies_eq input w Work.zero]
    exact ⟨rfl, rfl, rfl⟩
  obtain ⟨tree, symbols, positive, height, -, built⟩ := exists_buildTree counted
  refine ⟨tree, fun _ => ⟨fun b => ?_, symbols.nodup_iff.2 (symbolsIn_nodup _), positive, height, fun w => ?_,
    fun w => built _ (same w)⟩⟩
  · rw [symbols.mem_iff, mem_presentSymbols, frequencies_present]
  · rw [(same w).nsym, counted.nsym, symbols.length_eq]

@[simp] theorem buildTree_nsym (w : Work) : (buildTree w).nsym = w.nsym := by
  unfold buildTree
  dsimp only
  split_ifs <;> rfl

/-- The working state that E_MEASURE finds. -/
def inputCodes (tree : CodeTree) (w : Work) (input : List Byte) : Work := treeCodes tree (buildTree (frequencies w input))

/-- The working state that E_MEASURE leaves. -/
def inputMeasured (tree : CodeTree) (w : Work) (inLen : Word) (input : List Byte) : Work :=
  measure (inputCodes tree w input) inLen input

namespace InputTree

variable {input : List Byte} {tree : CodeTree} (h : InputTree input tree) (w : Work)
include h

theorem valid_iff (b : Symbol) : tableGet (inputCodes tree w input).ctValid b = true ↔ b ∈ input := by
  rw [inputCodes, treeCodes_ctValid, h.symbols]

theorem codesFit : CodesFit (inputCodes tree w input) :=
  codesFit_treeCodes _ h.distinct h.height h.positive (by rw [buildTree_nsym, h.nsym])

theorem prefixFree : prefixFree (inputCodes tree w input) := prefixFree_treeCodes _ h.distinct h.height

/-- What E_MEASURE leaves for an input does not depend on the working state before. -/
theorem sameMeasured (v : Work) (inLen : Word) :
    SameMeasured (inputMeasured tree w inLen input) (inputMeasured tree v inLen input) := by
  refine sameMeasured_measure (sameCodes_treeCodes _ h.distinct _) (fun b => (h.valid_iff w b).2) ?_ inLen
  rw [treeCodes_nsym, treeCodes_nsym, buildTree_nsym, buildTree_nsym, frequencies_eq input v w]

end InputTree

/-! ### The stages of ENCODE -/

/-- How ENCODE ends on an input for which E_MEASURE leaves `w`. -/
def measuredEnding (params : Config.Params) (w : Work) (input : List Byte) : Ending :=
  if params.obufSize.toNat < (artifact w input).length then .stopped 4 .outputOverflow else .completed (artifact w input)

/-- A stage's working state and PHASE replace those of the stage before. -/
theorem setWork_setPhase_again (u : State) (w v : Work) (p q : BitVec 4) :
    (((u.setWork w).setPhase p).setWork v).setPhase q = (u.setWork v).setPhase q := rfl

/-- What an accepted ENCODE or DECODE finds in the registers, and keeps until it ends. -/
structure Started (u : State) : Prop where
  busy : u.busy = true
  done : u.done = false
  err : u.err = false
  errcode : u.errcode = 0
  outLen : u.outLen = 0
  obuf : Memory.wf u.obuf = true

theorem started_startAt {s : State} (wf : Memory.wf s.obuf = true) (p : BitVec 4) : Started (s.prologue.startAt p) :=
  ⟨rfl, rfl, rfl, rfl, rfl, wf⟩

theorem Started.setWork_setPhase {u : State} (h : Started u) (w : Work) (p : BitVec 4) : Started ((u.setWork w).setPhase p) :=
  ⟨h.busy, h.done, h.err, h.errcode, h.outLen, h.obuf⟩

/-! ### What the stages do -/

theorem execEFreq_of_outside {s : State} (outside : s.params.ibufSize < s.inLen) :
    execEFreq s = .next (s.raise .inputRange) :=
  if_pos outside

theorem execEFreq_of_empty {s : State} (range : s.inLen ≤ s.params.ibufSize) (empty : s.inLen = 0) :
    execEFreq s = .next (s.raise .emptyInput) := by
  rw [execEFreq, if_neg (BitVec.not_lt.2 range), if_pos empty]

theorem execEFreq_of_range {s : State} (range : s.inLen ≤ s.params.ibufSize) (nonempty : s.inLen ≠ 0) :
    execEFreq s = .next ((s.setWork (frequencies s.work (inputBytes s))).setPhase 2) := by
  rw [execEFreq, if_neg (BitVec.not_lt.2 range), if_neg nonempty]

theorem engineInput_of_range {s : State} (range : s.inLen ≤ s.params.ibufSize) : engineInput s = .ok (inputBytes s) :=
  if_neg (BitVec.not_lt.2 range)

section Measured

variable {s : State} {w : Work} (range : s.inLen ≤ s.params.ibufSize) (measured : measure s.work s.inLen (inputBytes s) = w)
include range measured

theorem execEMeasure_of_overflow (overflow : s.params.obufSize.toNat < w.hdrLen.toNat + w.payloadLen.toNat) :
    execEMeasure s = .next ((s.setWork w).raise .outputOverflow) := by
  rw [execEMeasure, engineInput_of_range range, orFault_ok, measured]
  exact if_pos overflow

theorem execEMeasure_of_room (room : w.hdrLen.toNat + w.payloadLen.toNat ≤ s.params.obufSize.toNat) :
    execEMeasure s = .next ((s.setWork w).setPhase 5) := by
  rw [execEMeasure, engineInput_of_range range, orFault_ok, measured]
  exact if_neg (Nat.not_lt.2 room)

end Measured

theorem execEHeader_of_room {s : State} (room : (headerBytes s.work).length ≤ s.params.obufSize.toNat) :
    execEHeader s = .next ((s.setObuf (memWriteRun s.obuf 0 (headerBytes s.work))).setPhase 6) := by
  rw [execEHeader, enginePut_inside (by omega), orFault_ok]

theorem execEPack_of_room {s : State} (range : s.inLen ≤ s.params.ibufSize)
    (room : s.work.hdrLen.toNat + s.work.payloadLen.toNat ≤ s.params.obufSize.toNat) :
    execEPack s = .next ((s.setObuf (memWriteRun s.obuf s.work.hdrLen.toNat (payloadBytes s.work (inputBytes s)))).complete
      (s.work.hdrLen.toNat + s.work.payloadLen.toNat)) := by
  rw [execEPack, engineInput_of_range range, orFault_ok, enginePut_inside (by rwa [payloadBytes_length]), orFault_ok]

/-! ### ENCODE -/

section Stages

variable {u : State} (started : Started u)
include started

/-- A running command stops at a stage that raises, whatever the working state it leaves. -/
theorem Started.endsAs_stopped {i : Instr} {e : ErrorCode} {p : BitVec 4} {w : Work} (phase : u.phase = p)
    (selected : decodePhase p = .ok i) (executed : exec i u = .next ((u.setWork w).raise e)) : EndsAs u (.stopped p e) := by
  subst phase
  exact Machine.endsAs_stopped (u := u.setWork w) executed started.busy selected started.done started.outLen

variable (range : u.inLen ≤ u.params.ibufSize)
include range

/-- The first three stages of ENCODE raise nothing on an input that fits and is not empty. -/
theorem endsAs_of_codes {tree : CodeTree} {ending : Ending} (phase : u.phase = 1) (nonempty : u.inLen ≠ 0)
    (h : InputTree (inputBytes u) tree)
    (rest : EndsAs ((u.setWork (inputCodes tree u.work (inputBytes u))).setPhase 4) ending) : EndsAs u ending := by
  have freq : exec .eFreq u = .next ((u.setWork (frequencies u.work (inputBytes u))).setPhase 2) :=
    execEFreq_of_range range nonempty
  have bound : (inputBytes u).length < 2 ^ 32 := by
    rw [inputBytes_length]
    exact u.inLen.isLt
  have few : ¬ Config.nsymMax < (frequencies u.work (inputBytes u)).nsym.toNat := by
    have := symbolsIn_length_le (frequencies u.work (inputBytes u)).present
    rw [frequencies_nsym, Config.nsymMax, presentSymbols]
    omega
  have build : exec .eBuild ((u.setWork (frequencies u.work (inputBytes u))).setPhase 2) =
      .next ((u.setWork (buildTree (frequencies u.work (inputBytes u)))).setPhase 3) := by
    have noZero := zeroWeight_frequencies (inputBytes u) u.work bound
    rw [exec, execEBuild, State.setPhase_work, State.setWork_work, noZero, if_neg Bool.false_ne_true, if_neg few,
      setWork_setPhase_again]
  have codes : exec .eCodes ((u.setWork (buildTree (frequencies u.work (inputBytes u)))).setPhase 3) =
      .next ((u.setWork (inputCodes tree u.work (inputBytes u))).setPhase 4) := by
    have built : Represents ((u.setWork (buildTree (frequencies u.work (inputBytes u)))).setPhase 3).work.node tree _ :=
      h.built u.work
    rw [exec, execECodes_of_represents built h.height, setWork_setPhase_again, State.setPhase_work, State.setWork_work, inputCodes]
  have busyAt (w : Work) (p : BitVec 4) : ((u.setWork w).setPhase p).busy = true := (started.setWork_setPhase w p).busy
  exact .stage freq started.busy (by rw [phase]; rfl) (.stage build (busyAt _ _) rfl (.stage codes (busyAt _ _) rfl rest))

/-- E_PACK completes the result whose header lies in OBUF. -/
theorem endsAs_of_ePack (phase : u.phase = 6) {m : Memory} (wf : Memory.wf m = true)
    (written : u.obuf = memWriteRun m 0 (headerBytes u.work)) (header : (headerBytes u.work).length = u.work.hdrLen.toNat)
    (room : u.work.hdrLen.toNat + u.work.payloadLen.toNat ≤ u.params.obufSize.toNat) :
    EndsAs u (.completed (artifact u.work (inputBytes u))) := by
  refine endsAs_completed (i := .ePack) (execEPack_of_room range room) started.busy (by rw [phase]; rfl) started.err started.errcode ?_
  refine resultBytes_of_written wf (m := m) ?_ ?_
  · rw [State.complete_obuf, State.setObuf_obuf, written, ← header, artifact, memWriteRun_append, Nat.zero_add]
  · rw [State.complete_outLen, fit_toNat (room.trans_lt u.params.obufSize.isLt), artifact, List.length_append, header,
      payloadBytes_length]

/-- E_HEADER and E_PACK, on an artifact measured to fit. -/
theorem endsAs_of_eHeader (phase : u.phase = 5) (header : (headerBytes u.work).length = u.work.hdrLen.toNat)
    (room : u.work.hdrLen.toNat + u.work.payloadLen.toNat ≤ u.params.obufSize.toNat) :
    EndsAs u (.completed (artifact u.work (inputBytes u))) := by
  have put := execEHeader_of_room (s := u) (by omega)
  have wf := Memory.wf_memWriteRun 0 (headerBytes u.work) started.obuf
  generalize written : memWriteRun u.obuf 0 (headerBytes u.work) = m at put wf
  have started' : Started ((u.setObuf m).setPhase 6) :=
    ⟨started.busy, started.done, started.err, started.errcode, started.outLen, wf⟩
  refine .stage (i := .eHeader) put started.busy (by rw [phase]; rfl) ?_
  exact endsAs_of_ePack started' range rfl started.obuf written.symm header room

/-- ENCODE from E_MEASURE on. -/
theorem endsAs_of_eMeasure (phase : u.phase = 4) :
    EndsAs u (measuredEnding u.params (measure u.work u.inLen (inputBytes u)) (inputBytes u)) := by
  have header := headerBytes_measure_length u.work u.inLen (inputBytes u)
  unfold measuredEnding
  rw [artifact_measure_length]
  split_ifs with overflow
  · exact started.endsAs_stopped (i := .eMeasure) phase rfl (execEMeasure_of_overflow range rfl overflow)
  · refine .stage (i := .eMeasure) (execEMeasure_of_room range rfl (Nat.not_lt.1 overflow)) started.busy (by rw [phase]; rfl) ?_
    exact endsAs_of_eHeader (started.setWork_setPhase _ 5) range rfl header (Nat.not_lt.1 overflow)

end Stages

/-- The measured working state from which the artifact of an input is made, in the working state of RESET. -/
def referenceMeasured (tree : CodeTree) (inLen : Word) (input : List Byte) : Work :=
  inputMeasured tree Work.zero inLen input

/-- How ENCODE ends (40_commands.md R119), where `tree` is the input's tree when the input is not empty. -/
def encodeEnding (params : Config.Params) (inLen : Word) (input : List Byte) (tree : CodeTree) : Ending :=
  if params.ibufSize < inLen then .stopped 1 .inputRange
  else if inLen = 0 then .stopped 1 .emptyInput
  else measuredEnding params (referenceMeasured tree inLen input) input

theorem inputBytes_ne_nil {s : State} (nonempty : s.inLen ≠ 0) : inputBytes s ≠ [] := by
  intro h
  have := congrArg List.length h
  rw [inputBytes_length] at this
  exact nonempty (BitVec.eq_of_toNat_eq this)

/-- An accepted ENCODE ends as its parameters and its input decide (40_commands.md R119, R122). -/
theorem endsAs_encode {s : State} {tree : CodeTree} (wf : Memory.wf s.obuf = true)
    (h : inputBytes s ≠ [] → InputTree (inputBytes s) tree) :
    EndsAs (s.prologue.startAt 1) (encodeEnding s.params s.inLen (inputBytes s) tree) := by
  have started := started_startAt wf 1
  unfold encodeEnding
  split_ifs with outside empty
  · exact started.endsAs_stopped (i := .eFreq) (w := s.work) rfl rfl (execEFreq_of_outside outside)
  · exact started.endsAs_stopped (i := .eFreq) (w := s.work) rfl rfl (execEFreq_of_empty (BitVec.not_lt.1 outside) empty)
  · have range : s.inLen ≤ s.params.ibufSize := BitVec.not_lt.1 outside
    have built := h (inputBytes_ne_nil empty)
    refine endsAs_of_codes started range rfl empty built ?_
    have ends := endsAs_of_eMeasure (started.setWork_setPhase (inputCodes tree s.work (inputBytes s)) 4) range rfl
    have same := artifact_congr (built.sameMeasured Work.zero s.work s.inLen) fun b => (built.valid_iff Work.zero b).2
    rw [measuredEnding, referenceMeasured, ← same]
    exact ends

end Sys2Proof.Machine
end

section
/-! PROOFS. The walk over the payload (42_decoder_stages.md R155, R156): with the codes of a `prefixFree` table it recovers the symbols whose
codes the data bits begin with. -/

namespace Sys2Proof.Machine

section Walk

variable {w : Work} (free : prefixFree w)
include free

/-- Among the valid symbols only one has a given code (42_decoder_stages.md R155). -/
theorem symbolOf_codeOf {s : Symbol} (valid : tableGet w.ctValid s = true) : symbolOf w (codeOf w s) = some s := by
  have single : (validSymbols w).filter (fun a => codeOf w a == codeOf w s) = [s] := by
    refine List.perm_singleton.1 ((List.perm_ext_iff_of_nodup ((symbolsIn_nodup _).filter _) (List.nodup_singleton s)).2 fun a => ?_)
    rw [List.mem_filter, mem_symbolsIn, beq_iff_eq, List.mem_singleton]
    exact ⟨fun ⟨validA, same⟩ => free.eq_of_codeOf_eq validA valid same, by rintro rfl; exact ⟨valid, rfl⟩⟩
  rw [symbolOf, single]

/-- What a code properly continues is no code. -/
theorem symbolOf_of_properPrefix {s : Symbol} (valid : tableGet w.ctValid s = true) {x : BitString}
    (proper : isProperPrefix x (codeOf w s) = true) : symbolOf w x = none := by
  obtain ⟨shorter, pre⟩ := (isProperPrefix_iff _ _).1 proper
  have noCode : (validSymbols w).filter (fun a => codeOf w a == x) = [] := by
    refine List.filter_eq_nil_iff.2 fun a validA same => ?_
    have same : codeOf w a = x := beq_iff_eq.1 same
    have ne : a ≠ s := by
      rintro rfl
      rw [same] at shorter
      exact absurd shorter (lt_irrefl _)
    exact free a s ne (mem_validSymbols.1 validA) valid (same ▸ pre)
  rw [symbolOf, noCode]

omit free in
theorem extends_of_properPrefix {s : Symbol} (valid : tableGet w.ctValid s = true) {x : BitString}
    (proper : isProperPrefix x (codeOf w s) = true) : extends_ w x = true :=
  List.any_eq_true.2 ⟨s, mem_validSymbols.2 valid, proper⟩

/-- The rest of a code is walked to its symbol. -/
theorem walk_code {s : Symbol} (valid : tableGet w.ctValid s = true) (tail : BitString) (need : Nat) {rest : BitString} :
    ∀ {acc : BitString}, codeOf w s = acc ++ rest → rest ≠ [] →
      walk w (rest ++ tail) acc (need + 1) = (walk w tail [] need).prepend s := by
  induction rest with
  | nil => exact fun _ nonempty => absurd rfl nonempty
  | cons b rest ih =>
    intro acc code _
    have split : codeOf w s = (acc ++ [b]) ++ rest := by rw [code, List.append_assoc, List.singleton_append]
    rw [List.cons_append, walk]
    by_cases last : rest = []
    · rw [last, List.append_nil] at split
      rw [← split, symbolOf_codeOf free valid, last]
      rfl
    · have proper : isProperPrefix (acc ++ [b]) (codeOf w s) = true := by
        rw [isProperPrefix_iff, split]
        have := List.length_pos_iff.2 last
        exact ⟨by simp only [List.length_append]; omega, List.prefix_append _ _⟩
      rw [symbolOf_of_properPrefix free valid proper, extends_of_properPrefix valid proper]
      exact ih split last

/-- The symbols of a sequence of codes are recovered, whatever follows (42_decoder_stages.md R158, R159). -/
theorem walk_codes {out : List Symbol} (valid : ∀ b ∈ out, tableGet w.ctValid b = true)
    (nonempty : ∀ b : Symbol, tableGet w.ctValid b = true → 1 ≤ (tableGet w.ct b).len.toNat) (tail : BitString) :
    walk w (out.flatMap (codeOf w) ++ tail) [] out.length = .recovered out := by
  induction out with
  | nil => rw [List.length_nil, walk]
  | cons b out ih =>
    obtain ⟨validB, valid⟩ := List.forall_mem_cons.1 valid
    have code : codeOf w b ≠ [] := List.ne_nil_of_length_pos (by rw [codeOf_length]; exact nonempty b validB)
    rw [List.flatMap_cons, List.append_assoc, List.length_cons, walk_code free validB _ _ (List.nil_append _).symm code, ih valid]
    rfl

end Walk

/-! ### D_WALK -/

theorem execDWalk_of_recovered {s : State} {out : List Symbol} (room : s.work.total ≤ s.params.obufSize)
    (recovered : walk s.work (dataBits s) [] s.work.total.toNat = .recovered out)
    (length : out.length = s.work.total.toNat) :
    execDWalk s = .next ((s.setObuf (memWriteRun s.obuf 0 out)).complete s.work.total.toNat) := by
  have fits : 0 + out.length ≤ s.params.obufSize.toNat := by
    rw [Nat.zero_add, length]
    exact room
  rw [execDWalk, if_neg (BitVec.not_lt.2 room), recovered]
  simp only [enginePut_inside fits, orFault_ok]

theorem endsAs_of_dWalk {u : State} (started : Started u) (phase : u.phase = 10) {out : List Symbol}
    (room : u.work.total ≤ u.params.obufSize)
    (recovered : walk u.work (dataBits u) [] u.work.total.toNat = .recovered out)
    (length : out.length = u.work.total.toNat) : EndsAs u (.completed out) := by
  refine endsAs_completed (i := .dWalk) (execDWalk_of_recovered room recovered length) started.busy (by rw [phase]; rfl)
    started.err started.errcode ?_
  refine resultBytes_of_written started.obuf rfl ?_
  rw [State.complete_outLen, fit_of_toNat, length]

/-- Within the input the data bits are those of the bytes after the header, without the pad bits. -/
theorem dataBits_eq {s : State} {header payload : List Byte} (range : s.inLen ≤ s.params.ibufSize)
    (input : inputBytes s = header ++ payload) (off : s.work.payloadOff.toNat = header.length) :
    dataBits s = (streamOf payload).take (8 * payload.length - s.work.pad.toNat) := by
  have length := inputBytes_length s
  have whole : (inputBytes s).take s.params.ibufSize.toNat = inputBytes s := List.take_of_length_le (by rw [length]; exact range)
  rw [input, List.length_append] at length
  rw [dataBits, availBits, whole, input, off, List.drop_left, ← length, Nat.add_sub_cancel_left]

/-! ### DECODE of an artifact -/

/-- The code table and the registers that an artifact of an input is made of. -/
structure Encodes (w : Work) (input : List Byte) : Prop where
  codesFit : CodesFit w
  free : prefixFree w
  valid : ∀ b ∈ input, tableGet w.ctValid b = true
  total : w.total.toNat = input.length
  nonempty : input ≠ []
  packed : (packStream w input).length = 8 * w.payloadLen.toNat

theorem streamOf_payloadBytes {w : Work} {input : List Byte} (packed : (packStream w input).length = 8 * w.payloadLen.toNat) :
    streamOf (payloadBytes w input) = packStream w input := by
  rw [payloadBytes, streamOf_packBytes _ _ packed.ge, ← packed, List.take_length]

theorem prefixFree_congr {w v : Work} (same : SameCodes w v) (free : prefixFree w) : prefixFree v := by
  intro a b ne validA validB
  rw [same.valid] at validA validB
  rw [codeOf_congr same validA, codeOf_congr same validB]
  exact free a b ne validA validB

theorem execDTable_of_prefixFree {s : State} (free : prefixFree s.work) : execDTable s = .next (s.setPhase 10) := by
  rw [execDTable, (prefixClash_eq_false_iff _).2 free]
  rfl

section DecodeArtifact

variable {w : Work} {input : List Byte} (h : Encodes w input)
include h

/-- The code bits are the data bits: the payload without its pad bits. -/
theorem take_streamOf_payloadBytes :
    (streamOf (payloadBytes w input)).take (8 * w.payloadLen.toNat - w.pad.toNat) = input.flatMap (codeOf w) := by
  have packed := h.packed
  rw [packStream_length, ← flatMap_codeOf_length] at packed
  rw [streamOf_payloadBytes h.packed, ← packed, Nat.add_sub_cancel, packStream, List.take_left]

/-- D_WALK on the artifact's payload, with the artifact's code table. -/
theorem endsAs_decode_walk {u : State} (started : Started u) (phase : u.phase = 10) (range : u.inLen ≤ u.params.ibufSize)
    (loaded : inputBytes u = artifact w input) (same : SameCodes w u.work) (total : u.work.total = w.total)
    (pad : u.work.pad = w.pad) (off : u.work.payloadOff.toNat = (headerBytes w).length) (room : w.total ≤ u.params.obufSize) :
    EndsAs u (.completed input) := by
  have bits : dataBits u = input.flatMap (codeOf u.work) ++ [] := by
    rw [dataBits_eq range loaded off, payloadBytes_length, pad, take_streamOf_payloadBytes h, List.append_nil,
      flatMap_codeOf_congr same h.valid]
  have length : input.length = u.work.total.toNat := by rw [total, h.total]
  have valid : ∀ b ∈ input, tableGet u.work.ctValid b = true := fun b mem => by rw [same.valid, h.valid b mem]
  have nonempty : ∀ b : Symbol, tableGet u.work.ctValid b = true → 1 ≤ (tableGet u.work.ct b).len.toNat := by
    intro b validB
    rw [same.valid] at validB
    rw [same.code b validB]
    exact (h.codesFit.codes b validB).1
  refine endsAs_of_dWalk started phase (by rwa [total]) ?_ length
  rw [bits, ← length]
  exact walk_codes (prefixFree_congr same h.free) valid nonempty []

/-- DECODE of an artifact gives the input back (40_commands.md R121). -/
theorem endsAs_decode_artifact {u : State} (started : Started u) (phase : u.phase = 8) (range : u.inLen ≤ u.params.ibufSize)
    (loaded : inputBytes u = artifact w input) (room : w.total ≤ u.params.obufSize) : EndsAs u (.completed input) := by
  have header := headerBytes_eq_toBytes h.codesFit.counted
  have positive : 1 ≤ w.total.toNat := h.total ▸ List.length_pos_iff.2 h.nonempty
  have split : inputBytes u = (headerOf w).toBytes ++ payloadBytes w input := header ▸ loaded
  have read := execDHeader_toBytes range (headerOf_wellFormed h.codesFit positive) split
  have same := sameCodes_parsed w u.work
  have total := headerOf_parsed_total w u.work
  have pad := headerOf_parsed_pad w u.work
  have off := Header.parsed_payloadOff u.work (length_lt_of_inputBytes split)
  rw [← header] at off
  generalize (headerOf w).parsed u.work = v at read same total pad off
  have table : execDTable ((u.setWork v).setPhase 9) = .next ((u.setWork v).setPhase 10) :=
    execDTable_of_prefixFree (prefixFree_congr same h.free)
  refine .stage (i := .dHeader) read started.busy (by rw [phase]; rfl) ?_
  refine .stage (i := .dTable) table (started.setWork_setPhase v 9).busy rfl ?_
  exact endsAs_decode_walk h (started.setWork_setPhase v 10) rfl range loaded same total pad off room

end DecodeArtifact

/-! ### DECODE of an ENCODE -/

/-- What E_MEASURE leaves for an input is what its artifact is made of. -/
theorem InputTree.encodes {input : List Byte} {tree : CodeTree} (h : InputTree input tree) (w : Work) {inLen : Word}
    (length : input.length = inLen.toNat) (nonempty : input ≠ []) : Encodes (inputMeasured tree w inLen input) input where
  codesFit := ⟨(h.codesFit w).counted, (h.codesFit w).nonempty, (h.codesFit w).codes⟩
  free := h.prefixFree w
  valid b := (h.valid_iff w b).2
  total := length.symm
  nonempty := nonempty
  packed := packStream_measure_length _ length

/-- A completed ENCODE has an artifact as its result. -/
theorem exists_encodes_of_completed {s : State} {tree : CodeTree} (h : inputBytes s ≠ [] → InputTree (inputBytes s) tree)
    {result : List Byte} (ending : encodeEnding s.params s.inLen (inputBytes s) tree = .completed result) :
    ∃ w, Encodes w (inputBytes s) ∧ w.total = s.inLen ∧ result = artifact w (inputBytes s) := by
  unfold encodeEnding measuredEnding at ending
  split_ifs at ending with outside empty overflow
  have nonempty := inputBytes_ne_nil empty
  refine ⟨_, (h nonempty).encodes Work.zero (inputBytes_length s) nonempty, rfl, ?_⟩
  injection ending with same
  exact same.symm

theorem Starts.commandEnds_shows {s : State} {word : Word} {p : BitVec 4} {ending : Ending} {events : List Event}
    (starts : Starts s word p) (ends : EndsAs (s.prologue.startAt p) ending) (interleaved : Interleaving events) :
    ∃ t, CommandEnds s word events t ∧ Shows t ending := by
  obtain ⟨t, ends, shows⟩ := ends
  obtain ⟨ie, replies, schedule, command⟩ := starts.commandEnds ends interleaved
  exact ⟨_, command, shows.withHost ie replies schedule⟩

/-- Of the endings only a completion sets DONE. -/
theorem Shows.completed_of_done {t : State} {ending : Ending} (h : Shows t ending) (done : t.done = true) :
    ending = .completed (resultBytes t) := by
  cases ending with
  | completed result =>
    obtain ⟨-, -, -, -, -, result⟩ := h
    rw [result]
  | stopped phase e =>
    obtain ⟨-, notDone, -⟩ := h
    rw [done] at notDone
    cases notDone

/-- Settles O58: ENCODE's end is an artifact of its input, from which D_HEADER reads the code table and D_WALK the input. -/
theorem decodeOfEncodeIsTheInput : Obligations.DecodeOfEncodeIsTheInput := by
  intro s t u events events' inv idle interleaved encoded done inv' idle' range loaded room interleaved'
  obtain ⟨tree, built⟩ := exists_inputTree (inputBytes s)
  obtain ⟨t', encoded', shows⟩ := (starts_encode idle).commandEnds_shows (endsAs_encode inv.obuf.1 built) interleaved
  obtain rfl := encoded.unique encoded'
  obtain ⟨w, encodes, total, result⟩ := exists_encodes_of_completed built (shows.completed_of_done done)
  have decodes := endsAs_decode_artifact encodes (started_startAt inv'.obuf.1 8) rfl range (loaded.trans result)
    (by rwa [total])
  obtain ⟨v, decoded, -, doneV, -, -, -, resultV⟩ := (starts_decode idle').commandEnds_shows decodes interleaved'
  exact ⟨v, decoded, doneV, resultV⟩

end Sys2Proof.Machine
end

section
/-! PROOFS. The decoder's stages read nothing that was in the working state before D_HEADER (70_reset_and_hazards.md R198): how
DECODE ends is decided by the parameters and the input (40_commands.md R122). -/

namespace Sys2Proof.Machine

/-! ### D_HEADER's readers -/

theorem SameCodes.symm {w v : Work} (same : SameCodes w v) : SameCodes v w where
  valid := same.valid.symm
  code b valid := (same.code b (same.valid ▸ valid)).symm

/-- All that reading an entry can do: the bytes decide it, but for an entry whose symbol has a code already. -/
theorem readEntry_cases (bs : List Byte) : (∀ w, readEntry w bs = (w, none)) ∨
    ∃ s len value rest, ∀ w, readEntry w bs =
      if tableGet w.ctValid s then (w, none) else (putEntry w s len value, some rest) := by
  unfold readEntry
  split
  · next s len rest =>
    split_ifs with zero
    · exact .inl fun _ => rfl
    · split
      · exact .inl fun _ => rfl
      · next value rest' _ =>
        split_ifs with wide
        · exact .inl fun _ => rfl
        · exact .inr ⟨s, len, value, rest', fun _ => rfl⟩
  · exact .inl fun _ => rfl

theorem sameCodes_putEntry {w v : Work} (same : SameCodes w v) (s : Symbol) (len : Byte) (value : Nat) :
    SameCodes (putEntry w s len value) (putEntry v s len value) where
  valid := congrArg (tablePut · s true) same.valid
  code b valid := by
    simp only [putEntry, tableGet_tablePut] at valid ⊢
    split_ifs at valid ⊢
    · rfl
    · exact same.code b valid

/-- Readers of the same bytes into the same code table give the same code table, and go on or stop alike. -/
inductive ReadAlike : Work × Option (List Byte) → Work × Option (List Byte) → Prop
  | intro {w v : Work} (same : SameCodes w v) (rest : Option (List Byte)) : ReadAlike (w, rest) (v, rest)

theorem readAlike_readEntry {w v : Work} (same : SameCodes w v) (bs : List Byte) : ReadAlike (readEntry w bs) (readEntry v bs) := by
  obtain fails | ⟨s, len, value, rest, reads⟩ := readEntry_cases bs
  · rw [fails, fails]
    exact .intro same none
  · rw [reads, reads, same.valid]
    split_ifs
    · exact .intro same none
    · exact .intro (sameCodes_putEntry same s len value) (some rest)

theorem readAlike_readEntries (n : Nat) : ∀ {w v : Work}, SameCodes w v → ∀ bs : List Byte,
    ReadAlike (readEntries n w bs) (readEntries n v bs) := by
  induction n with
  | zero => exact fun same bs => .intro same (some bs)
  | succ n ih =>
    intro w v same bs
    have alike := readAlike_readEntry same bs
    rw [readEntries, readEntries]
    generalize readEntry w bs = r at alike ⊢
    generalize readEntry v bs = r' at alike ⊢
    obtain ⟨same, _ | rest⟩ := alike
    · exact .intro same none
    · exact ih same rest

/-- What D_TABLE and D_WALK read of the working state. -/
structure SameParsed (w v : Work) : Prop extends SameCodes w v where
  total : v.total = w.total
  pad : v.pad = w.pad
  payloadOff : v.payloadOff = w.payloadOff

/-- All that reading the header's end can do is decided by the bytes. -/
theorem readTrailer_cases (inLen : Nat) (bs : List Byte) : (∀ w, (readTrailer inLen w bs).2 = none) ∨
    ∃ total pad off rest, ∀ w, readTrailer inLen w bs = ({ w with total := total, pad := pad, payloadOff := off }, some rest) := by
  unfold readTrailer
  split
  · exact .inl fun _ => rfl
  · split_ifs
    · exact .inl fun _ => rfl
    · split
      · exact .inl fun _ => rfl
      · split_ifs
        · exact .inl fun _ => rfl
        · exact .inr ⟨_, _, _, _, fun _ => rfl⟩

theorem sameCodes_clearCodes (w v : Work) (nsym : BitVec 9) :
    SameCodes { clearCodes w with nsym := nsym } { clearCodes v with nsym := nsym } where
  valid := rfl
  code b valid := by
    rw [show tableGet ({ clearCodes w with nsym := nsym } : Work).ctValid b = false from tableGet_replicate false b] at valid
    cases valid

/-- Two readings of one header both fail, or both succeed with all that the later stages read. -/
theorem readHeader_alike (inLen : Nat) (w v : Work) (bs : List Byte) :
    ((readHeader inLen w bs).2 = none ∧ (readHeader inLen v bs).2 = none) ∨
    ∃ w' v' rest, readHeader inLen w bs = (w', some rest) ∧ readHeader inLen v bs = (v', some rest) ∧ SameParsed w' v' := by
  unfold readHeader
  split
  · exact .inl ⟨rfl, rfl⟩
  split
  · exact .inl ⟨rfl, rfl⟩
  · next n bytes _ =>
    split_ifs
    · exact .inl ⟨rfl, rfl⟩
    have alike := readAlike_readEntries n (sameCodes_clearCodes w v (fit 9 n)) bytes
    generalize readEntries n { clearCodes w with nsym := fit 9 n } bytes = r at alike ⊢
    generalize readEntries n { clearCodes v with nsym := fit 9 n } bytes = r' at alike ⊢
    obtain ⟨same, _ | rest⟩ := alike
    · exact .inl ⟨rfl, rfl⟩
    · obtain fails | ⟨total, pad, off, payload, reads⟩ := readTrailer_cases inLen rest
      · exact .inl ⟨fails _, fails _⟩
      · exact .inr ⟨_, _, payload, reads _, reads _, ⟨same.valid, same.code⟩, rfl, rfl, rfl⟩

/-! ### The walk -/

section Congr

variable {w v : Work} (same : SameCodes w v)
include same

theorem symbolOf_congr (x : BitString) : symbolOf v x = symbolOf w x := by
  have codes : (validSymbols w).filter (fun s => codeOf v s == x) = (validSymbols w).filter fun s => codeOf w s == x :=
    List.filter_congr fun s valid => by rw [codeOf_congr same (mem_validSymbols.1 valid)]
  rw [symbolOf, symbolOf, validSymbols_congr same, codes]

theorem extends_congr (x : BitString) : extends_ v x = extends_ w x := by
  rw [extends_, extends_, validSymbols_congr same, Bool.eq_iff_iff, List.any_eq_true, List.any_eq_true]
  exact exists_congr fun s => and_congr_right fun valid => by rw [codeOf_congr same (mem_validSymbols.1 valid)]

theorem walk_congr (bits : BitString) : ∀ (acc : BitString) (need : Nat), walk v bits acc need = walk w bits acc need := by
  induction bits with
  | nil => intro acc need; cases need <;> rfl
  | cons b bits ih =>
    intro acc need
    cases need with
    | zero => rfl
    | succ need =>
      rw [walk, walk, symbolOf_congr same, extends_congr same]
      simp only [ih]

theorem prefixClash_congr : prefixClash v = prefixClash w := by
  rw [Bool.eq_iff_iff, ← not_iff_not, Bool.not_eq_true, Bool.not_eq_true, prefixClash_eq_false_iff, prefixClash_eq_false_iff]
  exact ⟨prefixFree_congr same.symm, prefixFree_congr same⟩

end Congr

theorem walk_recovered_length {w : Work} (bits : BitString) : ∀ {acc : BitString} {need : Nat} {out : List Symbol},
    walk w bits acc need = .recovered out → out.length = need := by
  induction bits with
  | nil =>
    intro acc need out h
    cases need <;> cases h
    rfl
  | cons b bits ih =>
    intro acc need out h
    cases need with
    | zero => cases h; rfl
    | succ need =>
      rw [walk] at h
      split at h
      · cases rest : walk w bits [] need with
        | recovered tail =>
          rw [rest] at h
          cases h
          exact congrArg (· + 1) (ih rest)
        | truncated => rw [rest] at h; cases h
        | invalid => rw [rest] at h; cases h
      · split_ifs at h
        exact ih h

/-! ### The data bits -/

/-- Within the input no data bit is missing (20_memory.md R65). -/
theorem dataBits_length {s : State} (range : s.inLen ≤ s.params.ibufSize) : (dataBits s).length = availBits s := by
  have whole : (inputBytes s).take s.params.ibufSize.toNat = inputBytes s :=
    List.take_of_length_le (by rw [inputBytes_length]; exact range)
  rw [dataBits, whole, List.length_take, streamOf_length, List.length_drop, inputBytes_length, availBits]
  omega

/-- Two states give a command the same parameters and the same input. -/
structure SameInput (s s' : State) : Prop where
  params : s'.params = s.params
  inLen : s'.inLen = s.inLen
  input : inputBytes s' = inputBytes s

theorem SameInput.range {s s' : State} (input : SameInput s s') (range : s.inLen ≤ s.params.ibufSize) :
    s'.inLen ≤ s'.params.ibufSize := by
  rwa [input.params, input.inLen]

theorem dataBits_congr {s s' : State} (input : SameInput s s') (work : SameParsed s.work s'.work) : dataBits s' = dataBits s := by
  simp only [dataBits, availBits, input.params, input.inLen, input.input, work.pad, work.payloadOff]

/-! ### How the stages of DECODE end it -/

/-- How D_WALK ends DECODE. -/
def walkEnding (params : Config.Params) (total : Word) (result : WalkResult) : Ending :=
  if params.obufSize < total then .stopped 10 .outputOverflow
  else match result with
    | .recovered out => .completed out
    | .truncated => .stopped 10 .truncatedStream
    | .invalid => .stopped 10 .invalidCode

section Stages

variable {u : State} (started : Started u)
include started

theorem endsAs_walkEnding (phase : u.phase = 10) (range : u.inLen ≤ u.params.ibufSize) :
    EndsAs u (walkEnding u.params u.work.total (walk u.work (dataBits u) [] u.work.total.toNat)) := by
  unfold walkEnding
  split_ifs with overflow
  · exact started.endsAs_stopped (i := .dWalk) (w := u.work) phase rfl (if_pos overflow)
  · cases walked : walk u.work (dataBits u) [] u.work.total.toNat with
    | recovered out => exact endsAs_of_dWalk started phase (BitVec.not_lt.1 overflow) walked (walk_recovered_length _ walked)
    | truncated =>
      refine started.endsAs_stopped (i := .dWalk) (w := u.work) phase rfl ?_
      rw [exec, execDWalk, if_neg overflow, walked]
      exact if_neg (by rw [dataBits_length range]; exact lt_irrefl _)
    | invalid =>
      refine started.endsAs_stopped (i := .dWalk) (w := u.work) phase rfl ?_
      rw [exec, execDWalk, if_neg overflow, walked]
      rfl

theorem endsAs_of_dTable (phase : u.phase = 9) {ending : Ending} (free : prefixClash u.work = false)
    (rest : EndsAs (u.setPhase 10) ending) : EndsAs u ending := by
  refine .stage (i := .dTable) ?_ started.busy (by rw [phase]; rfl) rest
  exact execDTable_of_prefixFree ((prefixClash_eq_false_iff _).1 free)

theorem endsAs_of_clash (phase : u.phase = 9) (clash : prefixClash u.work = true) : EndsAs u (.stopped 9 .corruptHeader) :=
  started.endsAs_stopped (i := .dTable) (w := u.work) phase rfl (if_pos clash)

theorem endsAs_of_badHeader (phase : u.phase = 8) (range : u.inLen ≤ u.params.ibufSize)
    (bad : (readHeader u.inLen.toNat u.work (inputBytes u)).2 = none) : EndsAs u (.stopped 8 .corruptHeader) := by
  refine started.endsAs_stopped (i := .dHeader) (w := (readHeader u.inLen.toNat u.work (inputBytes u)).1) phase rfl ?_
  rw [exec, execDHeader, if_neg (BitVec.not_lt.2 range)]
  generalize readHeader u.inLen.toNat u.work (inputBytes u) = r at bad ⊢
  obtain ⟨w, rest⟩ := r
  subst bad
  rfl

end Stages

/-! ### Two commands on one input -/

/-- Both commands end, and alike. -/
def EndAlike (u u' : State) : Prop := ∃ ending, EndsAs u ending ∧ EndsAs u' ending

section Alike

variable {u u' : State} (started : Started u) (started' : Started u') (input : SameInput u u')
  (range : u.inLen ≤ u.params.ibufSize)
include started started' input range

theorem endAlike_of_dWalk (phase : u.phase = 10) (phase' : u'.phase = 10) (work : SameParsed u.work u'.work) :
    EndAlike u u' := by
  have ends := endsAs_walkEnding started' phase' (input.range range)
  rw [input.params, work.total, dataBits_congr input work, walk_congr work.toSameCodes] at ends
  exact ⟨_, endsAs_walkEnding started phase range, ends⟩

theorem endAlike_of_dTable (phase : u.phase = 9) (phase' : u'.phase = 9) (work : SameParsed u.work u'.work) :
    EndAlike u u' := by
  have same := prefixClash_congr work.toSameCodes
  cases clash : prefixClash u.work with
  | true => exact ⟨_, endsAs_of_clash started phase clash, endsAs_of_clash started' phase' (same.trans clash)⟩
  | false =>
    have walks : EndAlike (u.setPhase 10) (u'.setPhase 10) :=
      endAlike_of_dWalk (started.setWork_setPhase u.work 10) (started'.setWork_setPhase u'.work 10)
        ⟨input.params, input.inLen, input.input⟩ range rfl rfl work
    obtain ⟨ending, ends, ends'⟩ := walks
    exact ⟨ending, endsAs_of_dTable started phase clash ends, endsAs_of_dTable started' phase' (same.trans clash) ends'⟩

end Alike

/-- Two DECODE commands on one input end alike, whatever the working states and OBUF held. -/
theorem endAlike_decode {s s' : State} (input : SameInput s s') (wf : Memory.wf s.obuf = true) (wf' : Memory.wf s'.obuf = true) :
    EndAlike (s.prologue.startAt 8) (s'.prologue.startAt 8) := by
  have started := started_startAt wf 8
  have started' := started_startAt wf' 8
  by_cases outside : s.params.ibufSize < s.inLen
  · have outside' : s'.params.ibufSize < s'.inLen := by rwa [input.params, input.inLen]
    exact ⟨.stopped 8 .inputRange, started.endsAs_stopped (i := .dHeader) (w := s.work) rfl rfl (if_pos outside),
      started'.endsAs_stopped (i := .dHeader) (w := s'.work) rfl rfl (if_pos outside')⟩
  have range := BitVec.not_lt.1 outside
  have range' := input.range range
  obtain ⟨fails, fails'⟩ | ⟨w, v, rest, read, read', parsed⟩ :=
    readHeader_alike s.inLen.toNat s.work s'.work (inputBytes s)
  · rw [← input.inLen, ← input.input] at fails'
    exact ⟨_, endsAs_of_badHeader started rfl range fails, endsAs_of_badHeader started' rfl range' fails'⟩
  · rw [← input.inLen, ← input.input] at read'
    have tables := endAlike_of_dTable (started.setWork_setPhase w 9) (started'.setWork_setPhase v 9)
      ⟨input.params, input.inLen, input.input⟩ range rfl rfl parsed
    obtain ⟨ending, ends, ends'⟩ := tables
    exact ⟨ending,
      .stage (i := .dHeader) (execDHeader_of_read (s := s.prologue.startAt 8) range read) started.busy rfl ends,
      .stage (i := .dHeader) (execDHeader_of_read (s := s'.prologue.startAt 8) range' read') started'.busy rfl ends'⟩

/-- Two ENCODE commands on one input end alike: the input's tree decides it. -/
theorem endAlike_encode {s s' : State} (input : SameInput s s') (wf : Memory.wf s.obuf = true) (wf' : Memory.wf s'.obuf = true) :
    EndAlike (s.prologue.startAt 1) (s'.prologue.startAt 1) := by
  obtain ⟨tree, built⟩ := exists_inputTree (inputBytes s)
  have ends' := endsAs_encode wf' (tree := tree) (by rwa [input.input])
  rw [input.params, input.inLen, input.input] at ends'
  exact ⟨_, endsAs_encode wf built, ends'⟩

theorem resultBytes_length (t : State) : (resultBytes t).length = t.outLen.toNat := by simp [resultBytes]

theorem resultBytes_of_outLen {t : State} (empty : t.outLen = 0) : resultBytes t = [] := by simp [resultBytes, empty]

/-- What a HOST reads after the end is the ending's. -/
theorem Shows.same {t t' : State} {ending : Ending} (h : Shows t ending) (h' : Shows t' ending) :
    statusWord t = statusWord t' ∧ t.errcode = t'.errcode ∧ t.outLen = t'.outLen ∧ resultBytes t = resultBytes t' := by
  cases ending with
  | completed result =>
    obtain ⟨busy, done, err, phase, errcode, bytes⟩ := h
    obtain ⟨busy', done', err', phase', errcode', bytes'⟩ := h'
    refine ⟨by simp only [statusWord, busy, done, err, phase, busy', done', err', phase'], errcode.trans errcode'.symm, ?_,
      bytes.trans bytes'.symm⟩
    exact BitVec.eq_of_toNat_eq (by rw [← resultBytes_length, ← resultBytes_length, bytes, bytes'])
  | stopped p e =>
    obtain ⟨busy, done, err, phase, errcode, outLen⟩ := h
    obtain ⟨busy', done', err', phase', errcode', outLen'⟩ := h'
    exact ⟨by simp only [statusWord, busy, done, err, phase, busy', done', err', phase'], errcode.trans errcode'.symm,
      outLen.trans outLen'.symm, by rw [resultBytes_of_outLen outLen, resultBytes_of_outLen outLen']⟩

/-- Settles O60: both commands end alike for the ENGINE's turns alone, and so under every interleaving. -/
theorem resultDependsOnTheInputAlone : Obligations.ResultDependsOnTheInputAlone := by
  intro s s' cmd events events' which inv inv' idle idle' params inLen bytes interleaved interleaved'
  have input : SameInput s s' :=
    ⟨params.symm, inLen.symm, by
      rw [inputBytes, inputBytes, ← inLen]
      exact List.map_congr_left fun i mem => (bytes i (List.mem_range.1 mem)).symm⟩
  have alike : ∃ p, Starts s cmd p ∧ Starts s' cmd p ∧ EndAlike (s.prologue.startAt p) (s'.prologue.startAt p) := by
    obtain rfl | rfl := which
    · exact ⟨1, starts_encode idle, starts_encode idle', endAlike_encode input inv.obuf.1 inv'.obuf.1⟩
    · exact ⟨8, starts_decode idle, starts_decode idle', endAlike_decode input inv.obuf.1 inv'.obuf.1⟩
  obtain ⟨p, starts, starts', ending, ends, ends'⟩ := alike
  obtain ⟨t, command, shows⟩ := starts.commandEnds_shows ends interleaved
  obtain ⟨t', command', shows'⟩ := starts'.commandEnds_shows ends' interleaved'
  exact ⟨t, t', command, command', shows.same shows'⟩

end Sys2Proof.Machine
end

section
/-! PROOFS. E_FREQ (41_encoder_stages.md R130, R131): PRESENT, COUNT and NSYM as counts of addresses of IBUF, and sums over the
input as sums over its symbols. -/

namespace Sys2Proof.Machine

/-! ### The input and its symbols -/

theorem mem_inputBytes {s : State} {b : Symbol} : b ∈ inputBytes s ↔ ∃ i < s.inLen.toNat, memRead s.ibuf i = b := by
  simp [inputBytes]

theorem inputBytes_count (s : State) (b : Symbol) :
    (inputBytes s).count b = ((List.range s.inLen.toNat).filter fun i => decide (memRead s.ibuf i = b)).length := by
  rw [inputBytes, List.count_eq_countP, List.countP_map, List.countP_eq_length_filter]
  rfl

/-- The symbols a table marks are counted by their numbers. -/
theorem symbolsIn_length (t : Vector Bool 256) :
    (symbolsIn t).length = ((List.range 256).filter fun k => tableGet t (BitVec.ofNat 8 k)).length := by
  rw [symbolsIn_eq_filter, symbols, List.filter_map, List.length_map]
  rfl

/-- A sum over the input is the sum over any list of distinct symbols that has all of the input's, each counted as often as
it occurs. -/
theorem sum_map_eq_sum_count_mul {input l : List Symbol} (distinct : l.Nodup) (all : ∀ b ∈ input, b ∈ l) (f : Symbol → Nat) :
    (input.map f).sum = (l.map fun b => input.count b * f b).sum := by
  rw [Finset.sum_list_map_count, ← List.sum_toFinset _ distinct]
  refine Finset.sum_subset (fun b mem => by simpa using all b (by simpa using mem)) fun b _ absent => ?_
  rw [List.count_eq_zero_of_not_mem (by simpa using absent), zero_smul]

theorem sum_count_symbols (input : List Symbol) : (symbols.map input.count).sum = input.length := by
  simpa using (sum_map_eq_sum_count_mul symbols_nodup (fun b (_ : b ∈ input) => mem_symbols b) fun _ => 1).symm

/-! ### The table E_FREQ leaves -/

theorem length_inputBytes_lt (s : State) : (inputBytes s).length < 2 ^ 32 := by
  rw [inputBytes_length]
  exact s.inLen.isLt

/-- After an E_FREQ that raises nothing the input was in range and not empty, and its frequency table is written. -/
theorem frequencies_of_execEFreq {s t : State} (h : execEFreq s = .next t) (noError : t.err = false) :
    s.inLen ≠ 0 ∧ t = (s.setWork (frequencies s.work (inputBytes s))).setPhase 2 := by
  obtain ⟨-, rfl⟩ | ⟨-, -, rfl⟩ | ⟨-, nonempty, written⟩ := execEFreq_next h
  · exact absurd rfl (ne_raise_of_err noError _)
  · exact absurd rfl (ne_raise_of_err noError _)
  · exact ⟨nonempty, written⟩

/-- Settles O25: the errors are the two tests, and the table counts the input's bytes. -/
theorem eFreqCountsTheInput : Obligations.EFreqCountsTheInput := by
  intro s
  refine ⟨execEFreq_of_outside, execEFreq_of_empty, fun range nonempty => ?_⟩
  let w := frequencies s.work (inputBytes s)
  have written : execEFreq s =
      .next ((s.setWork { s.work with present := w.present, count := w.count, nsym := w.nsym }).setPhase 2) := by
    rw [execEFreq_of_range range nonempty, ← frequencies_eq]
  refine ⟨w.present, w.count, w.nsym, written, fun b => ?_, fun b => ?_, ?_⟩
  · rw [frequencies_present, mem_inputBytes]
  · rw [frequencies_count _ _ _ (length_inputBytes_lt s), inputBytes_count]
  · exact (frequencies_nsym _ _).trans (symbolsIn_length _)

/-- NSYM is at most the input's length: the symbols present are distinct members of the input. -/
theorem frequencies_nsym_le (w : Work) (input : List Byte) : (frequencies w input).nsym.toNat ≤ min 256 input.length := by
  rw [frequencies_nsym]
  refine le_min (symbolsIn_length_le _) ((List.subperm_of_subset (symbolsIn_nodup _) fun b mem => ?_).length_le)
  exact (frequencies_present _ _ _).1 (mem_presentSymbols.1 mem)

/-- Settles O26, from the counts of the input's bytes. -/
theorem frequencyTableAccountsForTheInput : Obligations.FrequencyTableAccountsForTheInput := by
  intro s t _ executed noError
  obtain ⟨nonempty, rfl⟩ := frequencies_of_execEFreq executed noError
  have count := fun b => frequencies_count (inputBytes s) s.work b (length_inputBytes_lt s)
  simp only [State.setPhase_work, State.setWork_work]
  refine ⟨fun b => ⟨?_, fun present => ?_⟩, ?_, ?_, ?_⟩
  · rw [frequencies_present, mem_inputBytes]
  · rw [count]
    exact ⟨List.count_pos_iff.2 ((frequencies_present _ _ _).1 present), inputBytes_count s b⟩
  · have total := sum_count_symbols (inputBytes s)
    rw [inputBytes_length, symbols, List.map_map] at total
    simp only [count]
    exact total
  · exact one_le_frequencies_nsym _ (inputBytes_ne_nil nonempty)
  · simpa using frequencies_nsym_le s.work (inputBytes s)

end Sys2Proof.Machine
end

section
/-! PROOFS. The queue's order (41_encoder_stages.md R133), the check of zero counts (R135) and the synthetic root of one symbol
(R134). -/

namespace Sys2Proof.Machine

/-! ### The order ≺ -/

theorem precedes_iff {t : Vector Node 511} {x y : Nat} :
    precedes t x y = true ↔ weightAt t x < weightAt t y ∨ weightAt t x = weightAt t y ∧ x < y := by
  simp [precedes]

theorem weightAt_of_entry {t : Vector Node 511} {i : Nat} {x : Node} (entry : nodeGet t i = some x) :
    weightAt t i = x.weight.toNat := by
  simp [weightAt, entry]

/-- The first `n` of `m` entries are leaves by ascending symbol, the others internal nodes (41_encoder_stages.md R132). -/
structure CreationOrder (t : Vector Node 511) (n m : Nat) : Prop where
  leaf : ∀ i, i < n → ∃ w a, nodeGet t i = some (.leaf w a)
  ascending : ∀ i j wi wj a b, i < j → j < n → nodeGet t i = some (.leaf wi a) → nodeGet t j = some (.leaf wj b) →
    a.toNat < b.toNat
  internal : ∀ i, n ≤ i → i < m → ∃ w lo hi, nodeGet t i = some (.internal w lo hi)

namespace CreationOrder

variable {t : Vector Node 511} {n m : Nat} (order : CreationOrder t n m) {i j : Nat}
include order

theorem lt_of_leaf {w : BitVec 32} {a : Symbol} (lt : i < m) (entry : nodeGet t i = some (.leaf w a)) : i < n := by
  by_contra h
  obtain ⟨_, _, _, entry'⟩ := order.internal i (Nat.not_lt.1 h) lt
  cases entry.symm.trans entry'

theorem le_of_internal {w : BitVec 32} {lo hi : BitVec 9} (entry : nodeGet t i = some (.internal w lo hi)) : n ≤ i := by
  by_contra h
  obtain ⟨_, _, entry'⟩ := order.leaf i (Nat.not_le.1 h)
  cases entry.symm.trans entry'

/-- Leaves are ordered as their symbols are. -/
theorem lt_iff_of_leaves {wi wj : BitVec 32} {a b : Symbol} (ltI : i < n) (ltJ : j < n) (ne : i ≠ j)
    (entryI : nodeGet t i = some (.leaf wi a)) (entryJ : nodeGet t j = some (.leaf wj b)) : i < j ↔ a.toNat < b.toNat := by
  obtain lt | gt := Nat.lt_or_gt_of_ne ne
  · exact iff_of_true lt (order.ascending i j _ _ _ _ lt ltJ entryI entryJ)
  · have := order.ascending j i _ _ _ _ gt ltI entryJ entryI
    omega

/-- Smaller (weight, index) first is the tie-break of the four cases. -/
theorem precedes_iff_tieBreak {x y : Node} (ltI : i < m) (ltJ : j < m) (ne : i ≠ j) (entryI : nodeGet t i = some x)
    (entryJ : nodeGet t j = some y) : precedes t i j = true ↔ tieBreak i x j y := by
  rw [precedes_iff, weightAt_of_entry entryI, weightAt_of_entry entryJ]
  cases x with
  | leaf wx a =>
    have leafI := order.lt_of_leaf ltI entryI
    cases y with
    | leaf wy b =>
      rw [order.lt_iff_of_leaves leafI (order.lt_of_leaf ltJ entryJ) ne entryI entryJ]
      simp [tieBreak, Node.weight, BitVec.toNat_inj]
    | internal wy lo hi =>
      have before : i < j := leafI.trans_le (order.le_of_internal entryJ)
      simp [tieBreak, Node.weight, BitVec.toNat_inj, before]
  | internal wx lo hi =>
    cases y with
    | leaf wy b =>
      have after : ¬ i < j := Nat.not_lt.2 ((order.lt_of_leaf ltJ entryJ).le.trans (order.le_of_internal entryI))
      simp [tieBreak, Node.weight, after]
    | internal wy lo' hi' => simp [tieBreak, Node.weight, BitVec.toNat_inj]

end CreationOrder

/-- Settles O27: each entry's kind says on which side of `n` its index stands, and pairs of numbers are ordered totally. -/
theorem queueOrderIsTheTieBreakOrder : Obligations.QueueOrderIsTheTieBreakOrder := by
  intro t n m _ _ leaf ascending internal
  have order : CreationOrder t n m := ⟨leaf, ascending, internal⟩
  refine ⟨fun i j x y ltI ltJ ne => order.precedes_iff_tieBreak ltI ltJ ne, fun i j _ _ ne => ?_, fun i j k => ?_, fun i => ?_⟩
  · simp only [precedes_iff]
    omega
  · simp only [precedes_iff]
    omega
  · rw [Bool.eq_false_iff, Ne, precedes_iff]
    omega

/-! ### E_BUILD's check -/

theorem zeroWeight_eq_true_iff {w : Work} :
    zeroWeight w = true ↔ ∃ b, tableGet w.present b = true ∧ tableGet w.count b = 0 := by
  simp [zeroWeight, mem_presentSymbols]

theorem execEBuild_of_zero {s : State} (zero : zeroWeight s.work = true) :
    execEBuild s = .next (s.raise .invalidFrequency) :=
  if_pos zero

theorem execEBuild_of_counts {s : State} (counts : zeroWeight s.work = false) (few : s.work.nsym.toNat ≤ 256) :
    execEBuild s = .next ((s.setWork (buildTree s.work)).setPhase 3) := by
  rw [execEBuild, if_neg (by rw [counts]; decide), if_neg (show ¬ Config.nsymMax < s.work.nsym.toNat from Nat.not_lt.2 few)]

/-- Settles O28: the check finds the symbol, and E_FREQ's table has none for it to find. -/
theorem zeroCountIsRaisedAndUnreachable : Obligations.ZeroCountIsRaisedAndUnreachable := by
  refine ⟨fun s b present zero => execEBuild_of_zero (zeroWeight_eq_true_iff.2 ⟨b, present, zero⟩), ?_⟩
  intro s t u _ executed noError built
  obtain ⟨-, rfl⟩ := frequencies_of_execEFreq executed noError
  obtain ⟨zero, -⟩ | ⟨-, -, rfl⟩ := execEBuild_next built
  · exact absurd (zero.symm.trans (zeroWeight_frequencies (inputBytes s) s.work (length_inputBytes_lt s))) (by decide)
  · exact noError

end Sys2Proof.Machine
end

section
/-! PROOFS. E_CODES (41_encoder_stages.md R136): MAXLEN is the tree's height, and the code of a single symbol (R134). -/

namespace Sys2Proof.Machine

/-! ### MAXLEN -/

theorem putCodes_append (w : Work) (xs ys : List (Symbol × BitString)) :
    putCodes w (xs ++ ys) = putCodes (putCodes w xs) ys :=
  List.foldl_append

/-- The longest of a subtree's paths is as long as the path to its root and its height together. -/
theorem putCodes_paths_maxlen {tree : CodeTree} : ∀ {path : BitString} (w : Work), path.length + tree.height ≤ 255 →
    (putCodes w (tree.paths path)).maxlen.toNat = max w.maxlen.toNat (path.length + tree.height) := by
  induction tree with
  | leaf s =>
    intro path w bound
    have := w.maxlen.isLt
    rw [CodeTree.height, Nat.add_zero] at bound ⊢
    exact fit_toNat (show max w.maxlen.toNat path.length < 2 ^ 8 by omega)
  | one low ih =>
    intro path w bound
    rw [CodeTree.height] at bound ⊢
    rw [CodeTree.paths, ih w (by simp; omega)]
    simp only [List.length_append, List.length_singleton]
    omega
  | two low high ihLow ihHigh =>
    intro path w bound
    rw [CodeTree.height] at bound ⊢
    rw [CodeTree.paths, putCodes_append, ihHigh _ (by simp; omega), ihLow w (by simp; omega)]
    simp only [List.length_append, List.length_singleton]
    omega

section TreeCodes

variable {tree : CodeTree} (w : Work)

theorem treeCodes_frame : treeCodes tree w = { w with ctValid := (treeCodes tree w).ctValid
                                                      ct := (treeCodes tree w).ct
                                                      maxlen := (treeCodes tree w).maxlen } := by
  rw [treeCodes_eq]

theorem treeCodes_maxlen (height : tree.height ≤ 255) : (treeCodes tree w).maxlen.toNat = tree.height := by
  rw [treeCodes, putCodes_paths_maxlen _ (by simpa using height)]
  simp [clearCodes]

theorem treeCodes_ct_of_not_mem {b : Symbol} (absent : b ∉ tree.symbols) :
    tableGet (treeCodes tree w).ct b = tableGet w.ct b := by
  rw [treeCodes_eq]
  refine tableGet_putAll_of_not_mem ?_ _
  rw [List.map_map]
  exact (CodeTree.paths_symbols tree []).symm ▸ absent

end TreeCodes

/-- Settles O33, from the table of the tree's paths. -/
theorem eCodesAssignsThePaths : Obligations.ECodesAssignsThePaths := by
  intro s tree represented height distinct
  let w := treeCodes tree s.work
  have executed : execECodes s =
      .next ((s.setWork { s.work with ctValid := w.ctValid, ct := w.ct, maxlen := w.maxlen }).setPhase 4) := by
    rw [execECodes_of_represents represented height, ← treeCodes_frame]
  refine ⟨w.ctValid, w.ct, w.maxlen, executed, treeCodes_ctValid _, fun b path mem => ?_, fun b => treeCodes_ct_of_not_mem _,
    treeCodes_maxlen _ height⟩
  exact ⟨treeCodes_len _ distinct height mem, treeCodes_val _ distinct height mem⟩

/-! ### One symbol -/

theorem presentSymbols_eq_singleton {w : Work} {b : Symbol} (only : ∀ a, tableGet w.present a = true ↔ a = b) :
    presentSymbols w = [b] :=
  List.perm_singleton.1 ((List.perm_ext_iff_of_nodup (symbolsIn_nodup _) (List.nodup_singleton b)).2 fun a => by
    rw [mem_symbolsIn, only, List.mem_singleton])

/-- The node table for one symbol: its leaf and the synthetic root (41_encoder_stages.md R134). -/
def syntheticNodes (t : Vector Node 511) (weight : BitVec 32) (b : Symbol) : Vector Node 511 :=
  nodePut (nodePut t 0 (.leaf weight b)) 1 (.internal weight 0 Config.nil)

section Synthetic

variable (t : Vector Node 511) (weight : BitVec 32) (b : Symbol)

theorem syntheticNodes_root : nodeGet (syntheticNodes t weight b) 1 = some (.internal weight 0 Config.nil) :=
  nodeGet_nodePut_self _ _ (by decide)

theorem syntheticNodes_leaf : nodeGet (syntheticNodes t weight b) 0 = some (.leaf weight b) :=
  (nodeGet_nodePut_ne _ _ (by decide)).trans (nodeGet_nodePut_self _ _ (by decide))

theorem syntheticNodes_above {k : Nat} (above : 2 ≤ k) : nodeGet (syntheticNodes t weight b) k = nodeGet t k :=
  (nodeGet_nodePut_ne _ _ (by omega)).trans (nodeGet_nodePut_ne _ _ (by omega))

theorem represents_syntheticNodes : Represents (syntheticNodes t weight b) (.one (.leaf b)) 1 :=
  ⟨weight, 0, syntheticNodes_root t weight b, weight, syntheticNodes_leaf t weight b⟩

end Synthetic

theorem buildTree_of_single {w : Work} {b : Symbol} (one : w.nsym = 1) (single : presentSymbols w = [b]) :
    buildTree w = { w with node := syntheticNodes w.node (tableGet w.count b) b, root := 1, nnode := 2 } := by
  have weight : weightAt (nodePut w.node 0 (.leaf (tableGet w.count b) b)) 0 = (tableGet w.count b).toNat :=
    weightAt_of_entry (nodeGet_nodePut_self _ _ (by decide))
  simp [buildTree, one, single, placeLeaves, weight, syntheticNodes]

/-- Settles O31: the table has the leaf and the synthetic root, and the leaf's path is "0". -/
theorem oneSymbolGetsTheSyntheticRoot : Obligations.OneSymbolGetsTheSyntheticRoot := by
  intro s b one only counted
  have counts : zeroWeight s.work = false := by
    rw [Bool.eq_false_iff, Ne, zeroWeight_eq_true_iff]
    rintro ⟨a, present, zero⟩
    exact counted ((only a).1 present ▸ zero)
  have built := execEBuild_of_counts counts (by rw [one]; decide)
  rw [buildTree_of_single one (presentSymbols_eq_singleton only)] at built
  refine ⟨syntheticNodes s.work.node (tableGet s.work.count b) b, built, syntheticNodes_leaf _ _ _, syntheticNodes_root _ _ _,
    fun k => syntheticNodes_above _ _ _, _, execECodes_of_represents (represents_syntheticNodes _ _ b) (by simp [CodeTree.height]),
    fun a => ?_, ?_, ?_⟩
  · exact (treeCodes_ctValid _ a).trans List.mem_singleton
  · exact treeCodes_ct (tree := .one (.leaf b)) _ (List.nodup_singleton b) (List.mem_singleton.2 rfl)
  · exact BitVec.eq_of_toNat_eq (treeCodes_maxlen _ (by simp [CodeTree.height]))

end Sys2Proof.Machine
end

section
/-! PROOFS. The bit packer's two passes and the header encoder (41_encoder_stages.md R138, R139, R141, R142). -/

namespace Sys2Proof.Machine

/-! ### E_MEASURE -/

theorem measure_totalBits (w : Work) {inLen : Word} {input : List Byte} (length : input.length = inLen.toNat) :
    (measure w inLen input).totalBits.toNat = codeLenSum w input := by
  have sum := codeLenSum_le w input
  have := inLen.isLt
  exact fit_toNat (by omega)

theorem codeLenSum_inputBytes (w : Work) (s : State) : codeLenSum w (inputBytes s) =
    ((List.range s.inLen.toNat).map fun i => (tableGet w.ct (memRead s.ibuf i)).len.toNat).sum := by
  rw [codeLenSum, inputBytes, List.map_map]
  rfl

/-- Settles O35: the five registers hold the formulas' values exactly, and their sum decides. -/
theorem eMeasureSizesTheArtifact : Obligations.EMeasureSizesTheArtifact := by
  rintro s totalBits _ _ _ range bits rfl rfl rfl
  rw [← codeLenSum_inputBytes] at bits
  subst bits
  have payload := measure_payloadLen s.work (inputBytes_length s)
  have header := measure_hdrLen s.work (inLen := s.inLen) (input := inputBytes s)
  refine ⟨measure s.work s.inLen (inputBytes s), rfl, measure_totalBits _ (inputBytes_length s), measure_pad _, payload, header,
    fun overflow => execEMeasure_of_overflow range rfl ?_, fun room => execEMeasure_of_room range rfl ?_⟩
  · rw [payload, header]
    exact overflow
  · rw [payload, header]
    exact room

/-- TOTAL_BITS is stored whether or not the artifact fits OBUF. -/
theorem execEMeasure_totalBits {s u : State} (h : execEMeasure s = .next u) :
    u.work.totalBits.toNat = codeLenSum s.work (inputBytes s) := by
  obtain ⟨-, w, rfl, ⟨-, rfl⟩ | ⟨-, rfl⟩⟩ := execEMeasure_next h
  · exact measure_totalBits s.work (inputBytes_length s)
  · exact measure_totalBits s.work (inputBytes_length s)

/-- Settles O36: the sum over the input, taken symbol by symbol. -/
theorem totalBitsIsTheWeightedSum : Obligations.TotalBitsIsTheWeightedSum := by
  intro s t u ctValid ct _ executed noError measured
  obtain ⟨-, rfl⟩ := frequencies_of_execEFreq executed noError
  have stored : u.work.totalBits.toNat = ((inputBytes s).map fun b => (tableGet ct b).len.toNat).sum :=
    execEMeasure_totalBits measured
  rw [stored, sum_map_eq_sum_count_mul (symbolsIn_nodup _) fun b mem =>
    mem_presentSymbols.2 ((frequencies_present (inputBytes s) s.work b).2 mem)]
  simp only [State.setPhase_work, State.setWork_work, frequencies_count (inputBytes s) s.work _ (length_inputBytes_lt s)]
  rfl

/-! ### E_HEADER -/

theorem memRead_memWriteRun_getElem? {m : Memory} (wf : Memory.wf m = true) {a i : Nat} {bytes : List Byte} {b : Byte}
    (byte : bytes[i]? = some b) : memRead (memWriteRun m a bytes) (a + i) = b := by
  obtain ⟨lt, rfl⟩ := List.getElem?_eq_some_iff.1 byte
  exact memRead_memWriteRun_inside wf lt

/-- Settles O38: the bytes are written in order from address 0. -/
theorem eHeaderWritesTheHeader : Obligations.EHeaderWritesTheHeader := by
  intro s header layout room wf
  have bytes : header = headerBytes s.work := layout
  subst bytes
  refine ⟨memWriteRun s.obuf 0 (headerBytes s.work), execEHeader_of_room room, fun k b byte => ?_, fun k beyond => ?_⟩
  · simpa using memRead_memWriteRun_getElem? (a := 0) wf byte
  · exact memRead_memWriteRun_outside _ _ (.inr (by omega))

/-! ### E_PACK -/

/-- Bit 7 of a packed byte is the first of its eight stream bits. -/
theorem getLsbD_packByte (st : BitString) (j : Nat) {k : Nat} (lt : k < 8) :
    (packByte st j).getLsbD (7 - k) = streamBit st (8 * j + k) := by
  have bit := congrArg (·[k]?) (bitsOfByte_packByte st j)
  simpa [bitsOfByte, octet, lt] using bit

/-- Settles O39: byte `j` of the payload packs the stream's bits from 8·j on. -/
theorem ePackWritesThePayload : Obligations.EPackWritesThePayload := by
  rintro s stream range packed length room wf
  have executed := execEPack_of_room range room
  rw [State.complete, fit_eq_ofNat (artifactLength_lt (.inr room))] at executed
  refine ⟨memWriteRun s.obuf s.work.hdrLen.toNat (payloadBytes s.work (inputBytes s)), executed, fun j k ltJ ltK => ?_,
    fun a outside => memRead_memWriteRun_outside _ _ ?_⟩
  · have byte : (payloadBytes s.work (inputBytes s))[j]? = some (packByte stream j) := by
      rw [packed]
      simp [payloadBytes, packStream, ltJ]
    have inside : 8 * j + k < stream.length := by omega
    rw [memRead_memWriteRun_getElem? wf byte, getLsbD_packByte stream j ltK]
    simp [streamBit, inside]
  · rwa [payloadBytes_length]

end Sys2Proof.Machine
end

section
/-! PROOFS. DECODE of an artifact cut by one byte (42_decoder_stages.md R157, R160): a walk whose bits end before the codes do is
truncated, and the data bits of the cut payload end there. -/

namespace Sys2Proof.Machine

/-! ### The walk over too few bits -/

section Walk

variable {w : Work} (free : prefixFree w)
include free

/-- A walk whose bits end inside a code is truncated. -/
theorem walk_insideCode {s : Symbol} (valid : tableGet w.ctValid s = true) (need : Nat) {rest : BitString} (more : rest ≠ [])
    (part : BitString) : ∀ {acc : BitString}, codeOf w s = acc ++ part ++ rest → walk w part acc (need + 1) = .truncated := by
  induction part with
  | nil => exact fun _ => rfl
  | cons b part ih =>
    intro acc code
    have split : codeOf w s = (acc ++ [b]) ++ part ++ rest := by rw [code, List.append_cons]
    have proper : isProperPrefix (acc ++ [b]) (codeOf w s) = true := by
      rw [isProperPrefix_iff, split, List.append_assoc]
      have := List.length_pos_iff.2 more
      exact ⟨by simp only [List.length_append]; omega, List.prefix_append _ _⟩
    rw [walk, symbolOf_of_properPrefix free valid proper, extends_of_properPrefix valid proper]
    exact ih split

/-- A walk whose bits end before the last of the codes does is truncated (42_decoder_stages.md R157). -/
theorem walk_of_properPrefix {out : List Symbol} (valid : ∀ b ∈ out, tableGet w.ctValid b = true)
    (nonempty : ∀ b : Symbol, tableGet w.ctValid b = true → 1 ≤ (tableGet w.ct b).len.toNat) : ∀ {bits : BitString},
    isProperPrefix bits (out.flatMap (codeOf w)) = true → walk w bits [] out.length = .truncated := by
  induction out with
  | nil => exact fun proper => absurd ((isProperPrefix_iff _ _).1 proper).1 (Nat.not_lt_zero _)
  | cons b out ih =>
    intro bits proper
    obtain ⟨validB, valid⟩ := List.forall_mem_cons.1 valid
    obtain ⟨shorter, pre⟩ := (isProperPrefix_iff _ _).1 proper
    rw [List.flatMap_cons] at shorter pre
    rw [List.length_cons]
    by_cases inside : bits.length < (codeOf w b).length
    · obtain ⟨rest, code⟩ := List.prefix_of_prefix_length_le pre (List.prefix_append _ _) inside.le
      have more : rest ≠ [] := by
        rintro rfl
        rw [← code, List.append_nil] at inside
        exact lt_irrefl _ inside
      exact walk_insideCode free validB _ more bits (code.symm.trans (by rw [List.nil_append]))
    · obtain ⟨tail, rfl⟩ := List.prefix_of_prefix_length_le (List.prefix_append _ _) pre (Nat.not_lt.1 inside)
      have code : codeOf w b ≠ [] := List.ne_nil_of_length_pos (by rw [codeOf_length]; exact nonempty b validB)
      have properTail : isProperPrefix tail (out.flatMap (codeOf w)) = true := by
        rw [isProperPrefix_iff]
        simp only [List.length_append] at shorter
        exact ⟨by omega, (List.prefix_append_right_inj _).1 pre⟩
      rw [walk_code free validB _ _ (List.nil_append _).symm code, ih valid properTail]
      rfl

end Walk

/-- D_WALK's error where the data bits all lie in IBUF. -/
theorem execDWalk_of_truncated {s : State} (room : s.work.total ≤ s.params.obufSize) (range : s.inLen ≤ s.params.ibufSize)
    (truncated : walk s.work (dataBits s) [] s.work.total.toNat = .truncated) :
    execDWalk s = .next (s.raise .truncatedStream) := by
  rw [execDWalk, if_neg (BitVec.not_lt.2 room), truncated]
  exact if_neg (by rw [dataBits_length range]; exact lt_irrefl _)

/-! ### The cut artifact -/

section CutArtifact

variable {w : Work} {input : List Byte} (h : Encodes w input)
include h

theorem Encodes.one_le_codeLenSum : 1 ≤ codeLenSum w input := by
  obtain ⟨b, input, rfl⟩ := List.exists_cons_of_ne_nil h.nonempty
  have first := (h.codesFit.codes b (h.valid b List.mem_cons_self)).1
  rw [codeLenSum, List.map_cons, List.sum_cons]
  omega

theorem Encodes.eight_mul_payloadLen : 8 * w.payloadLen.toNat = codeLenSum w input + w.pad.toNat := by
  rw [← h.packed, packStream_length]

theorem Encodes.artifact_dropLast : (artifact w input).dropLast = headerBytes w ++ (payloadBytes w input).dropLast := by
  refine List.dropLast_append_of_ne_nil (List.ne_nil_of_length_pos ?_)
  have := h.one_le_codeLenSum
  have := h.eight_mul_payloadLen
  rw [payloadBytes_length]
  omega

/-- Without the payload's last byte the data bits end before the codes do. -/
theorem dataBits_of_cut {u : State} (range : u.inLen ≤ u.params.ibufSize)
    (loaded : inputBytes u = headerBytes w ++ (payloadBytes w input).dropLast) (pad : u.work.pad = w.pad)
    (off : u.work.payloadOff.toNat = (headerBytes w).length) :
    isProperPrefix (dataBits u) (input.flatMap (codeOf w)) = true := by
  have positive := h.one_le_codeLenSum
  have whole := h.eight_mul_payloadLen
  have shorter : (dataBits u).length < (input.flatMap (codeOf w)).length := by
    rw [dataBits_eq range loaded off, pad, List.length_take, streamOf_length, List.length_dropLast, payloadBytes_length,
      flatMap_codeOf_length]
    omega
  have pre : dataBits u <+: streamOf (payloadBytes w input) := by
    rw [dataBits_eq range loaded off]
    exact (List.take_prefix _ _).trans ((List.dropLast_prefix _).flatMap _)
  have codes : input.flatMap (codeOf w) <+: streamOf (payloadBytes w input) := by
    rw [← take_streamOf_payloadBytes h]
    exact List.take_prefix _ _
  exact (isProperPrefix_iff _ _).2 ⟨shorter, List.prefix_of_prefix_length_le pre codes shorter.le⟩

/-- D_WALK on the cut payload, with the artifact's code table. -/
theorem execDWalk_of_cut {u : State} (range : u.inLen ≤ u.params.ibufSize)
    (loaded : inputBytes u = headerBytes w ++ (payloadBytes w input).dropLast) (same : SameCodes w u.work)
    (total : u.work.total = w.total) (pad : u.work.pad = w.pad) (off : u.work.payloadOff.toNat = (headerBytes w).length)
    (room : w.total ≤ u.params.obufSize) : execDWalk u = .next (u.raise .truncatedStream) := by
  refine execDWalk_of_truncated (by rwa [total]) range ?_
  rw [walk_congr same, total, h.total]
  exact walk_of_properPrefix h.free h.valid (fun b valid => (h.codesFit.codes b valid).1) (dataBits_of_cut h range loaded pad off)

/-- DECODE of a cut artifact stops in D_WALK and has written nothing but the working state. -/
theorem engineEnds_decode_cut {u : State} (busy : u.busy = true) (phase : u.phase = 8) (range : u.inLen ≤ u.params.ibufSize)
    (loaded : inputBytes u = (artifact w input).dropLast) (room : w.total ≤ u.params.obufSize) :
    ∃ v : Work, EngineEnds u (((u.setWork v).setPhase 10).raise .truncatedStream) := by
  have positive : 1 ≤ w.total.toNat := h.total ▸ List.length_pos_iff.2 h.nonempty
  rw [h.artifact_dropLast] at loaded
  obtain ⟨v, read, valid, code, -, total, pad, off⟩ := headerReadOfWriteIsTheTable w u _ h.codesFit.counted
    h.codesFit.nonempty h.codesFit.codes positive h.free range loaded
  have same : SameCodes w v := ⟨valid, code⟩
  have table : execDTable ((u.setWork v).setPhase 9) = .next ((u.setWork v).setPhase 10) :=
    execDTable_of_prefixFree (prefixFree_congr same h.free)
  have walked := execDWalk_of_cut (u := (u.setWork v).setPhase 10) h range loaded same total pad off room
  refine ⟨v, .stage (i := .dHeader) busy (by rw [phase]; rfl) read ?_⟩
  refine .stage (i := .dTable) busy rfl table ?_
  exact .stage (i := .dWalk) busy rfl walked (.ended rfl)

end CutArtifact

/-- Settles O59: ENCODE's end is an artifact of its input, and D_WALK of the cut one is left without a bit it needs. -/
theorem artifactCutByOneByteIsTruncated : Obligations.ArtifactCutByOneByteIsTruncated := by
  intro s t u events events' inv idle interleaved encoded done _ idle' range loaded room interleaved'
  obtain ⟨tree, built⟩ := exists_inputTree (inputBytes s)
  obtain ⟨t', encoded', shows⟩ := (starts_encode idle).commandEnds_shows (endsAs_encode inv.obuf.1 built) interleaved
  obtain rfl := encoded.unique encoded'
  obtain ⟨w, encodes, total, result⟩ := exists_encodes_of_completed built (shows.completed_of_done done)
  rw [result] at loaded
  obtain ⟨v, ends⟩ := engineEnds_decode_cut encodes (u := u.prologue.startAt 8) rfl rfl range loaded (by rwa [total])
  obtain ⟨ie, replies, schedule, command⟩ := (starts_decode idle').commandEnds ends interleaved'
  exact ⟨_, command, rfl, rfl, rfl, rfl, rfl⟩

end Sys2Proof.Machine
end

section
/-! PROOFS. D_TABLE and D_WALK by themselves (42_decoder_stages.md R154, R155, R158). -/

namespace Sys2Proof.Machine

/-- Settles O46: the check of all pairs finds a clash exactly where the table is not `prefixFree`. -/
theorem dTablePassesExactlyThePrefixFreeTables : Obligations.DTablePassesExactlyThePrefixFreeTables := by
  refine fun s => ⟨execDTable_of_prefixFree, fun notFree => if_pos ?_⟩
  rwa [← prefixClash_eq_false_iff, Bool.not_eq_false] at notFree

/-- After D_TABLE has raised nothing the table is `prefixFree`. -/
theorem prefixFree_of_execDTable {s t : State} (h : execDTable s = .next t) (noError : t.err = false) : prefixFree t.work := by
  obtain ⟨-, rfl⟩ | ⟨free, rfl⟩ := execDTable_next h
  · cases noError
  · exact (prefixClash_eq_false_iff s.work).1 free

/-- No valid code continues another (42_decoder_stages.md R155). -/
theorem prefixFree.not_isProperPrefix {w : Work} (free : prefixFree w) {a b : Symbol} (validA : tableGet w.ctValid a = true)
    (validB : tableGet w.ctValid b = true) : isProperPrefix (codeOf w a) (codeOf w b) = false := by
  refine Bool.eq_false_iff.2 fun proper => ?_
  obtain ⟨shorter, pre⟩ := (isProperPrefix_iff _ _).1 proper
  have ne : a ≠ b := by
    rintro rfl
    exact lt_irrefl _ shorter
  exact free a b ne validA validB pre

/-- Settles O47: the table that D_TABLE passes is `prefixFree`. -/
theorem decodingIsUnambiguousAfterDTable : Obligations.DecodingIsUnambiguousAfterDTable := by
  rintro s t _ executed noError _ a valid rfl
  have free := prefixFree_of_execDTable executed noError
  exact ⟨fun b validB same => free.eq_of_codeOf_eq validB valid same, fun b validB => free.not_isProperPrefix valid validB,
    symbolOf_codeOf free valid⟩

/-- D_WALK writes OBUF and OUT_LEN only when it completes (42_decoder_stages.md R158). -/
theorem execDWalk_error_frame {s t : State} (h : execDWalk s = .next t) (before : s.err = false) (after : t.err = true) :
    t.obuf = s.obuf ∧ t.outLen = s.outLen := by
  obtain ⟨-, rfl⟩ | ⟨-, ⟨-, -, rfl⟩ | ⟨-, rfl⟩ | ⟨out, -, -, rfl⟩⟩ := execDWalk_next h
  · exact ⟨rfl, rfl⟩
  · exact ⟨rfl, rfl⟩
  · exact ⟨rfl, rfl⟩
  · exact absurd (before.symm.trans after) Bool.false_ne_true

/-- Settles O48: the capacity is tested first, then the walk recovers the symbols, which are written from address 0. -/
theorem dWalkRecoversTheSymbols : Obligations.DWalkRecoversTheSymbols := by
  refine fun s => ⟨fun overflow => if_pos overflow, ?_, fun t before executed after =>
    execDWalk_error_frame executed before after⟩
  intro out tail room free nonempty length valid bits wf
  have recovered : walk s.work (dataBits s) [] s.work.total.toNat = .recovered out := by
    rw [bits, ← length]
    exact walk_codes free valid nonempty tail
  have executed := execDWalk_of_recovered room recovered length
  rw [State.complete, fit_of_toNat] at executed
  refine ⟨memWriteRun s.obuf 0 out, executed, fun j b symbol => ?_, fun j beyond => ?_⟩
  · simpa using memRead_memWriteRun_getElem? (a := 0) wf symbol
  · exact memRead_memWriteRun_outside _ _ (.inr (by omega))

end Sys2Proof.Machine
end

section
/-! PROOFS. What a stage that raises leaves (60_exceptions.md R171, R174). -/

namespace Sys2Proof.Machine

/-- A stage raises one of its errors, having written at most working state, or it leaves ERR as it is. -/
theorem exec_stage_raise_or_keeps_err {i : Instr} {s t : State} (stage : isStage i = true) (h : exec i s = .next t) :
    (∃ e ∈ stageErrors i, t = (s.setWork t.work).raise e) ∨ t.err = s.err := by
  cases i with
  | clr | encode | decode => cases stage
  | eFreq =>
    obtain ⟨-, rfl⟩ | ⟨-, -, rfl⟩ | ⟨-, -, rfl⟩ := execEFreq_next h
    · exact .inl ⟨.inputRange, by decide, rfl⟩
    · exact .inl ⟨.emptyInput, by decide, rfl⟩
    · exact .inr rfl
  | eBuild =>
    obtain ⟨-, rfl⟩ | ⟨-, -, rfl⟩ := execEBuild_next h
    · exact .inl ⟨.invalidFrequency, by decide, rfl⟩
    · exact .inr rfl
  | eCodes =>
    obtain ⟨w, -, rfl⟩ := execECodes_next h
    exact .inr rfl
  | eMeasure =>
    obtain ⟨-, w, -, ⟨-, rfl⟩ | ⟨-, rfl⟩⟩ := execEMeasure_next h
    · exact .inl ⟨.outputOverflow, by decide, rfl⟩
    · exact .inr rfl
  | eHeader =>
    obtain ⟨-, rfl⟩ := execEHeader_next h
    exact .inr rfl
  | ePack =>
    obtain ⟨-, -, rfl⟩ := execEPack_next h
    exact .inr rfl
  | dHeader =>
    obtain ⟨-, rfl⟩ | ⟨-, w, ⟨-, rfl⟩ | ⟨rest, -, rfl⟩⟩ := execDHeader_next h
    · exact .inl ⟨.inputRange, by decide, rfl⟩
    · exact .inl ⟨.corruptHeader, by decide, rfl⟩
    · exact .inr rfl
  | dTable =>
    obtain ⟨-, rfl⟩ | ⟨-, rfl⟩ := execDTable_next h
    · exact .inl ⟨.corruptHeader, by decide, rfl⟩
    · exact .inr rfl
  | dWalk =>
    obtain ⟨-, rfl⟩ | ⟨-, ⟨-, -, rfl⟩ | ⟨-, rfl⟩ | ⟨out, -, -, rfl⟩⟩ := execDWalk_next h
    · exact .inl ⟨.outputOverflow, by decide, rfl⟩
    · exact .inl ⟨.truncatedStream, by decide, rfl⟩
    · exact .inl ⟨.invalidCode, by decide, rfl⟩
    · exact .inr rfl

/-- After a raise irq is IE. -/
theorem irq_raise (s : State) (e : ErrorCode) : irq (s.raise e) = s.ie := by
  simp [irq, commandEnded]

/-- Settles O21: ERR has risen, so the stage raised one of its errors; the illegal command is the last case of a CMD write. -/
theorem stageErrorsAreThoseOfTheTable : Obligations.StageErrorsAreThoseOfTheTable := by
  refine ⟨fun i s t stage before executed after => ?_, fun s w rest idle notClr notEncode notDecode => ?_⟩
  · obtain ⟨e, listed, raised⟩ | kept := exec_stage_raise_or_keeps_err stage executed
    · have irqIsIe : irq t = s.ie := by
        rw [raised]
        exact irq_raise _ e
      exact ⟨e, listed, raised, irqIsIe⟩
    · exact absurd (before.symm.trans (kept.symm.trans after)) Bool.false_ne_true
  · obtain ⟨-, -, -, -, illegal⟩ := cmdWriteIsHandledInOneStep s w rest
    exact ⟨_, illegal idle notClr notEncode notDecode, rfl, rfl, rfl, idle⟩

end Sys2Proof.Machine
end

section
/-! PROOFS. D_HEADER (42_decoder_stages.md R150 to R152): it reads exactly the well-formed headers, and MAXLEN is the longest of
their code lengths. -/

namespace Sys2Proof.Machine

/-! ### MAXLEN -/

theorem putEntry_maxlen (w : Work) (s : Symbol) (len : Byte) (v : Nat) :
    (putEntry w s len v).maxlen.toNat = max w.maxlen.toNat len.toNat := by
  simp only [putEntry]
  split_ifs with longer
  · exact (max_eq_right (Nat.le_of_lt longer)).symm
  · exact (max_eq_left (Nat.le_of_not_lt longer)).symm

theorem putEntries_maxlen (entries : List (Symbol × Byte × Nat)) : ∀ w : Work,
    (putEntries w entries).maxlen.toNat = (entries.map fun e => e.2.1.toNat).foldl max w.maxlen.toNat := by
  induction entries with
  | nil => exact fun _ => rfl
  | cons e entries ih =>
    intro w
    rw [List.map_cons, List.foldl_cons, ← putEntry_maxlen w e.1 e.2.1 e.2.2]
    exact ih _

theorem Header.parsed_maxlen (h : Header) (w : Work) : (h.parsed w).maxlen = BitVec.ofNat 8 h.maxLen := by
  have stored : (h.parsed w).maxlen.toNat = h.maxLen := putEntries_maxlen h.entries _
  rw [← stored, BitVec.ofNat_toNat, BitVec.setWidth_eq]

/-- Settles O43: the reader gives the header back entry by entry, and each value fits its field. -/
theorem dHeaderReadsEveryWellFormedHeader : Obligations.DHeaderReadsEveryWellFormedHeader := by
  intro s h payload range wf input
  have executed := execDHeader_toBytes range wf input
  have length := length_lt_of_inputBytes input
  have ⟨_, few, fits, distinct, _, bound, padBound⟩ := wf
  rw [Header.parsed_eq, Header.parsed_maxlen, fit_eq_ofNat (by omega), fit_eq_ofNat bound, fit_eq_ofNat (by omega),
    fit_eq_ofNat length] at executed
  refine ⟨_, _, executed, fun b => ?_, fun e mem => ?_, fun b absent => ?_⟩
  · rw [tableGet_putAll_true]
    simp
  · have read := Header.parsed_ct_of_mem s.work distinct mem
    rw [Header.parsed_eq] at read
    have small : e.2.2 < 2 ^ 255 :=
      (fits e mem).2.trans_le (Nat.pow_le_pow_right Nat.two_pos (Nat.le_of_lt_succ e.2.1.isLt))
    rw [read, fit_eq_ofNat small]
  · refine tableGet_putAll_of_not_mem ?_ _
    rwa [List.map_map]

/-! ### What the reader accepts -/

theorem eq_append_of_expectBytes {rest : List Byte} : ∀ {expected bs : List Byte}, expectBytes expected bs = some rest →
    bs = expected ++ rest := by
  intro expected
  induction expected with
  | nil =>
    intro bs h
    cases h
    rfl
  | cons e expected ih =>
    intro bs h
    cases bs with
    | nil => cases h
    | cons b bs =>
      rw [expectBytes] at h
      split_ifs at h with same
      rw [same, ih h, List.cons_append]

/-- An entry that is read is the bytes of an entry that fits, for a symbol without a code. -/
theorem exists_entry_of_readEntry {w w' : Work} {bs rest : List Byte} (h : readEntry w bs = (w', some rest)) :
    ∃ e, EntryFits e ∧ tableGet w.ctValid e.1 = false ∧ bs = bytesOfEntry e ++ rest ∧ w' = putEntry w e.1 e.2.1 e.2.2 := by
  unfold readEntry at h
  split at h
  · next s len bytes =>
    by_cases zero : len = 0
    · rw [if_pos zero] at h
      cases h
    rw [if_neg zero] at h
    split at h
    · cases h
    next v rest' read =>
    split_ifs at h with wide used
    · cases h
    · cases h
    · cases h
      have positive : 1 ≤ len.toNat := Nat.pos_of_ne_zero fun empty => zero (BitVec.eq_of_toNat_eq empty)
      refine ⟨(s, len, v), ⟨positive, Nat.not_le.1 wide⟩, Bool.eq_false_iff.2 used, ?_, rfl⟩
      rw [(eq_putCodeBits_of_getCodeBits read).2]
      rfl
  · cases h

theorem exists_entries_of_readEntries (n : Nat) : ∀ {w w' : Work} {bs rest : List Byte},
    readEntries n w bs = (w', some rest) → ∃ entries : List (Symbol × Byte × Nat), entries.length = n ∧
      (∀ e ∈ entries, EntryFits e) ∧ (entries.map (·.1)).Nodup ∧
      (∀ s ∈ entries.map (·.1), tableGet w.ctValid s = false) ∧ bs = entries.flatMap bytesOfEntry ++ rest := by
  induction n with
  | zero =>
    intro w w' bs rest h
    cases h
    exact ⟨[], by simp⟩
  | succ n ih =>
    intro w w' bs rest h
    rw [readEntries] at h
    split at h
    · cases h
    next v bytes read =>
    obtain ⟨e, fits, unused, rfl, rfl⟩ := exists_entry_of_readEntry read
    obtain ⟨entries, rfl, fitsTail, distinct, fresh, rfl⟩ := ih h
    have other : ∀ s ∈ entries.map (·.1), s ≠ e.1 := by
      rintro s mem rfl
      have := fresh _ mem
      simp [putEntry] at this
    refine ⟨e :: entries, rfl, List.forall_mem_cons.2 ⟨fits, fitsTail⟩, List.nodup_cons.2 ⟨fun mem => other _ mem rfl, distinct⟩,
      List.forall_mem_cons.2 ⟨unused, fun s mem => ?_⟩, by rw [List.flatMap_cons, List.append_assoc]⟩
    exact (tableGet_tablePut_ne _ true (other s mem)).symm.trans (fresh s mem)

theorem exists_trailer_of_readTrailer {inLen : Nat} {w w' : Work} {bs rest : List Byte}
    (h : readTrailer inLen w bs = (w', some rest)) : ∃ total pad : Nat, 1 ≤ total ∧ total < 2 ^ 32 ∧ pad ≤ 7 ∧
      bs = putVarint total ++ BitVec.ofNat 8 pad :: rest := by
  unfold readTrailer at h
  split at h
  · cases h
  next total bytes read =>
  split_ifs at h with zero
  · cases h
  dsimp only at h
  split at h
  · cases h
  next q rest' =>
  split_ifs at h with large
  · cases h
  cases h
  obtain ⟨bound, rfl⟩ := eq_putVarint_of_getVarint read
  exact ⟨total, q.toNat, Nat.pos_of_ne_zero zero, bound, Nat.not_lt.1 large, by simp⟩

/-- D_HEADER's reader accepts well-formed headers only (42_decoder_stages.md R152). -/
theorem exists_header_of_readHeader {inLen : Nat} {w w' : Work} {bs rest : List Byte}
    (h : readHeader inLen w bs = (w', some rest)) : ∃ header : Header, header.wellFormed ∧ bs = header.toBytes ++ rest := by
  unfold readHeader at h
  split at h
  · cases h
  next afterVersion start =>
  split at h
  · cases h
  next n afterCount count =>
  split_ifs at h with badCount
  · cases h
  split at h
  · cases h
  next v afterEntries read =>
  obtain ⟨entries, rfl, fits, distinct, -, rfl⟩ := exists_entries_of_readEntries n read
  obtain ⟨total, pad, positive, bound, padBound, rfl⟩ := exists_trailer_of_readTrailer h
  obtain ⟨-, rfl⟩ := eq_putVarint_of_getVarint count
  rw [Config.nsymMax] at badCount
  have count : 1 ≤ entries.length ∧ entries.length ≤ 256 := by omega
  refine ⟨⟨entries, total, pad⟩, ⟨count.1, count.2, fits, distinct, positive, bound, padBound⟩, ?_⟩
  rw [Header.toBytes_append]
  exact eq_append_of_expectBytes start

/-- Settles O44: what the reader accepts begins with a well-formed header, so it accepts no other input. -/
theorem dHeaderRefusesEveryOtherInput : Obligations.DHeaderRefusesEveryOtherInput := by
  refine ⟨fun s outside => if_pos outside, fun s range noHeader => ?_⟩
  rw [exec, execDHeader, if_neg (BitVec.not_lt.2 range)]
  cases read : readHeader s.inLen.toNat s.work (inputBytes s) with
  | mk w rest =>
    cases rest with
    | none => exact ⟨w, rfl⟩
    | some rest =>
      obtain ⟨header, wf, input⟩ := exists_header_of_readHeader read
      exact absurd ⟨header, rest, wf, input⟩ noHeader

end Sys2Proof.Machine
end

section
/-! PROOFS. The three ways a stage can end (40_commands.md R116, R117; 60_exceptions.md R174), and from them the interrupt line
and what no step but the HOST's and RESET changes. -/

namespace Sys2Proof.Machine

/-- The code of a stage in PHASE (30_encoding.md R83); a command has none. -/
def stageCode : Instr → BitVec 4
  | .clr | .encode | .decode => 0
  | .eFreq => 1
  | .eBuild => 2
  | .eCodes => 3
  | .eMeasure => 4
  | .eHeader => 5
  | .ePack => 6
  | .dHeader => 8
  | .dTable => 9
  | .dWalk => 10

theorem decodePhase_all_stageCode : ∀ p : BitVec 4, (decodePhase p).toOption.all (fun i => stageCode i == p) = true := by
  decide

theorem stageCode_of_decodePhase {p : BitVec 4} {i : Instr} (h : decodePhase p = .ok i) : stageCode i = p := by
  simpa [h, Except.toOption] using decodePhase_all_stageCode p

variable {s t : State}

/-- All that a stage can do: it raises, goes on to the next stage, or completes with at most its own buffer and working state
written. -/
theorem exec_stage_next {i : Instr} (stage : isStage i = true) (h : exec i s = .next t) :
    (∃ w e, t = (s.setWork w).raise e) ∨
    (∃ w m, t = ((s.setWork w).setObuf m).setPhase (stageCode i + 1)) ∨
    (∃ m n, t = (s.setObuf m).complete n) := by
  cases i with
  | clr | encode | decode => cases stage
  | eFreq =>
    obtain ⟨-, rfl⟩ | ⟨-, -, rfl⟩ | ⟨-, -, rfl⟩ := execEFreq_next h
    · exact .inl ⟨s.work, _, rfl⟩
    · exact .inl ⟨s.work, _, rfl⟩
    · exact .inr (.inl ⟨frequencies s.work (inputBytes s), s.obuf, rfl⟩)
  | eBuild =>
    obtain ⟨-, rfl⟩ | ⟨-, -, rfl⟩ := execEBuild_next h
    · exact .inl ⟨s.work, _, rfl⟩
    · exact .inr (.inl ⟨buildTree s.work, s.obuf, rfl⟩)
  | eCodes =>
    obtain ⟨w, -, rfl⟩ := execECodes_next h
    exact .inr (.inl ⟨w, s.obuf, rfl⟩)
  | eMeasure =>
    obtain ⟨-, w, -, ⟨-, rfl⟩ | ⟨-, rfl⟩⟩ := execEMeasure_next h
    · exact .inl ⟨w, _, rfl⟩
    · exact .inr (.inl ⟨w, s.obuf, rfl⟩)
  | eHeader =>
    obtain ⟨-, rfl⟩ := execEHeader_next h
    exact .inr (.inl ⟨s.work, _, rfl⟩)
  | ePack =>
    obtain ⟨-, -, rfl⟩ := execEPack_next h
    exact .inr (.inr ⟨_, _, rfl⟩)
  | dHeader =>
    obtain ⟨-, rfl⟩ | ⟨-, w, ⟨-, rfl⟩ | ⟨rest, -, rfl⟩⟩ := execDHeader_next h
    · exact .inl ⟨s.work, _, rfl⟩
    · exact .inl ⟨w, _, rfl⟩
    · exact .inr (.inl ⟨w, s.obuf, rfl⟩)
  | dTable =>
    obtain ⟨-, rfl⟩ | ⟨-, rfl⟩ := execDTable_next h
    · exact .inl ⟨s.work, _, rfl⟩
    · exact .inr (.inl ⟨s.work, s.obuf, rfl⟩)
  | dWalk =>
    obtain ⟨-, rfl⟩ | ⟨-, ⟨-, -, rfl⟩ | ⟨-, rfl⟩ | ⟨out, -, -, rfl⟩⟩ := execDWalk_next h
    · exact .inl ⟨s.work, _, rfl⟩
    · exact .inl ⟨s.work, _, rfl⟩
    · exact .inl ⟨s.work, _, rfl⟩
    · exact .inr (.inr ⟨_, _, rfl⟩)

/-! ### The interrupt line -/

theorem irq_of_running (done : s.done = false) (err : s.err = false) : irq s = false := by
  simp [irq, commandEnded, done, err]

/-- Settles O23: a stage that ends the command sets DONE or ERR, and one that goes on sets neither. -/
theorem interruptLineFollowsTheEndOfACommand : Obligations.InterruptLineFollowsTheEndOfACommand := by
  intro i s t stage busy done err executed
  refine ⟨irq_of_running done err, ?_⟩
  obtain ⟨w, e, rfl⟩ | ⟨w, m, rfl⟩ | ⟨m, n, rfl⟩ := exec_stage_next stage executed
  · rw [irq_raise]
    simp
  · rw [irq_of_running (s := ((s.setWork w).setObuf m).setPhase _) done err]
    simp [busy]
  · rw [irq_complete]
    simp

/-! ### Who changes the input and the control register -/

/-- The two states agree in the parameters, IE, IN_LEN and IBUF. -/
structure SameControl (s t : State) : Prop where
  params : t.params = s.params
  ie : t.ie = s.ie
  inLen : t.inLen = s.inLen
  ibuf : t.ibuf = s.ibuf

theorem SameControl.refl (s : State) : SameControl s s := ⟨rfl, rfl, rfl, rfl⟩

theorem exec_stage_sameControl {i : Instr} (stage : isStage i = true) (h : exec i s = .next t) : SameControl s t := by
  obtain ⟨w, e, rfl⟩ | ⟨w, m, rfl⟩ | ⟨m, n, rfl⟩ := exec_stage_next stage h <;> exact ⟨rfl, rfl, rfl, rfl⟩

theorem engineTurn_sameControl (h : engineTurn s = .next t) : SameControl s t := by
  obtain ⟨-, rfl⟩ | ⟨-, i, selected, executed⟩ := engineTurn_next h
  · exact .refl t
  · exact exec_stage_sameControl (isStage_of_decodePhase selected) executed

/-- All that a CMD write can do (40_commands.md R110). -/
theorem cmdWrite_cases {w : Word} (h : cmdWrite w s = .next t) : t = s ∨
    s.busy = false ∧ (t = s.prologue.setPhase 0 ∨ t = s.prologue.startAt 1 ∨ t = s.prologue.startAt 8 ∨
      t = s.prologue.rejectCommand) := by
  have taken {effect : State → State} (accepted : (.next (accept s effect) : Host.Outcome State Fault Refusal) = .next t) :
      t = s ∨ s.busy = false ∧ t = effect s.prologue := by
    cases accepted
    obtain ⟨-, same⟩ | ⟨idle, same⟩ := accept_cases s effect
    · exact .inl same
    · exact .inr ⟨idle, same⟩
  unfold cmdWrite at h
  obtain selected | selected | selected | selected := decodeCommand_cases w <;> rw [selected] at h
  · exact (taken h).imp_right fun ⟨idle, same⟩ => ⟨idle, .inl same⟩
  · exact (taken h).imp_right fun ⟨idle, same⟩ => ⟨idle, .inr (.inl same)⟩
  · exact (taken h).imp_right fun ⟨idle, same⟩ => ⟨idle, .inr (.inr (.inl same))⟩
  · exact (taken h).imp_right fun ⟨idle, same⟩ => ⟨idle, .inr (.inr (.inr same))⟩

theorem cmdWrite_sameControl {w : Word} (h : cmdWrite w s = .next t) : SameControl s t := by
  obtain rfl | ⟨-, rfl | rfl | rfl | rfl⟩ := cmdWrite_cases h <;> exact ⟨rfl, rfl, rfl, rfl⟩

/-- A HOST write of a buffer stores in IBUF or nowhere (10_state.md R34, R35). -/
theorem bufWrite_cases (s : State) (space : Space) (a : Word) (b : Byte) : bufWrite s space a b = s ∨
    (space = .ibuf ∧ a < s.params.ibufSize ∧ bufWrite s space a b = s.setIbuf (memWrite s.ibuf a.toNat b)) := by
  cases space with
  | ibuf =>
    simp only [bufWrite]
    split_ifs with stores
    · exact .inr ⟨trivial, of_decide_eq_true ((Bool.and_eq_true _ _).mp stores).2, rfl⟩
    · exact .inl rfl
  | obuf => exact .inl rfl

/-- All that a step of an agent can do to the four. -/
theorem eventStep_control {e : Event} (h : eventStep e s = .next t) : SameControl s t ∨
    (∃ w, e = .host (.regWrite 0x0C w) ∧ ∃ ie, t = { s with ie := ie }) ∨
    (∃ w, e = .host (.regWrite 0x10 w) ∧ t = { s with inLen := w }) ∨
    (∃ a b, e = .host (.bufWrite .ibuf a b) ∧ ∃ m, t = s.setIbuf m) ∨ ∃ c, e = .reset c ∧ t = resetStep c s := by
  cases e with
  | engine => exact .inl (engineTurn_sameControl h)
  | reset c =>
    cases h
    exact .inr (.inr (.inr (.inr ⟨c, rfl, rfl⟩)))
  | host access =>
    obtain ⟨r, rfl⟩ | ⟨off, w, rfl, -, written⟩ | ⟨space, a, b, rfl, rfl⟩ := hostStep_next h
    · exact .inl ⟨rfl, rfl, rfl, rfl⟩
    · obtain ⟨-, written⟩ | ⟨rfl, rfl⟩ | ⟨rfl, -, rfl⟩ | rfl := regWrite_next written
      · exact .inl (cmdWrite_sameControl written)
      · exact .inr (.inl ⟨w, rfl, _, rfl⟩)
      · exact .inr (.inr (.inl ⟨w, rfl, rfl⟩))
      · exact .inl (.refl _)
    · obtain same | ⟨rfl, -, same⟩ := bufWrite_cases s space a b <;> rw [same]
      · exact .inl (.refl _)
      · exact .inr (.inr (.inr (.inl ⟨a, b, rfl, _, rfl⟩)))

/-- Settles O20: the ENGINE and the commands write none of the four, and the other HOST steps one each at most. -/
theorem onlyTheHostAndResetChangeInputAndControl : Obligations.OnlyTheHostAndResetChangeInputAndControl := by
  intro s t h
  obtain ⟨e, rest, taken, scheduled⟩ := step_eq_eventStep s
  rw [taken] at h
  have scheduled (other : e ≠ .engine) : s.schedule = e :: rest := scheduled.resolve_right fun nothing => other nothing.2.1
  obtain same | ⟨w, rfl, ie, rfl⟩ | ⟨w, rfl, rfl⟩ | ⟨a, b, rfl, m, rfl⟩ | ⟨c, rfl, rfl⟩ := eventStep_control h
  · exact ⟨same.params, fun ne => absurd same.ie ne, fun ne => absurd same.inLen ne, fun ne => absurd same.ibuf ne⟩
  · exact ⟨rfl, fun _ => ⟨rest, .inl ⟨w, scheduled nofun⟩⟩, fun ne => absurd rfl ne, fun ne => absurd rfl ne⟩
  · exact ⟨rfl, fun ne => absurd rfl ne, fun _ => ⟨rest, .inl ⟨w, scheduled nofun⟩⟩, fun ne => absurd rfl ne⟩
  · exact ⟨rfl, fun ne => absurd rfl ne, fun ne => absurd rfl ne, fun _ => ⟨rest, .inl ⟨a, b, scheduled nofun⟩⟩⟩
  · have byReset := scheduled nofun
    exact ⟨rfl, fun _ => ⟨rest, .inr ⟨c, byReset⟩⟩, fun _ => ⟨rest, .inr ⟨c, byReset⟩⟩,
      fun _ => ⟨rest, .inr ⟨c, byReset⟩⟩⟩

end Sys2Proof.Machine
end

section
/-! PROOFS. The invariant of the registers and buffers (10_state.md R24, R27, R31, R42) holds at reset and every step of any
agent keeps it. -/

namespace Sys2Proof.Machine

variable {s t : State}

/-- ERRCODE holds 1 to 8 after an error (60_exceptions.md R170). -/
theorem ErrorCode.code_range (e : ErrorCode) : e.code ≠ 0 ∧ e.code.toNat ≤ 8 := by
  cases e <;> decide

/-! ### What each update of the state keeps -/

namespace Inv

variable (h : Inv s)
include h

theorem withHost (ie : Bool) (replies : List Reply) (schedule : List Event) : Inv (s.withHost ie replies schedule) :=
  ⟨h.params, h.oneFlag, h.phaseBusy, h.phaseSet, h.phaseErr, h.errcode, h.outLenClear, h.outLenRange, h.ibuf, h.obuf,
    h.artifactFits, h.totalSet⟩

theorem withInLen (w : Word) : Inv { s with inLen := w } :=
  ⟨h.params, h.oneFlag, h.phaseBusy, h.phaseSet, h.phaseErr, h.errcode, h.outLenClear, h.outLenRange, h.ibuf, h.obuf,
    h.artifactFits, h.totalSet⟩

theorem setIbuf {m : Memory} (wf : Memory.wf m = true) (within : Memory.within m s.params.ibufSize.toNat = true) :
    Inv (s.setIbuf m) :=
  ⟨h.params, h.oneFlag, h.phaseBusy, h.phaseSet, h.phaseErr, h.errcode, h.outLenClear, h.outLenRange, ⟨wf, within⟩, h.obuf,
    h.artifactFits, h.totalSet⟩

theorem setObuf {m : Memory} (wf : Memory.wf m = true) (within : Memory.within m s.params.obufSize.toNat = true) :
    Inv (s.setObuf m) :=
  ⟨h.params, h.oneFlag, h.phaseBusy, h.phaseSet, h.phaseErr, h.errcode, h.outLenClear, h.outLenRange, h.ibuf, ⟨wf, within⟩,
    h.artifactFits, h.totalSet⟩

/-- Bytes written inside OBUF keep it canonical. -/
theorem putObuf {base : Nat} {bytes : List Byte} (room : bytes.length = 0 ∨ base + bytes.length ≤ s.params.obufSize.toNat) :
    Inv (s.setObuf (memWriteRun s.obuf base bytes)) :=
  h.setObuf (Memory.wf_memWriteRun _ _ h.obuf.1) (Memory.within_memWriteRun _ h.obuf.2 room)

omit h in
theorem resetStep (params : s.params.wellFormed = true) (c : ResetContents) : Inv (resetStep c s) where
  params := params
  oneFlag := by simp [Machine.resetStep]
  phaseBusy := nofun
  phaseSet := fun ne => absurd rfl ne
  phaseErr := nofun
  errcode := by simp [Machine.resetStep]
  outLenClear := fun _ => rfl
  outLenRange := ⟨Nat.zero_le _, nofun⟩
  ibuf := memOfCells_wf _ _
  obuf := memOfCells_wf _ _
  artifactFits := nofun
  totalSet := nofun

/-! ### Commands -/

theorem idleClear (idle : s.busy = false) : Inv (s.prologue.setPhase 0) where
  params := h.params
  oneFlag := by simp [idle]
  phaseBusy := fun busy => absurd (idle.symm.trans busy) Bool.false_ne_true
  phaseSet := fun ne => absurd rfl ne
  phaseErr := nofun
  errcode := by simp
  outLenClear := fun flag => by simp [idle] at flag
  outLenRange := ⟨h.outLenRange.1, nofun⟩
  ibuf := h.ibuf
  obuf := h.obuf
  artifactFits := fun _ => by simp
  totalSet := fun _ => by simp

theorem startAt {p : BitVec 4} (first : p = 1 ∨ p = 8) : Inv (s.prologue.startAt p) where
  params := h.params
  oneFlag := by simp
  phaseBusy := fun _ => by obtain rfl | rfl := first <;> simp [stageCodes]
  phaseSet := fun _ => .inl rfl
  phaseErr := nofun
  errcode := by simp
  outLenClear := fun _ => rfl
  outLenRange := ⟨Nat.zero_le _, nofun⟩
  ibuf := h.ibuf
  obuf := h.obuf
  artifactFits := fun _ => by obtain rfl | rfl := first <;> simp
  totalSet := fun _ => by obtain rfl | rfl := first <;> simp

theorem rejectCommand (idle : s.busy = false) : Inv s.prologue.rejectCommand where
  params := h.params
  oneFlag := by simp [idle]
  phaseBusy := fun busy => absurd (idle.symm.trans busy) Bool.false_ne_true
  phaseSet := fun ne => absurd rfl ne
  phaseErr := fun _ => by simp [failingPhases]
  errcode := by simp
  outLenClear := fun _ => rfl
  outLenRange := ⟨Nat.zero_le _, fun done => by simp at done⟩
  ibuf := h.ibuf
  obuf := h.obuf
  artifactFits := fun _ => by simp
  totalSet := fun _ => by simp

theorem cmdWrite {w : Word} (written : cmdWrite w s = .next t) : Inv t := by
  obtain rfl | ⟨idle, rfl | rfl | rfl | rfl⟩ := cmdWrite_cases written
  · exact h
  · exact h.idleClear idle
  · exact h.startAt (.inl rfl)
  · exact h.startAt (.inr rfl)
  · exact h.rejectCommand idle

/-! ### The ends of a stage -/

variable (busy : s.busy = true)
include busy

theorem done_of_busy : s.done = false := Bool.eq_false_iff.2 fun done => h.oneFlag.1 ⟨busy, done⟩

theorem err_of_busy : s.err = false := Bool.eq_false_iff.2 fun err => h.oneFlag.2.1 ⟨busy, err⟩

theorem raise (failing : s.phase ∈ failingPhases) (w : Work) (e : ErrorCode) : Inv ((s.setWork w).raise e) where
  params := h.params
  oneFlag := by simp [h.done_of_busy busy]
  phaseBusy := nofun
  phaseSet := fun _ => .inr rfl
  phaseErr := fun _ => failing
  errcode := ⟨iff_of_false e.code_range.1 nofun, e.code_range.2⟩
  outLenClear := fun _ => h.outLenClear (.inl busy)
  outLenRange := ⟨h.outLenRange.1, fun done => absurd ((h.done_of_busy busy).symm.trans done) Bool.false_ne_true⟩
  ibuf := h.ibuf
  obuf := h.obuf
  artifactFits := nofun
  totalSet := nofun

theorem advance {w : Work} {p : BitVec 4} (stage : p ∈ stageCodes)
    (fits : p = 5 ∨ p = 6 → 1 ≤ w.hdrLen.toNat ∧ w.hdrLen.toNat + w.payloadLen.toNat ≤ s.params.obufSize.toNat)
    (total : p = 9 ∨ p = 10 → w.total ≠ 0) : Inv ((s.setWork w).setPhase p) where
  params := h.params
  oneFlag := h.oneFlag
  phaseBusy := fun _ => stage
  phaseSet := fun _ => .inl busy
  phaseErr := fun err => absurd ((h.err_of_busy busy).symm.trans err) Bool.false_ne_true
  errcode := h.errcode
  outLenClear := h.outLenClear
  outLenRange := h.outLenRange
  ibuf := h.ibuf
  obuf := h.obuf
  artifactFits := fun _ => fits
  totalSet := fun _ => total

theorem complete {n : Nat} (positive : 1 ≤ n) (room : n ≤ s.params.obufSize.toNat) : Inv (s.complete n) := by
  have outLen : (fit 32 n).toNat = n := fit_toNat (room.trans_lt s.params.obufSize.isLt)
  have nonzero : fit 32 n ≠ 0 := fun zero => by
    have := congrArg BitVec.toNat zero
    rw [outLen] at this
    exact absurd this (Nat.ne_of_gt positive)
  exact {
    params := h.params
    oneFlag := by simp [h.err_of_busy busy]
    phaseBusy := nofun
    phaseSet := fun ne => absurd rfl ne
    phaseErr := fun err => absurd ((h.err_of_busy busy).symm.trans err) Bool.false_ne_true
    errcode := h.errcode
    outLenClear := fun flag => by simp [h.err_of_busy busy] at flag
    outLenRange := ⟨BitVec.le_def.2 (outLen.le.trans room), fun _ => nonzero⟩
    ibuf := h.ibuf
    obuf := h.obuf
    artifactFits := nofun
    totalSet := nofun }

end Inv

/-! ### The stages -/

theorem measure_hdrLen_pos (w : Work) (inLen : Word) (input : List Byte) : 1 ≤ (measure w inLen input).hdrLen.toNat := by
  rw [measure_hdrLen, headerLen]
  omega

/-- Of a header that is read the count is at least 1 (42_decoder_stages.md R151). -/
theorem total_ne_zero_of_readHeader {w v : Work} {bs rest : List Byte} (read : readHeader bs.length w bs = (v, some rest)) :
    v.total ≠ 0 := by
  obtain ⟨header, wf, rfl⟩ := exists_header_of_readHeader read
  rw [readHeader_toBytes wf] at read
  cases read
  have ⟨_, _, _, _, positive, bound, _⟩ := wf
  intro zero
  have := congrArg BitVec.toNat zero
  rw [Header.parsed_eq, fit_toNat bound] at this
  exact absurd this (Nat.ne_of_gt positive)

theorem Inv.exec_stage {i : Instr} (h : Inv s) (busy : s.busy = true) (stage : isStage i = true) (phase : stageCode i = s.phase)
    (executed : exec i s = .next t) : Inv t := by
  have failing (listed : stageCode i ∈ failingPhases) (w : Work) (e : ErrorCode) : Inv ((s.setWork w).raise e) :=
    h.raise busy (phase ▸ listed) w e
  cases i with
  | clr | encode | decode => cases stage
  | eFreq =>
    obtain ⟨-, rfl⟩ | ⟨-, -, rfl⟩ | ⟨-, -, rfl⟩ := execEFreq_next executed
    · exact failing (by decide) s.work _
    · exact failing (by decide) s.work _
    · exact h.advance busy (by decide) (by simp) (by simp)
  | eBuild =>
    obtain ⟨-, rfl⟩ | ⟨-, -, rfl⟩ := execEBuild_next executed
    · exact failing (by decide) s.work _
    · exact h.advance busy (by decide) (by simp) (by simp)
  | eCodes =>
    obtain ⟨w, -, rfl⟩ := execECodes_next executed
    exact h.advance busy (by decide) (by simp) (by simp)
  | eMeasure =>
    obtain ⟨-, w, measured, ⟨-, rfl⟩ | ⟨room, rfl⟩⟩ := execEMeasure_next executed
    · exact failing (by decide) w _
    · exact h.advance busy (by decide) (fun _ => ⟨measured ▸ measure_hdrLen_pos _ _ _, room⟩) (by simp)
  | eHeader =>
    obtain ⟨room, rfl⟩ := execEHeader_next executed
    have put : Inv (s.setObuf (memWriteRun s.obuf 0 (headerBytes s.work))) := h.putObuf (.inr (by omega))
    exact put.advance busy (w := s.work) (by decide) (fun _ => h.artifactFits busy (.inl phase.symm)) (by simp)
  | ePack =>
    obtain ⟨-, room, rfl⟩ := execEPack_next executed
    obtain ⟨positive, fits⟩ := h.artifactFits busy (.inr phase.symm)
    have put : Inv (s.setObuf (memWriteRun s.obuf s.work.hdrLen.toNat (payloadBytes s.work (inputBytes s)))) :=
      h.putObuf (by rwa [payloadBytes_length])
    exact put.complete busy (by omega) fits
  | dHeader =>
    obtain ⟨-, rfl⟩ | ⟨-, w, ⟨-, rfl⟩ | ⟨rest, read, rfl⟩⟩ := execDHeader_next executed
    · exact failing (by decide) s.work _
    · exact failing (by decide) w _
    · rw [← inputBytes_length] at read
      exact h.advance busy (by decide) (by simp) fun _ => total_ne_zero_of_readHeader read
  | dTable =>
    obtain ⟨-, rfl⟩ | ⟨-, rfl⟩ := execDTable_next executed
    · exact failing (by decide) s.work _
    · exact h.advance busy (w := s.work) (by decide) (by simp) fun _ => h.totalSet busy (.inl phase.symm)
  | dWalk =>
    obtain ⟨-, rfl⟩ | ⟨fits, ⟨-, -, rfl⟩ | ⟨-, rfl⟩ | ⟨out, -, room, rfl⟩⟩ := execDWalk_next executed
    · exact failing (by decide) s.work _
    · exact failing (by decide) s.work _
    · exact failing (by decide) s.work _
    · have positive : 1 ≤ s.work.total.toNat :=
        Nat.pos_of_ne_zero fun zero => h.totalSet busy (.inr phase.symm) (BitVec.eq_of_toNat_eq zero)
      have put : Inv (s.setObuf (memWriteRun s.obuf 0 out)) := h.putObuf (by simpa using room)
      exact put.complete busy positive fits

/-! ### The agents -/

theorem Inv.engineTurn (h : Inv s) (turn : engineTurn s = .next t) : Inv t := by
  obtain ⟨-, rfl⟩ | ⟨busy, i, selected, executed⟩ := engineTurn_next turn
  · exact h
  · exact h.exec_stage busy (isStage_of_decodePhase selected) (stageCode_of_decodePhase selected) executed

theorem Inv.hostStep {access : HostStep} (h : Inv s) (taken : hostStep access s = .next t) : Inv t := by
  obtain ⟨r, rfl⟩ | ⟨off, w, -, -, written⟩ | ⟨space, a, b, -, rfl⟩ := hostStep_next taken
  · exact h.withHost s.ie (r :: s.replies) s.schedule
  · obtain ⟨-, written⟩ | ⟨-, rfl⟩ | ⟨-, -, rfl⟩ | rfl := regWrite_next written
    · exact h.cmdWrite written
    · exact h.withHost _ s.replies s.schedule
    · exact h.withInLen w
    · exact h
  · obtain same | ⟨-, inside, same⟩ := bufWrite_cases s space a b <;> rw [same]
    · exact h
    · exact h.setIbuf (Memory.wf_memWrite _ _ h.ibuf.1) (Memory.within_memWrite _ h.ibuf.2 inside)

theorem Inv.eventStep {e : Event} (h : Inv s) (taken : eventStep e s = .next t) : Inv t := by
  cases e with
  | engine => exact h.engineTurn taken
  | host access => exact h.hostStep taken
  | reset c =>
    cases taken
    exact .resetStep h.params c

/-- Settles O53, agent by agent and stage by stage. -/
theorem everyStepKeepsTheInvariant : Obligations.EveryStepKeepsTheInvariant := by
  intro s t h taken
  obtain ⟨e, rest, same, -⟩ := step_eq_eventStep s
  exact (h.withHost s.ie s.replies rest).eventStep (same ▸ taken)

end Sys2Proof.Machine
end

section
/-! PROOFS. The ENGINE is never stuck (40_commands.md R115, 20_memory.md R65): each stage finds what the one before it left. -/

namespace Sys2Proof.Machine

variable {s t : State}

/-! ### Live states -/

/-- Between commands, and before the first stage of one, there is nothing to find. -/
theorem Inv.live (h : Inv s) (first : s.busy = true → s.phase = 1 ∨ s.phase = 8) : Live s where
  toInv := h
  inRange busy ne ne' := ((first busy).elim ne ne').elim
  counted busy phase := absurd (first busy) (by simp [phase])
  treeBuilt busy phase := absurd (first busy) (by simp [phase])
  measured busy phase := absurd (first busy) (by simp [phase])

theorem Inv.live_of_idle (h : Inv s) (idle : s.busy = false) : Live s :=
  h.live fun busy => absurd (idle.symm.trans busy) Bool.false_ne_true

/-- Behind the first stages only those at PHASE 2, 3 and 5 find more than an input in range. -/
theorem Inv.live_of_range (h : Inv s) (range : s.inLen ≤ s.params.ibufSize) (other : s.phase ∉ ([2, 3, 5] : List (BitVec 4))) :
    Live s where
  toInv := h
  inRange _ _ _ := range
  counted _ phase := absurd (by simp [phase]) other
  treeBuilt _ phase := absurd (by simp [phase]) other
  measured _ phase := absurd (by simp [phase]) other

theorem Live.withHost (h : Live s) (ie : Bool) (replies : List Reply) (schedule : List Event) :
    Live (s.withHost ie replies schedule) :=
  ⟨h.toInv.withHost ie replies schedule, h.inRange, h.counted, h.treeBuilt, h.measured⟩

/-- The working state E_BUILD finds, beside the counts (41_encoder_stages.md R131). -/
theorem Live.toCounted (h : Live s) (busy : s.busy = true) (phase : s.phase = 2) : Counted s.work := by
  obtain ⟨nsym, positive⟩ := h.counted busy phase
  exact ⟨nsym, positive⟩

/-! ### The stages -/

theorem Counted.few {w : Work} (h : Counted w) : w.nsym.toNat ≤ 256 := h.nsym ▸ symbolsIn_length_le _

/-- D_WALK takes its step wherever the input lies in IBUF. -/
theorem exists_execDWalk (range : s.inLen ≤ s.params.ibufSize) : ∃ t, execDWalk s = .next t := by
  by_cases overflow : s.params.obufSize < s.work.total
  · exact ⟨_, if_pos overflow⟩
  · have room := BitVec.not_lt.1 overflow
    cases walked : walk s.work (dataBits s) [] s.work.total.toNat with
    | recovered out => exact ⟨_, execDWalk_of_recovered room walked (walk_recovered_length _ walked)⟩
    | truncated => exact ⟨_, execDWalk_of_truncated room range walked⟩
    | invalid => exact ⟨_, by rw [execDWalk, if_neg overflow, walked]⟩

theorem Live.exec_stage {i : Instr} (h : Live s) (busy : s.busy = true) (stage : isStage i = true)
    (phase : stageCode i = s.phase) : ∃ t, exec i s = .next t ∧ Live t := by
  have keeps {t : State} (executed : exec i s = .next t) : Inv t := h.toInv.exec_stage busy stage phase executed
  have range (later : stageCode i ≠ 1 ∧ stageCode i ≠ 8) : s.inLen ≤ s.params.ibufSize :=
    h.inRange busy (phase ▸ later.1) (phase ▸ later.2)
  have stops {t : State} (executed : exec i s = .next t) (idle : t.busy = false) : ∃ t, exec i s = .next t ∧ Live t :=
    ⟨t, executed, (keeps executed).live_of_idle idle⟩
  cases i with
  | clr | encode | decode => cases stage
  | eFreq =>
    by_cases outside : s.params.ibufSize < s.inLen
    · exact stops (execEFreq_of_outside outside) rfl
    have inside := BitVec.not_lt.1 outside
    by_cases empty : s.inLen = 0
    · exact stops (execEFreq_of_empty inside empty) rfl
    have executed := execEFreq_of_range inside empty
    exact ⟨_, executed, { toInv := keeps executed
                          inRange := fun _ _ _ => inside
                          counted := fun _ _ => ⟨frequencies_nsym _ _, one_le_frequencies_nsym _ (inputBytes_ne_nil empty)⟩
                          treeBuilt := fun _ => by simp
                          measured := fun _ => by simp }⟩
  | eBuild =>
    cases counts : zeroWeight s.work with
    | true => exact stops (execEBuild_of_zero counts) rfl
    | false =>
      have counted := h.toCounted busy phase.symm
      have executed := execEBuild_of_counts counts counted.few
      obtain ⟨tree, -, -, height, -, built⟩ := exists_buildTree counted
      exact ⟨_, executed, { toInv := keeps executed
                            inRange := fun _ _ _ => range (by decide)
                            counted := fun _ => by simp
                            treeBuilt := fun _ _ => ⟨tree, height, built s.work ⟨rfl, rfl, rfl⟩⟩
                            measured := fun _ => by simp }⟩
  | eCodes =>
    obtain ⟨tree, height, represented⟩ := h.treeBuilt busy phase.symm
    have executed := execECodes_of_represents represented height
    exact ⟨_, executed, (keeps executed).live_of_range (range (by decide)) (by simp)⟩
  | eMeasure =>
    have inside := range (by decide)
    by_cases room : (measure s.work s.inLen (inputBytes s)).hdrLen.toNat +
        (measure s.work s.inLen (inputBytes s)).payloadLen.toNat ≤ s.params.obufSize.toNat
    · have executed := execEMeasure_of_room inside rfl room
      exact ⟨_, executed, { toInv := keeps executed
                            inRange := fun _ _ _ => inside
                            counted := fun _ => by simp
                            treeBuilt := fun _ => by simp
                            measured := fun _ _ => headerBytes_measure_length _ _ _ }⟩
    · exact stops (execEMeasure_of_overflow inside rfl (Nat.not_le.1 room)) rfl
  | eHeader =>
    obtain ⟨-, room⟩ := h.artifactFits busy (.inl phase.symm)
    have header := h.measured busy phase.symm
    have executed := execEHeader_of_room (s := s) (by omega)
    exact ⟨_, executed, (keeps executed).live_of_range (range (by decide)) (by simp)⟩
  | ePack => exact stops (execEPack_of_room (range (by decide)) (h.artifactFits busy (.inr phase.symm)).2) rfl
  | dHeader =>
    by_cases outside : s.params.ibufSize < s.inLen
    · exact stops (if_pos outside) rfl
    have inside := BitVec.not_lt.1 outside
    cases read : readHeader s.inLen.toNat s.work (inputBytes s) with
    | mk w rest =>
      cases rest with
      | none => exact stops (t := (s.setWork w).raise .corruptHeader) (by rw [exec, execDHeader, if_neg outside, read]) rfl
      | some rest =>
        have executed := execDHeader_of_read inside read
        exact ⟨_, executed, (keeps executed).live_of_range inside (by simp)⟩
  | dTable =>
    cases clash : prefixClash s.work with
    | true => exact stops (if_pos clash) rfl
    | false =>
      have executed := execDTable_of_prefixFree ((prefixClash_eq_false_iff _).1 clash)
      exact ⟨_, executed, (keeps executed).live_of_range (range (by decide)) (by simp)⟩
  | dWalk =>
    obtain ⟨t, executed⟩ := exists_execDWalk (range (by decide))
    have idle : t.busy = false := by
      obtain ⟨-, rfl⟩ | ⟨-, ⟨-, -, rfl⟩ | ⟨-, rfl⟩ | ⟨out, -, -, rfl⟩⟩ := execDWalk_next executed <;> rfl
    exact stops executed idle

/-! ### The agents -/

theorem decodePhase_of_stageCodes : ∀ p : BitVec 4, p ∈ stageCodes → (decodePhase p).toOption.isSome = true := by
  decide

/-- While a command runs PHASE selects a stage (10_state.md R31). -/
theorem Inv.exists_stage (h : Inv s) (busy : s.busy = true) : ∃ i, decodePhase s.phase = .ok i := by
  have selects := decodePhase_of_stageCodes s.phase (h.phaseBusy busy)
  cases selected : decodePhase s.phase with
  | ok i => exact ⟨i, rfl⟩
  | error r => simp [selected, Except.toOption] at selects

theorem Live.engineTurn (h : Live s) : ∃ t, engineTurn s = .next t ∧ Live t := by
  cases busy : s.busy with
  | false => exact ⟨s, engineTurn_of_idle busy, h⟩
  | true =>
    obtain ⟨i, selected⟩ := h.exists_stage busy
    rw [engineTurn_of_select busy selected]
    exact h.exec_stage busy (isStage_of_decodePhase selected) (stageCode_of_decodePhase selected)

/-- No register write stops the machine. -/
theorem exists_regWrite (s : State) (off w : Word) : ∃ t, regWrite s off w = .next t := by
  unfold regWrite
  obtain ⟨effect, accepted⟩ := cmdWrite_eq_accept w s
  split_ifs
  · exact ⟨_, rfl⟩
  · exact ⟨_, accepted⟩
  · exact ⟨_, rfl⟩
  · exact ⟨_, rfl⟩
  · exact ⟨_, rfl⟩

/-- With BUSY = 0 a HOST step that exists is taken, and if a command runs afterwards it is at its first stage. -/
theorem exists_hostStep_of_idle (idle : s.busy = false) {access : HostStep} (wf : access.wellFormed = true) :
    ∃ t, hostStep access s = .next t ∧ (t.busy = true → t.phase = 1 ∨ t.phase = 8) := by
  have stays {t : State} (same : t.busy = s.busy) : t.busy = true → t.phase = 1 ∨ t.phase = 8 := fun busy =>
    absurd ((same.trans idle).symm.trans busy) Bool.false_ne_true
  cases access with
  | regRead off => exact ⟨_, hostStep_regRead (alignedOffset_iff.1 wf) s, stays rfl⟩
  | bufRead space a => exact ⟨_, hostStep_bufRead space a s, stays rfl⟩
  | bufWrite space a b =>
    refine ⟨_, hostStep_bufWrite space a b s, stays ?_⟩
    obtain same | ⟨-, -, same⟩ := bufWrite_cases s space a b <;> rw [same]
    rfl
  | regWrite off w =>
    rw [hostStep_regWrite (alignedOffset_iff.1 wf)]
    obtain ⟨t, written⟩ := exists_regWrite s off w
    refine ⟨t, written, ?_⟩
    obtain ⟨-, written⟩ | ⟨-, rfl⟩ | ⟨-, -, rfl⟩ | rfl := regWrite_next written
    · obtain rfl | ⟨-, rfl | rfl | rfl | rfl⟩ := cmdWrite_cases written
      · exact stays rfl
      · exact stays rfl
      · exact fun _ => .inl rfl
      · exact fun _ => .inr rfl
      · exact stays rfl
    · exact stays rfl
    · exact stays rfl
    · exact stays rfl

theorem Live.hostStep (h : Live s) {access : HostStep} (wf : access.wellFormed = true) :
    ∃ t, hostStep access s = .next t ∧ Live t := by
  cases busy : s.busy with
  | true =>
    obtain ⟨ie, replies, taken⟩ := hostStep_of_busy busy wf
    exact ⟨_, taken, h.withHost ie replies s.schedule⟩
  | false =>
    obtain ⟨t, taken, first⟩ := exists_hostStep_of_idle busy wf
    exact ⟨t, taken, (h.toInv.hostStep taken).live first⟩

/-- Settles O54, agent by agent and stage by stage. -/
theorem noStepIsEverStuck : Obligations.NoStepIsEverStuck := by
  intro s h wf
  obtain ⟨e, rest, taken, scheduled⟩ := step_eq_eventStep s
  have live : Live { s with schedule := rest } := h.withHost s.ie s.replies rest
  rw [taken]
  cases e with
  | engine => exact live.engineTurn
  | host access =>
    have mem : s.schedule = .host access :: rest := scheduled.resolve_right fun nothing => nomatch nothing.2.1
    exact live.hostStep (wf (.host access) (by rw [mem]; exact List.mem_cons_self))
  | reset c => exact ⟨_, rfl, (Inv.resetStep (s := { s with schedule := rest }) h.params c).live_of_idle rfl⟩

/-- Settles O52: the registers are 0 and the buffers list nothing. -/
theorem invariantsHoldAtReset : Obligations.InvariantsHoldAtReset := by
  have inv : Inv State.reset := Inv.resetStep (s := State.reset) (by decide) ⟨[], [], Work.zero⟩
  exact ⟨inv, inv.live_of_idle rfl⟩

end Sys2Proof.Machine
end

section
/-! PROOFS. A command ends within its stages (70_reset_and_hazards.md R200), by the ENGINE's turns alone and under every
interleaving. -/

namespace Sys2Proof.Machine

variable {s t : State}

/-! ### Turns left -/

/-- How many stages of a command are still to run at PHASE `p` (40_commands.md R116). -/
def turnsLeft (p : BitVec 4) : Nat := (if p.toNat < 8 then 7 else 11) - p.toNat

theorem turnsLeft_pos : ∀ p : BitVec 4, p ∈ stageCodes → 1 ≤ turnsLeft p := by
  decide

theorem turnsLeft_next : ∀ p : BitVec 4, p ∈ stageCodes → turnsLeft (p + 1) + 1 = turnsLeft p := by
  decide

theorem turnsLeft_le : ∀ p : BitVec 4, p ∈ stageCodes → turnsLeft p ≤ if p.toNat < 8 then 6 else 3 := by
  decide

/-- A command has ended, done or error-stopped. -/
def Finished (t : State) : Prop := t.busy = false ∧ t.done = !t.err

/-- A turn of the ENGINE ends the command or leaves one stage less to run. -/
theorem Live.exists_turn (h : Live s) (busy : s.busy = true) : ∃ t, Machine.engineTurn s = .next t ∧ Live t ∧
    t.schedule = s.schedule ∧ (Finished t ∨ t.busy = true ∧ turnsLeft t.phase + 1 = turnsLeft s.phase) := by
  obtain ⟨i, selected⟩ := h.exists_stage busy
  obtain ⟨t, turn, live⟩ := h.engineTurn
  have executed := (engineTurn_of_select busy selected).symm.trans turn
  refine ⟨t, turn, live, ?_⟩
  obtain ⟨w, e, rfl⟩ | ⟨w, m, rfl⟩ | ⟨m, n, rfl⟩ := exec_stage_next (isStage_of_decodePhase selected) executed
  · exact ⟨rfl, .inl ⟨rfl, h.done_of_busy busy⟩⟩
  · rw [stageCode_of_decodePhase selected]
    exact ⟨rfl, .inr ⟨busy, turnsLeft_next _ (h.phaseBusy busy)⟩⟩
  · refine ⟨rfl, .inl ⟨rfl, ?_⟩⟩
    rw [State.complete_err, State.setObuf_err, h.err_of_busy busy]
    rfl

/-! ### Runs -/

theorem run_succ {u : State} (taken : step s = .next u) (n : Nat) : core.run (n + 1) s = core.run n u := by
  have taken : core.step s = .next u := taken
  simp only [Host.Core.run, taken]

theorem step_of_nothing (nothing : s.schedule = []) : step s = engineTurn s := by
  rw [step, systemStep, nothing]

/-- Between commands a run with nothing scheduled stays where it is. -/
theorem run_of_idle (idle : s.busy = false) (nothing : s.schedule = []) : ∀ n, core.run n s = .next s
  | 0 => rfl
  | n + 1 => by
    rw [run_succ ((step_of_nothing nothing).trans (engineTurn_of_idle idle)), run_of_idle idle nothing n]

/-- With nothing scheduled a running command ends within the turns left. -/
theorem Live.run_finishes {n : Nat} : ∀ {s : State}, Live s → s.busy = true → s.schedule = [] → turnsLeft s.phase ≤ n →
    ∃ t, core.run n s = .next t ∧ Finished t := by
  induction n with
  | zero =>
    intro s h busy _ enough
    have := turnsLeft_pos _ (h.phaseBusy busy)
    omega
  | succ n ih =>
    intro s h busy nothing enough
    obtain ⟨u, turn, live, schedule, ends⟩ := h.exists_turn busy
    rw [run_succ ((step_of_nothing nothing).trans turn)]
    obtain finished | ⟨busy, left⟩ := ends
    · exact ⟨u, run_of_idle finished.1 (schedule.trans nothing) n, finished⟩
    · exact ih live busy (schedule.trans nothing) (by omega)

/-- Settles O55: ENCODE starts with six stages to run and DECODE with three. -/
theorem commandsEndWithinTheirStages : Obligations.CommandsEndWithinTheirStages := by
  intro s h idle
  have idleRest : ({ s with schedule := [] } : State).busy = false := idle
  have inv : Inv { s with schedule := [] } := h.withHost s.ie s.replies []
  constructor
  · rw [State.commanded, run_succ ((step_cmdWrite s _ []).trans ((cmdWrite_encode _).trans (execEncode_of_idle idleRest)))]
    exact ((inv.startAt (.inl rfl)).live fun _ => .inl rfl).run_finishes rfl rfl (show turnsLeft 1 ≤ 6 by decide)
  · rw [State.commanded, run_succ ((step_cmdWrite s _ []).trans ((cmdWrite_decode _).trans (execDecode_of_idle idleRest)))]
    exact ((inv.startAt (.inr rfl)).live fun _ => .inr rfl).run_finishes rfl rfl (show turnsLeft 8 ≤ 3 by decide)

/-- Under an interleaving with as many turns of the ENGINE as stages are left a running command ends. -/
theorem Live.interleaving_finishes (events : List Event) : ∀ {s : State}, Live s → s.busy = true → Interleaving events →
    turnsLeft s.phase ≤ (events.filter fun e => decide (e = .engine)).length →
    ∃ (j : Nat) (t : State), j ≤ events.length ∧ core.run j { s with schedule := events } = .next t ∧ Finished t := by
  induction events with
  | nil =>
    intro s h busy _ enough
    have := turnsLeft_pos _ (h.phaseBusy busy)
    simp only [List.filter_nil, List.length_nil] at enough
    omega
  | cons e events ih =>
    intro s h busy all enough
    obtain ⟨rfl | ⟨access, rfl, wf⟩, interleaved⟩ := interleaving_cons.1 all
    · have live : Live { s with schedule := events } := h.withHost s.ie s.replies events
      obtain ⟨u, turn, liveU, schedule, ends⟩ := live.exists_turn busy
      have run : ∀ j, core.run (j + 1) { s with schedule := .engine :: events } = core.run j u :=
        run_succ ((step_engine s events).trans turn)
      obtain finished | ⟨busyU, left⟩ := ends
      · exact ⟨1, u, by simp, run 0, finished⟩
      · have left : turnsLeft u.phase + 1 = turnsLeft s.phase := left
        obtain ⟨j, t, bound, rest, finished⟩ := ih liveU busyU interleaved (by simp at enough; omega)
        have same : ({ u with schedule := events } : State) = u := by rw [← show u.schedule = events from schedule]
        exact ⟨j + 1, t, Nat.succ_le_succ bound, (run j).trans (same ▸ rest), finished⟩
    · obtain ⟨ie, replies, taken⟩ := hostStep_of_busy (s := { s with schedule := events }) busy wf
      have enough : turnsLeft s.phase ≤ (events.filter fun e => decide (e = .engine)).length := by simpa using enough
      obtain ⟨j, t, bound, rest, finished⟩ := ih (h.withHost ie replies events) busy interleaved enough
      exact ⟨j + 1, t, Nat.succ_le_succ bound, (run_succ ((step_host s access events).trans taken) j).trans rest, finished⟩

/-- Settles O56: each of the ENGINE's turns leaves one stage less to run, and HOST steps leave the command alone. -/
theorem everyInterleavingEndsTheCommand : Obligations.EveryInterleavingEndsTheCommand := by
  intro s events h busy interleaved enough
  exact h.interleaving_finishes events busy interleaved ((turnsLeft_le _ (h.phaseBusy busy)).trans enough)

end Sys2Proof.Machine
end

section
/-! PROOFS. What HOST steps show of themselves beside a running command (20_memory.md R66, R68), and the state that ENCODE leaves
in each of its outcomes under every interleaving (40_commands.md R119). -/

namespace Sys2Proof.Machine

/-! ### One HOST step beside a running command -/

/-- A HOST step that exists delivers the value of its read and changes IE by a write to CTRL only. -/
theorem hostStep_share_of_busy {s : State} (busy : s.busy = true) {h : HostStep} (wf : h.wellFormed = true) :
    ∃ ie delivered, hostStep h s = .next (s.withHost ie (delivered ++ s.replies) s.schedule) ∧
      (ie ≠ s.ie → ∃ w : Word, h = .regWrite 0x0C w) ∧
      delivered.length = ([Event.host h].filter Event.isRead).length := by
  cases h with
  | regRead off =>
    exact ⟨s.ie, [_], hostStep_regRead (alignedOffset_iff.1 wf) s, fun ne => absurd rfl ne, rfl⟩
  | regWrite off w =>
    rw [hostStep_regWrite (alignedOffset_iff.1 wf)]
    by_cases ctrl : off = 0x0C
    · subst ctrl
      exact ⟨_, [], regWrite_ctrl s w, fun _ => ⟨w, rfl⟩, rfl⟩
    · exact ⟨s.ie, [], regWrite_of_busy busy ctrl w, fun ne => absurd rfl ne, rfl⟩
  | bufRead space a => exact ⟨s.ie, [_], hostStep_bufRead space a s, fun ne => absurd rfl ne, rfl⟩
  | bufWrite space a b =>
    rw [hostStep_bufWrite, bufWrite_of_busy busy]
    exact ⟨s.ie, [], rfl, fun ne => absurd rfl ne, rfl⟩

/-- Settles O19, from what one HOST step shows of itself. -/
theorem hostStepsNeverDisturbARunningCommand : Obligations.HostStepsNeverDisturbARunningCommand := by
  intro s h rest busy wf
  obtain ⟨ie, delivered, taken, ctrl, length⟩ := hostStep_share_of_busy (s := { s with schedule := rest }) busy wf
  refine ⟨_, (step_host s h rest).trans taken, rfl, ctrl, fun changed => ?_⟩
  have one : ([Event.host h].filter Event.isRead).length ≤ 1 := List.length_filter_le _ _
  match delivered, length with
  | [], _ => exact absurd rfl changed
  | [v], _ => exact ⟨v, rfl⟩
  | _ :: _ :: _, length => exact absurd (length ▸ one) (by simp)

/-! ### All HOST steps of a run -/

theorem engineTurn_keeps_host {s t : State} (h : engineTurn s = .next t) :
    t.ie = s.ie ∧ t.replies = s.replies ∧ t.schedule = s.schedule := by
  obtain ⟨-, rfl⟩ | ⟨-, i, selected, executed⟩ := engineTurn_next h
  · exact ⟨rfl, rfl, rfl⟩
  · obtain ⟨w, e, rfl⟩ | ⟨w, m, rfl⟩ | ⟨m, n, rfl⟩ := exec_stage_next (isStage_of_decodePhase selected) executed <;>
      exact ⟨rfl, rfl, rfl⟩

/-- One more event in front of those a run has used. -/
theorem HostShare.cons {s u t : State} {e : Event} {events : List Event} {delivered : List Reply} (h : HostShare u t events)
    (ie : u.ie ≠ s.ie → ∃ w : Word, e = .host (.regWrite 0x0C w)) (replies : u.replies = delivered ++ s.replies)
    (length : delivered.length = ([e].filter Event.isRead).length) : HostShare s t (e :: events) := by
  obtain ⟨used, later, rfl, ieLater, repliesLater, lengthLater⟩ := h
  refine ⟨e :: used, later ++ delivered, rfl, fun changed => ?_, ?_, ?_⟩
  · by_cases same : t.ie = u.ie
    · obtain ⟨w, rfl⟩ := ie (same ▸ changed)
      exact ⟨w, List.mem_cons_self⟩
    · obtain ⟨w, mem⟩ := ieLater same
      exact ⟨w, List.mem_cons_of_mem _ mem⟩
  · rw [repliesLater, replies, List.append_assoc]
  · rw [← List.singleton_append, List.filter_append, List.length_append, List.length_append, lengthLater, length, Nat.add_comm]

/-- What the HOST's steps show up to the first state with BUSY = 0. -/
theorem EndsIn.hostShare {s t : State} (h : EndsIn s t) : Interleaving s.schedule → HostShare s t s.schedule := by
  induction h with
  | ended _ => exact fun _ => ⟨[], [], rfl, fun ne => absurd rfl ne, rfl, rfl⟩
  | @goesOn s u t busy next _ ih =>
    intro interleaved
    cases scheduled : s.schedule with
    | nil =>
      obtain ⟨ie, replies, schedule⟩ := engineTurn_keeps_host ((step_of_nothing scheduled).symm.trans next)
      rw [schedule, scheduled] at ih
      have share := ih interleaving_nil
      rwa [HostShare, ie, replies] at share
    | cons e events =>
      rw [scheduled, interleaving_cons] at interleaved
      have next : eventStep e { s with schedule := events } = .next u := by rwa [step, systemStep, scheduled] at next
      obtain ⟨rfl | ⟨access, rfl, wf⟩, interleaved⟩ := interleaved
      · obtain ⟨ie, replies, schedule⟩ := engineTurn_keeps_host next
        rw [show u.schedule = events from schedule] at ih
        exact (ih interleaved).cons (delivered := []) (fun ne => absurd ie ne) replies rfl
      · obtain ⟨ie, delivered, taken, ctrl, length⟩ :=
          hostStep_share_of_busy (s := { s with schedule := events }) busy wf
        obtain rfl := Host.Outcome.next.inj (next.symm.trans taken)
        exact (ih interleaved).cons (fun ne => (ctrl ne).imp fun w same => by rw [same]) rfl length

/-- A command ends as the ENGINE's turns alone end it, but for what HOST steps show of themselves. -/
theorem Starts.commandEnds_hostShare {s t : State} {word : Word} {p : BitVec 4} {events : List Event} (starts : Starts s word p)
    (ends : EngineEnds (s.prologue.startAt p) t) (interleaved : Interleaving events) : ∃ ie replies schedule,
      CommandEnds s word events (t.withHost ie replies schedule) ∧ HostShare s (t.withHost ie replies schedule) events := by
  obtain ⟨ie, replies, schedule, u, accepted, run⟩ := starts.commandEnds ends interleaved
  obtain rfl := Host.Outcome.next.inj ((starts events).symm.trans accepted)
  exact ⟨ie, replies, schedule, ⟨_, accepted, run⟩, run.hostShare interleaved⟩

/-! ### The states ENCODE passes through -/

theorem setPhase_setWork (u : State) (w v : Work) (p : BitVec 4) :
    ((u.setWork w).setPhase p).setWork v = (u.setWork v).setPhase p := rfl

theorem artifact_inputMeasured_length (tree : CodeTree) (w : Work) (inLen : Word) (input : List Byte) :
    (artifact (inputMeasured tree w inLen input) input).length =
      (inputMeasured tree w inLen input).hdrLen.toNat + (inputMeasured tree w inLen input).payloadLen.toNat :=
  artifact_measure_length _ _ _

section Stages

variable {u : State} (busy : u.busy = true) (phase : u.phase = 1)
include busy phase

theorem engineEnds_encode_outside (outside : u.params.ibufSize < u.inLen) : EngineEnds u (u.raise .inputRange) :=
  .stage (i := .eFreq) busy (by rw [phase]; rfl) (execEFreq_of_outside outside) (.ended rfl)

variable (range : u.inLen ≤ u.params.ibufSize)
include range

theorem engineEnds_encode_empty (empty : u.inLen = 0) : EngineEnds u (u.raise .emptyInput) :=
  .stage (i := .eFreq) busy (by rw [phase]; rfl) (execEFreq_of_empty range empty) (.ended rfl)

variable (nonempty : u.inLen ≠ 0) {tree : CodeTree} (built : InputTree (inputBytes u) tree)
include nonempty built

/-- The first three stages leave the input's code table. -/
theorem engineEnds_of_codes {t : State} (rest : EngineEnds ((u.setWork (inputCodes tree u.work (inputBytes u))).setPhase 4) t) :
    EngineEnds u t := by
  have counted : Counted (frequencies u.work (inputBytes u)) :=
    ⟨frequencies_nsym _ _, one_le_frequencies_nsym _ (inputBytes_ne_nil nonempty)⟩
  have freq := execEFreq_of_range range nonempty
  have build := execEBuild_of_counts (s := (u.setWork (frequencies u.work (inputBytes u))).setPhase 2)
    (zeroWeight_frequencies _ u.work (length_inputBytes_lt u)) counted.few
  have codes := execECodes_of_represents (s := (u.setWork (buildTree (frequencies u.work (inputBytes u)))).setPhase 3)
    (built.built u.work) built.height
  simp only [State.setPhase_work, State.setWork_work, setWork_setPhase_again] at build codes
  rw [inputCodes] at rest
  have busyAt (w : Work) (p : BitVec 4) : ((u.setWork w).setPhase p).busy = true := busy
  exact .stage (i := .eFreq) busy (by rw [phase]; rfl) freq
    (.stage (i := .eBuild) (busyAt _ 2) rfl build (.stage (i := .eCodes) (busyAt _ 3) rfl codes rest))

variable {w : Work} (measured : inputMeasured tree u.work u.inLen (inputBytes u) = w)
include measured

theorem engineEnds_encode_overflow (overflow : u.params.obufSize.toNat < w.hdrLen.toNat + w.payloadLen.toNat) :
    EngineEnds u (((u.setWork w).setPhase 4).raise .outputOverflow) := by
  have executed := execEMeasure_of_overflow (s := (u.setWork (inputCodes tree u.work (inputBytes u))).setPhase 4) range
    measured overflow
  rw [setPhase_setWork] at executed
  refine engineEnds_of_codes busy phase range nonempty built ?_
  exact .stage (i := .eMeasure) busy rfl executed (.ended rfl)

/-- The last three stages write the artifact. -/
theorem engineEnds_encode_artifact (room : w.hdrLen.toNat + w.payloadLen.toNat ≤ u.params.obufSize.toNat) :
    EngineEnds u (((u.setWork w).setObuf (memWriteRun u.obuf 0 (artifact w (inputBytes u)))).complete
      (w.hdrLen.toNat + w.payloadLen.toNat)) := by
  have header : (headerBytes w).length = w.hdrLen.toNat := by
    rw [← measured]
    exact headerBytes_measure_length _ _ _
  have measure := execEMeasure_of_room (s := (u.setWork (inputCodes tree u.work (inputBytes u))).setPhase 4) range
    measured room
  have writeHeader := execEHeader_of_room (s := (u.setWork w).setPhase 5)
    (header.le.trans ((Nat.le_add_right _ _).trans room))
  have pack : exec .ePack (((u.setWork w).setObuf (memWriteRun u.obuf 0 (headerBytes w))).setPhase 6) =
      .next (((u.setWork w).setObuf (memWriteRun u.obuf 0 (artifact w (inputBytes u)))).complete
        (w.hdrLen.toNat + w.payloadLen.toNat)) := by
    rw [artifact, memWriteRun_append, Nat.zero_add, header]
    exact execEPack_of_room range room
  refine engineEnds_of_codes busy phase range nonempty built ?_
  refine .stage (i := .eMeasure) busy rfl measure ?_
  refine .stage (i := .eHeader) busy rfl writeHeader ?_
  exact .stage (i := .ePack) busy rfl pack (.ended rfl)

end Stages

/-- Settles O57: the ENGINE's turns alone give the four outcomes, and an interleaving adds what HOST steps show. -/
theorem encodeLeavesTheArtifactOrItsError : Obligations.EncodeLeavesTheArtifactOrItsError := by
  intro s events inv idle interleaved
  have ends {t : State} (ends : EngineEnds (s.prologue.startAt 1) t) :=
    (starts_encode idle).commandEnds_hostShare ends interleaved
  refine ⟨fun outside => ?_, fun empty => ?_, fun range nonempty => ?_⟩
  · obtain ⟨ie, replies, schedule, command, share⟩ := ends (engineEnds_encode_outside rfl rfl outside)
    exact ⟨_, command, share, rfl⟩
  · have range : s.inLen ≤ s.params.ibufSize := empty ▸ Nat.zero_le _
    obtain ⟨ie, replies, schedule, command, share⟩ := ends (engineEnds_encode_empty rfl rfl range empty)
    exact ⟨_, command, share, rfl⟩
  obtain ⟨tree, built⟩ := exists_inputTree (inputBytes s)
  have built := built (inputBytes_ne_nil nonempty)
  have encodes : Encodes (inputMeasured tree s.work s.inLen (inputBytes s)) (inputBytes s) :=
    built.encodes s.work (inputBytes_length s) (inputBytes_ne_nil nonempty)
  have valid : ∀ b, tableGet (inputMeasured tree s.work s.inLen (inputBytes s)).ctValid b = true ↔ b ∈ inputBytes s :=
    built.valid_iff s.work
  have total : (inputMeasured tree s.work s.inLen (inputBytes s)).total = s.inLen := rfl
  have length := artifact_inputMeasured_length tree s.work s.inLen (inputBytes s)
  generalize measured : inputMeasured tree s.work s.inLen (inputBytes s) = w at encodes valid total length
  by_cases overflow : s.params.obufSize.toNat < w.hdrLen.toNat + w.payloadLen.toNat
  · obtain ⟨ie, replies, schedule, command, share⟩ :=
      ends (engineEnds_encode_overflow (u := s.prologue.startAt 1) rfl rfl range nonempty built measured overflow)
    refine ⟨_, w, _, command, share, encodes.free, valid, encodes.codesFit.codes, encodes.codesFit.counted, total,
      encodes.packed, rfl, fun _ => rfl, fun room => ?_⟩
    exact absurd (length ▸ room) (Nat.not_le.2 overflow)
  · have room := Nat.not_lt.1 overflow
    obtain ⟨ie, replies, schedule, command, share⟩ :=
      ends (engineEnds_encode_artifact (u := s.prologue.startAt 1) rfl rfl range nonempty built measured room)
    refine ⟨_, w, _, command, share, encodes.free, valid, encodes.codesFit.codes, encodes.codesFit.counted, total,
      encodes.packed, rfl, fun overflow' => absurd (length ▸ overflow') overflow, fun _ => ⟨rfl, ?_, fun a beyond => ?_⟩⟩
    · exact resultBytes_of_written inv.obuf.1 rfl ((fit_toNat (room.trans_lt s.params.obufSize.isLt)).trans length.symm)
    · exact memRead_memWriteRun_outside _ _ (.inr ((Nat.zero_add _).le.trans beyond))

end Sys2Proof.Machine
end

section
/-! PROOFS. The two control encodings (30_encoding.md R80 to R84), and the step that runs a decoded instruction (40_commands.md
R110, R112, R113, R115). -/

namespace Sys2Proof.Machine

/-! ### The encodings -/

/-- Settles O1, by evaluating the decoder on each word. -/
theorem controlWordsSelectTheirInstruction : Obligations.ControlWordsSelectTheirInstruction :=
  ⟨rfl, rfl, rfl, rfl, rfl, rfl, rfl, rfl, rfl, rfl⟩

/-- A command word that selects an instruction is its encoding (30_encoding.md R80). -/
theorem encode_of_decodeCommand {w : Word} {i : Instr} (h : decodeCommand w = .ok i) : encode i = .command w := by
  by_cases clr : w = 0
  · subst clr
    cases h
    rfl
  by_cases enc : w = 1
  · subst enc
    cases h
    rfl
  by_cases dec : w = 2
  · subst dec
    cases h
    rfl
  rw [decodeCommand_of_illegal clr enc dec] at h
  cases h

/-- The encoding of a stage is its code in bits 7:4 (30_encoding.md R83). -/
theorem encode_of_isStage {i : Instr} (stage : isStage i = true) : encode i = .stage (stageCode i ++ 0#4) := by
  cases i with
  | clr | encode | decode => cases stage
  | eFreq | eBuild | eCodes | eMeasure | eHeader | ePack | dHeader | dTable | dWalk => rfl

theorem phaseField_append_zero (b : BitVec 8) : phaseField b ++ 0#4 = b &&& 0xF0 := by
  revert b
  decide

theorem decodePhase_zero : decodePhase 0 = .error .idlePhase := rfl

/-- Settles O2: each kind of word is its instruction's encoding, and the rest of the words is refused by its kind. -/
theorem decodeAndEncodeAgree : Obligations.DecodeAndEncodeAgree := by
  refine ⟨fun i _ => ?_, fun w i => encode_of_decodeCommand, fun w => decodeCommand_of_illegal, fun b i selected => ?_,
    fun b idle => ?_, fun b => decodePhase_of_reserved _⟩
  · cases i <;> rfl
  · rw [encode_of_isStage (isStage_of_decodePhase selected), stageCode_of_decodePhase selected, phaseField_append_zero]
  · rw [decode, idle, decodePhase_zero]

/-! ### The words of the status registers (10_state.md R23 to R25) -/

theorem statusWord_getLsbD (s : State) (i : Nat) : (statusWord s).getLsbD i =
    if i = 0 then s.busy else if i = 1 then s.done else if i = 2 then s.err else if i = 3 then false
    else s.phase.getLsbD (i - 4) := by
  have fields : (statusWord s).getLsbD i = _ := BitVec.getLsbD_append (y := BitVec.ofBool s.busy)
  simp only [BitVec.getLsbD_append] at fields
  rw [fields]
  match i with
  | 0 | 1 | 2 | 3 => simp
  | i + 4 =>
    by_cases inside : i < 4
    · simp [inside]
    · simp [inside, BitVec.getLsbD_of_ge s.phase i (Nat.not_lt.1 inside)]

/-- Bits 4 and up of STATUS are those of PHASE. -/
theorem statusWord_getLsbD_phase (s : State) (i : Nat) : (statusWord s).getLsbD (4 + i) = s.phase.getLsbD i := by
  rw [statusWord_getLsbD, if_neg (by omega), if_neg (by omega), if_neg (by omega), if_neg (by omega), Nat.add_sub_cancel_left]

theorem phaseField_statusWord (s : State) : phaseField ((statusWord s).setWidth 8) = s.phase := by
  refine BitVec.eq_of_getLsbD_eq fun i lt => ?_
  rw [phaseField, BitVec.getLsbD_extractLsb', BitVec.getLsbD_setWidth, statusWord_getLsbD_phase, decide_eq_true lt,
    decide_eq_true (show 4 + i < 8 by omega), Bool.true_and, Bool.true_and]

/-- A field stored in a wider word has its bits, and the word no others. -/
theorem getLsbD_setWidth_of_ge {v : Nat} (w : Nat) (x : BitVec v) {i : Nat} (beyond : v ≤ i) :
    (x.setWidth w).getLsbD i = false := by
  rw [BitVec.getLsbD_setWidth, BitVec.getLsbD_of_ge x i beyond, Bool.and_false]

/-- Settles O9, bit by bit. -/
theorem statusWordsHaveTheirLayout : Obligations.StatusWordsHaveTheirLayout := by
  refine fun s => ⟨statusWord_getLsbD s 0, statusWord_getLsbD s 1, statusWord_getLsbD s 2, statusWord_getLsbD s 3, ?_,
    fun i beyond => ?_, ?_, fun i => getLsbD_setWidth_of_ge 32 s.errcode, ?_,
    fun i => getLsbD_setWidth_of_ge 32 (BitVec.ofBool s.ie)⟩
  · refine BitVec.eq_of_getLsbD_eq fun i lt => ?_
    rw [BitVec.getLsbD_extractLsb', statusWord_getLsbD_phase, decide_eq_true lt, Bool.true_and]
  · rw [show i = 4 + (i - 4) by omega, statusWord_getLsbD_phase, BitVec.getLsbD_of_ge _ _ (by omega)]
  · refine BitVec.eq_of_getLsbD_eq fun i lt => ?_
    rw [BitVec.getLsbD_extractLsb', errcodeWord, BitVec.getLsbD_setWidth, Nat.zero_add, decide_eq_true lt,
      decide_eq_true (show i < 32 by omega), Bool.true_and, Bool.true_and]
  · simp [ctrlWord]

/-! ### The decoded instruction -/

/-- Settles O3: the step takes the event off the schedule and runs what the word decodes to. -/
theorem stepRunsTheDecodedInstruction : Obligations.StepRunsTheDecodedInstruction := by
  intro s i rest
  refine ⟨fun w selected => ?_, fun busy selected => ?_⟩
  · rw [step_cmdWrite, cmdWrite, show decodeCommand w = .ok i from selected]
  · rw [decode, phaseField_statusWord] at selected
    exact ⟨engineTurn_of_select (s := { s with schedule := rest }) busy selected,
      engineTurn_of_select (s := { s with schedule := [] }) busy selected⟩

/-- Settles O4: the ENGINE's turn tests BUSY first, scheduled or not. -/
theorem engineIsIdleWhenNotBusy : Obligations.EngineIsIdleWhenNotBusy := fun s rest idle =>
  ⟨engineTurn_of_idle (s := { s with schedule := rest }) idle, engineTurn_of_idle (s := { s with schedule := [] }) idle⟩

/-- Settles O8: accepted with BUSY = 0 and ignored with BUSY = 1. -/
theorem encodeAndDecodeStartTheirFirstStage : Obligations.EncodeAndDecodeStartTheirFirstStage := fun _ =>
  ⟨fun idle => ⟨execEncode_of_idle idle, execDecode_of_idle idle⟩,
    fun busy => ⟨congrArg Host.Outcome.next (accept_of_busy busy _), congrArg Host.Outcome.next (accept_of_busy busy _)⟩⟩

end Sys2Proof.Machine
end

section
/-! PROOFS. HOST accesses with BUSY = 0 (10_state.md R21 to R29, 20_memory.md R63, R65), the HOST programs LOAD and COPYBACK
(30_encoding.md R86), and RESET (70_reset_and_hazards.md R190). -/

namespace Sys2Proof.Machine

/-! ### Registers -/

theorem Reg.offset_aligned (r : Reg) : r.offset.toNat % 4 = 0 := by
  cases r <;> decide

theorem hostStep_rd (r : Reg) (s : State) : hostStep (rd r) s = .next (s.reply (.word (regRead s r.offset))) :=
  hostStep_regRead r.offset_aligned s

theorem hostStep_wr (r : Reg) (w : Word) (s : State) : hostStep (wr r w) s = regWrite s r.offset w :=
  hostStep_regWrite r.offset_aligned w s

/-- Settles O10, register by register. -/
theorem registerReadDeliversTheCurrentValue : Obligations.RegisterReadDeliversTheCurrentValue := by
  intro s rest
  have read (r : Reg) (v : Word) (value : regRead { s with schedule := rest } r.offset = v) :
      step { s with schedule := .host (rd r) :: rest } = .next { s with schedule := rest, replies := .word v :: s.replies } := by
    rw [step_host, hostStep_rd, value]
    rfl
  simp only [List.forall_mem_cons]
  exact ⟨read .cmd _ rfl, read .status _ rfl, read .errcode _ rfl, read .ctrl _ rfl, read .inLen _ rfl, read .outLen _ rfl,
    read .ibufCap _ rfl, read .obufCap _ rfl, List.forall_mem_nil _⟩

theorem regWrite_inLen_of_idle {s : State} (idle : s.busy = false) (w : Word) :
    regWrite s 0x10 w = .next { s with inLen := w } := by
  have written : regWrite s 0x10 w = .next (if s.busy then s else { s with inLen := w }) := rfl
  rw [written, idle]
  rfl

/-- Settles O12, register by register. -/
theorem registerWritesStoreCtrlAndInLenOnly : Obligations.RegisterWritesStoreCtrlAndInLenOnly := by
  intro s rest w
  simp only [step_host, hostStep_wr, List.forall_mem_cons]
  exact ⟨regWrite_ctrl _ w, fun idle => regWrite_inLen_of_idle (s := { s with schedule := rest }) idle w, rfl, rfl, rfl, rfl, rfl,
    List.forall_mem_nil _⟩

/-- Settles O16: the HOST's step tests the offset first. -/
theorem misalignedRegisterAccessIsRefused : Obligations.MisalignedRegisterAccessIsRefused := by
  intro s rest off w misaligned
  have refused : ¬ alignedOffset off = true := fun aligned => misaligned (alignedOffset_iff.1 aligned)
  exact ⟨if_neg refused, if_neg refused⟩

/-! ### Buffers -/

section Idle

variable {s : State} (idle : s.busy = false) {a : Word}
include idle

theorem bufRead_ibuf_of_lt (inside : a < s.params.ibufSize) : bufRead s .ibuf a = memRead s.ibuf a.toNat := by
  simp [bufRead, idle, inside]

theorem bufRead_obuf_of_lt (inside : a < s.params.obufSize) : bufRead s .obuf a = memRead s.obuf a.toNat := by
  simp [bufRead, idle, inside]

theorem bufRead_ibuf_of_le (outside : s.params.ibufSize ≤ a) : bufRead s .ibuf a = 0 := by
  simp [bufRead, idle, BitVec.not_lt.2 outside]

theorem bufRead_obuf_of_le (outside : s.params.obufSize ≤ a) : bufRead s .obuf a = 0 := by
  simp [bufRead, idle, BitVec.not_lt.2 outside]

theorem bufWrite_ibuf_of_lt (inside : a < s.params.ibufSize) (b : Byte) :
    bufWrite s .ibuf a b = s.setIbuf (memWrite s.ibuf a.toNat b) := by
  simp [bufWrite, idle, inside]

omit idle in
theorem bufWrite_ibuf_of_le (outside : s.params.ibufSize ≤ a) (b : Byte) : bufWrite s .ibuf a b = s := by
  simp [bufWrite, BitVec.not_lt.2 outside]

end Idle

/-- Settles O15: inside a buffer the byte's address decides, outside nothing is read or written. -/
theorem bufferAccessesWhenNotBusy : Obligations.BufferAccessesWhenNotBusy := by
  intro s rest a b idle
  have idleRest : ({ s with schedule := rest } : State).busy = false := idle
  simp only [step_host, hostStep_bufRead, hostStep_bufWrite]
  refine ⟨fun inside => ?_, fun inside => ?_, fun outside => ⟨?_, ?_⟩, fun outside => ?_, fun inside wf => ?_, rfl⟩
  · rw [bufRead_ibuf_of_lt idleRest inside]
    rfl
  · rw [bufRead_obuf_of_lt idleRest inside]
    rfl
  · rw [bufRead_ibuf_of_le idleRest outside]
    rfl
  · rw [bufWrite_ibuf_of_le (s := { s with schedule := rest }) outside]
  · rw [bufRead_obuf_of_le idleRest outside]
    rfl
  · rw [bufWrite_ibuf_of_lt idleRest inside]
    exact ⟨_, rfl, memRead_memWrite_self _ b wf, fun x ne => memRead_memWrite_ne _ b ne⟩

/-! ### LOAD -/

/-- A run of `m + n` steps is one of `m` and then one of `n`. -/
theorem run_add {m : Nat} : ∀ {s u : State}, core.run m s = .next u → ∀ n, core.run (m + n) s = core.run n u := by
  induction m with
  | zero =>
    intro s u ran n
    cases ran
    rw [Nat.zero_add]
  | succ m ih =>
    intro s u ran n
    rw [Nat.add_right_comm]
    cases taken : step s with
    | next v =>
      rw [run_succ taken] at ran ⊢
      exact ih ran n
    | fault r => simp [Host.Core.run, show core.step s = .fault r from taken] at ran
    | refused r => simp [Host.Core.run, show core.step s = .refused r from taken] at ran

theorem toNat_ofNat_address {a : Nat} {size : Word} (inside : a < size.toNat) : (BitVec.ofNat 32 a).toNat = a := by
  rw [BitVec.toNat_ofNat, Nat.mod_eq_of_lt (inside.trans size.isLt)]

/-- With BUSY = 0 a byte inside IBUF is stored. -/
theorem step_wrb {s : State} (idle : s.busy = false) {a : Nat} (inside : a < s.params.ibufSize.toNat) (b : Byte)
    (rest : List Event) : step { s with schedule := .host (wrb a b) :: rest } =
      .next { s with ibuf := memWrite s.ibuf a b, schedule := rest } := by
  have address := toNat_ofNat_address inside
  have inside : BitVec.ofNat 32 a < s.params.ibufSize := BitVec.lt_def.2 (address.symm ▸ inside)
  rw [step_host, wrb, hostStep_bufWrite, bufWrite_ibuf_of_lt (s := { s with schedule := rest }) idle inside, address]
  rfl

theorem run_wrbRun (bs : List Byte) : ∀ {s : State} {a : Nat}, s.busy = false → a + bs.length ≤ s.params.ibufSize.toNat →
    ∀ rest : List Event, core.run bs.length { s with schedule := (wrbRun a bs).map .host ++ rest } =
      .next { s with ibuf := memWriteRun s.ibuf a bs, schedule := rest } := by
  induction bs with
  | nil => exact fun _ _ _ => rfl
  | cons b bs ih =>
    intro s a idle room rest
    rw [List.length_cons] at room
    have first := step_wrb idle (show a < s.params.ibufSize.toNat by omega) b ((wrbRun (a + 1) bs).map .host ++ rest)
    rw [wrbRun, List.map_cons, List.cons_append, List.length_cons, run_succ first]
    exact ih (s := { s with ibuf := memWrite s.ibuf a b }) idle (show _ ≤ s.params.ibufSize.toNat by omega) rest

theorem step_wr_inLen {s : State} (idle : s.busy = false) (w : Word) (rest : List Event) :
    step { s with schedule := .host (wr .inLen w) :: rest } = .next { s with inLen := w, schedule := rest } := by
  rw [step_host, hostStep_wr]
  exact regWrite_inLen_of_idle (s := { s with schedule := rest }) idle w

/-- Bytes written from address 0 are the input of that length. -/
theorem inputBytes_of_written {t : State} {m : Memory} {bytes : List Byte} (wf : Memory.wf m = true)
    (written : t.ibuf = memWriteRun m 0 bytes) (length : t.inLen.toNat = bytes.length) : inputBytes t = bytes :=
  resultBytes_of_written (t := { t with obuf := t.ibuf, outLen := t.inLen }) wf written length

/-- Settles O17: the bytes are stored in order from address 0, and IN_LEN is their number. -/
theorem loadPlacesTheInput : Obligations.LoadPlacesTheInput := by
  intro s bs rest idle wf room
  have written := run_wrbRun bs (a := 0) idle (by omega) (.host (wr .inLen (BitVec.ofNat 32 bs.length)) :: rest)
  have last := step_wr_inLen (s := { s with ibuf := memWriteRun s.ibuf 0 bs }) idle (BitVec.ofNat 32 bs.length) rest
  have length : (BitVec.ofNat 32 bs.length).toNat = bs.length := by
    have := s.params.ibufSize.isLt
    rw [BitVec.toNat_ofNat, Nat.mod_eq_of_lt (by omega)]
  refine ⟨{ s with ibuf := memWriteRun s.ibuf 0 bs, inLen := BitVec.ofNat 32 bs.length, schedule := rest }, ?_, rfl,
    inputBytes_of_written wf rfl length, fun a beyond => memRead_memWriteRun_outside _ _ (.inr (by omega))⟩
  rw [loadSteps, List.map_append, List.append_assoc]
  exact (run_add written 1).trans (run_succ last 0)

/-! ### COPYBACK -/

/-- The two steps of COPYBACK for address `i`. -/
def copyByte (s : State) (i : Nat) : List HostStep := [rdb .obuf i, wrb i (bufRead s .obuf (BitVec.ofNat 32 i))]

theorem bufRead_result {s : State} (idle : s.busy = false) {i : Nat} (inside : i < s.params.obufSize.toNat) :
    bufRead s .obuf (BitVec.ofNat 32 i) = memRead s.obuf i := by
  have address := toNat_ofNat_address inside
  rw [bufRead_obuf_of_lt idle (BitVec.lt_def.2 (address.symm ▸ inside)), address]

/-- The read delivers its byte and the write stores the one it has. -/
theorem run_copyByte {u : State} (idle : u.busy = false) {i : Nat} (inside : i < u.params.ibufSize.toNat) (b : Byte)
    (rest : List Event) : ∃ replies, core.run 2 { u with schedule := .host (rdb .obuf i) :: .host (wrb i b) :: rest } =
      .next { u with ibuf := memWrite u.ibuf i b, replies := replies, schedule := rest } := by
  have read := hostStep_bufRead .obuf (BitVec.ofNat 32 i) { u with schedule := .host (wrb i b) :: rest }
  have written := step_wrb (s := u.reply (.byte (bufRead u .obuf (BitVec.ofNat 32 i)))) idle inside b rest
  exact ⟨_, (run_succ ((step_host u _ _).trans read) 1).trans (run_succ written 0)⟩

/-- The first `n` bytes of the result are copied in order. -/
theorem run_copyBytes {s : State} (idle : s.busy = false) (n : Nat) : n ≤ s.params.ibufSize.toNat → n ≤ s.params.obufSize.toNat →
    ∀ rest : List Event, ∃ replies,
      core.run (2 * n) { s with schedule := ((List.range n).flatMap (copyByte s)).map .host ++ rest } =
        .next { s with ibuf := memWriteRun s.ibuf 0 ((List.range n).map (memRead s.obuf)), replies := replies,
                       schedule := rest } := by
  induction n with
  | zero => exact fun _ _ rest => ⟨s.replies, rfl⟩
  | succ n ih =>
    intro room source rest
    obtain ⟨replies, ran⟩ := ih (by omega) (by omega) ((copyByte s n).map .host ++ rest)
    generalize copied : memWriteRun s.ibuf 0 ((List.range n).map (memRead s.obuf)) = m at ran
    obtain ⟨replies', two⟩ := run_copyByte (u := { s with ibuf := m, replies := replies }) idle room
      (bufRead s .obuf (BitVec.ofNat 32 n)) rest
    have last : memWriteRun s.ibuf 0 ((List.range (n + 1)).map (memRead s.obuf)) =
        memWrite m n (bufRead s .obuf (BitVec.ofNat 32 n)) := by
      rw [List.range_succ, List.map_append, memWriteRun_append, copied, bufRead_result idle source]
      simp [memWriteRun]
    refine ⟨replies', ?_⟩
    rw [last, List.range_succ, List.flatMap_append, List.map_append, List.append_assoc, List.flatMap_singleton]
    exact (run_add ran 2).trans two

/-- Settles O18: after the read of OUT_LEN the result is copied byte by byte, and IN_LEN becomes its length. -/
theorem copyBackMovesTheResultToTheInput : Obligations.CopyBackMovesTheResultToTheInput := by
  intro s rest idle wf room source
  obtain ⟨replies, copied⟩ := run_copyBytes (s := s.reply (.word s.outLen)) idle s.outLen.toNat room source
    (.host (wr .inLen s.outLen) :: rest)
  have last := step_wr_inLen (s := { s with ibuf := memWriteRun s.ibuf 0 (resultBytes s), replies := replies }) idle s.outLen rest
  refine ⟨{ s with ibuf := memWriteRun s.ibuf 0 (resultBytes s), inLen := s.outLen, replies := replies, schedule := rest }, ?_,
    rfl, inputBytes_of_written wf rfl (resultBytes_length s).symm⟩
  rw [copyBackSteps, List.map_append, List.append_assoc]
  refine (run_succ ((step_host s (rd .outLen) _).trans (hostStep_rd .outLen _)) _).trans ?_
  exact (run_add copied 1).trans (run_succ last 0)

/-! ### RESET -/

/-- Writing the cells of canonical contents one after another lays them over what was there. -/
theorem memRead_memOfCells {m : Memory} {size : Nat} (within : Memory.within m size = true) (a : Nat) : ∀ {lo : Nat} {base : Memory},
    memWfFrom lo m = true → Memory.wf base = true →
      memRead (m.foldl (fun m c => if c.1 < size then memWrite m c.1 c.2 else m) base) a =
        if memRead m a = 0 then memRead base a else memRead m a := by
  induction m with
  | nil => exact fun _ _ => rfl
  | cons c m ih =>
    intro lo base wf wfBase
    obtain ⟨-, nonzero, wf⟩ := memWfFrom_cons.1 wf
    obtain ⟨inside, within⟩ := Memory.within_cons.1 within
    rw [List.foldl_cons, if_pos inside, ih within wf (Memory.wf_memWrite c.1 c.2 wfBase), memRead_cons]
    by_cases here : c.1 = a
    · subst here
      rw [memRead_below wf (Nat.lt_succ_self _), if_pos rfl, if_pos rfl, if_neg nonzero]
      exact memRead_memWrite_self _ _ wfBase
    · rw [if_neg here, memRead_memWrite_ne _ _ (Ne.symm here)]

/-- A canonical contents is that of its own cells. -/
theorem memOfCells_self {m : Memory} {size : Nat} (wf : Memory.wf m = true) (within : Memory.within m size = true) :
    memOfCells size m = m := by
  refine Memory.ext_of_wf (memOfCells_wf size m).1 wf fun a => ?_
  rw [memOfCells, memRead_memOfCells within a wf rfl]
  split_ifs with zero
  · exact zero.symm
  · rfl

/-- Settles O24: the event has the contents, and canonical contents are those of their own cells. -/
theorem resetClearsTheRegistersAndLeavesAnyContents : Obligations.ResetClearsTheRegistersAndLeavesAnyContents := by
  refine ⟨fun s c rest => ⟨resetStep c { s with schedule := rest }, rfl, rfl, irq_of_running rfl rfl⟩, ?_⟩
  intro s rest m m' w wf within wf' within'
  exact ⟨⟨m, m', w⟩, _, rfl, memOfCells_self wf within, memOfCells_self wf' within', rfl⟩

end Sys2Proof.Machine
end

section
/-! PROOFS. The encoder's tree and codes by themselves (41_encoder_stages.md R132, R134; 40_commands.md R126), the header's length
(R139) and bit strings (00_scope.md R10). -/

namespace Sys2Proof.Machine

/-! ### Bit strings -/

/-- A number below 2^L is the value of its bit string of length L. -/
theorem val_bits {v L : Nat} (bound : v < 2 ^ L) : val (bits v L) = v := by
  have small := val_lt (bits v L)
  rw [bits_length] at small
  refine Nat.eq_of_testBit_eq fun i => ?_
  by_cases inside : i < L
  · have bit := testBit_val (bits v L) (L - 1 - i) (by rw [bits_length]; omega)
    rwa [bits_getElem bound, bits_length, show L - 1 - (L - 1 - i) = i by omega] at bit
  · have beyond : 2 ^ L ≤ 2 ^ i := Nat.pow_le_pow_right Nat.two_pos (Nat.not_lt.1 inside)
    rw [Nat.testBit_lt_two_pow (small.trans_le beyond), Nat.testBit_lt_two_pow (bound.trans_le beyond)]

/-- Settles O40: a bit of the string is a bit of the value, counted from the other end. -/
theorem bitStringsAndValuesAgree : Obligations.BitStringsAndValuesAgree :=
  ⟨fun v L bound => ⟨val_bits bound, bits_length v L⟩, fun c => ⟨val_lt c, bits_val c⟩⟩

/-! ### The header's length -/

/-- Settles O37: E_MEASURE stores the length of the header whether or not the artifact fits OBUF. -/
theorem headerHasTheMeasuredLength : Obligations.HeaderHasTheMeasuredLength := by
  intro s t executed
  obtain ⟨-, w, rfl, ⟨-, rfl⟩ | ⟨-, rfl⟩⟩ := execEMeasure_next executed <;> exact headerBytes_measure_length _ _ _

/-! ### The tree of the present symbols -/

/-- A full tree has one internal node less than leaves. -/
theorem CodeTree.size_of_full {tree : CodeTree} (full : tree.full = true) : tree.size = 2 * tree.symbols.length - 1 := by
  induction tree with
  | leaf s => rfl
  | one low _ => cases full
  | two low high ihLow ihHigh =>
    obtain ⟨fullLow, fullHigh⟩ := (Bool.and_eq_true _ _).mp full
    have := low.one_le_symbols_length
    have := high.one_le_symbols_length
    simp only [CodeTree.size, CodeTree.symbols, List.length_append, ihLow fullLow, ihHigh fullHigh]
    omega

theorem zeroWeight_eq_false {w : Work} (counts : ∀ b : Symbol, tableGet w.present b = true → tableGet w.count b ≠ 0) :
    zeroWeight w = false := by
  rw [Bool.eq_false_iff, Ne, zeroWeight_eq_true_iff]
  rintro ⟨b, present, zero⟩
  exact counts b present zero

theorem buildTree_nnode {w : Work} (two : 2 ≤ w.nsym.toNat) (few : w.nsym.toNat ≤ 256) :
    (buildTree w).nnode.toNat = 2 * w.nsym.toNat - 1 := by
  simp only [buildTree, if_neg (show ¬ w.nsym.toNat = 1 by omega), if_neg (show ¬ w.nsym.toNat = 0 by omega)]
  exact fit_toNat (by omega)

/-- Settles O30, from the tree that the merges leave. -/
theorem eBuildMakesATreeOfThePresentSymbols : Obligations.EBuildMakesATreeOfThePresentSymbols := by
  intro s nsym positive counts
  have counted : Counted s.work := ⟨nsym, positive⟩
  obtain ⟨tree, symbols, height, bound, full, built⟩ := exists_buildTree counted
  refine ⟨_, tree, execEBuild_of_counts (zeroWeight_eq_false counts) counted.few, built s.work ⟨rfl, rfl, rfl⟩, symbols, height,
    bound, fun two => ⟨full two, ?_⟩⟩
  rw [CodeTree.size_of_full (full two), symbols.length_eq, ← nsym]
  exact (buildTree_nnode two counted.few).symm

/-- Settles O32: an empty list of symbols places no leaf, and the test of NSYM comes after that of the counts. -/
theorem eBuildOutsideTheRangeOfNsym : Obligations.EBuildOutsideTheRangeOfNsym := by
  refine ⟨fun s zero absent => ?_, fun s many counts => ?_⟩
  · have empty : presentSymbols s.work = [] :=
      List.eq_nil_iff_forall_not_mem.2 fun b mem => absurd ((absent b).symm.trans (mem_presentSymbols.1 mem)) Bool.false_ne_true
    have counts : zeroWeight s.work = false :=
      zeroWeight_eq_false fun b present => absurd ((absent b).symm.trans present) Bool.false_ne_true
    have built : buildTree s.work = { s.work with root := Config.outsideWidth 9 (-2), nnode := Config.outsideWidth 9 (-1) } := by
      simp [buildTree, zero, empty, placeLeaves]
    refine ⟨Config.outsideWidth 9 (-2), Config.outsideWidth 9 (-1), ?_⟩
    rw [← built]
    exact execEBuild_of_counts counts (by rw [zero]; decide)
  · rw [exec, execEBuild, zeroWeight_eq_false counts, if_neg Bool.false_ne_true]
    exact if_pos many

/-! ### Complete codes -/

/-- Under a full tree the paths from a node share out the strings that continue its own path. -/
theorem CodeTree.kraft_of_full {tree : CodeTree} : ∀ {path : BitString}, tree.full = true → path.length + tree.height ≤ 255 →
    ((tree.paths path).map fun p => 2 ^ (255 - p.2.length)).sum = 2 ^ (255 - path.length) := by
  induction tree with
  | leaf s => intro path _ _; simp [CodeTree.paths]
  | one low _ => intro path full; cases full
  | two low high ihLow ihHigh =>
    intro path full bound
    obtain ⟨fullLow, fullHigh⟩ := (Bool.and_eq_true _ _).mp full
    rw [CodeTree.height] at bound
    have double : 2 ^ (255 - path.length) = 2 ^ (255 - (path.length + 1)) + 2 ^ (255 - (path.length + 1)) := by
      rw [← Nat.two_mul, ← Nat.pow_succ', show (255 - (path.length + 1)).succ = 255 - path.length by omega]
    rw [CodeTree.paths, List.map_append, List.sum_append, ihLow fullLow (by simp; omega), ihHigh fullHigh (by simp; omega), double]
    simp

/-- Settles O34: the codes are the tree's paths. -/
theorem codesOfATreeArePrefixFreeAndComplete : Obligations.CodesOfATreeArePrefixFreeAndComplete := by
  intro s t tree represented height distinct positive executed
  obtain rfl := Host.Outcome.next.inj ((execECodes_of_represents represented height).symm.trans executed)
  simp only [State.setPhase_work, State.setWork_work]
  refine ⟨prefixFree_treeCodes _ distinct height, fun b valid => ?_, fun full => ?_⟩
  · obtain ⟨p, mem, rfl⟩ := exists_path ((treeCodes_ctValid s.work b).1 valid)
    rw [treeCodes_len s.work distinct height mem]
    exact CodeTree.length_pos_of_mem_paths positive mem
  · have lengths : (tree.paths []).map (fun p => 2 ^ (255 - p.2.length)) =
        tree.symbols.map fun b => 2 ^ (255 - (tableGet (treeCodes tree s.work).ct b).len.toNat) := by
      rw [← CodeTree.paths_symbols tree [], List.map_map]
      exact List.map_congr_left fun p mem => by rw [Function.comp_apply, treeCodes_len s.work distinct height mem]
    rw [((validSymbols_treeCodes_perm s.work distinct).map _).sum_eq, ← lengths, CodeTree.kraft_of_full full (by simpa using height)]
    rfl

end Sys2Proof.Machine
end

section
/-! PROOFS. The walk that meets an error, and the bits after the last code (42_decoder_stages.md R157, R159); the stages that
would leave a buffer stop (20_memory.md R60, R65). -/

namespace Sys2Proof.Machine

/-! ### The walk through whole codes and a part of one -/

/-- The bits are a proper part of a valid code, or none. -/
def InsideCode (w : Work) (part : BitString) : Prop :=
  part = [] ∨ ∃ b, tableGet w.ctValid b = true ∧ isProperPrefix part (codeOf w b) = true

section Walk

variable {w : Work} (free : prefixFree w)
include free

/-- The bits of a part of a code are accumulated. -/
theorem walk_part {s : Symbol} (valid : tableGet w.ctValid s = true) (tail : BitString) (need : Nat) {rest : BitString}
    (more : rest ≠ []) (part : BitString) : ∀ {acc : BitString}, codeOf w s = acc ++ part ++ rest →
      walk w (part ++ tail) acc (need + 1) = walk w tail (acc ++ part) (need + 1) := by
  induction part with
  | nil => exact fun {acc} _ => by rw [List.nil_append, List.append_nil]
  | cons b part ih =>
    intro acc code
    have split : codeOf w s = (acc ++ [b]) ++ part ++ rest := by rw [code, List.append_cons]
    have proper : isProperPrefix (acc ++ [b]) (codeOf w s) = true := by
      rw [isProperPrefix_iff, split, List.append_assoc]
      have := List.length_pos_iff.2 more
      exact ⟨by simp only [List.length_append]; omega, List.prefix_append _ _⟩
    rw [List.cons_append, walk, symbolOf_of_properPrefix free valid proper, extends_of_properPrefix valid proper,
      List.append_cons acc b part]
    exact ih split

theorem walk_insideCode_append {part : BitString} (inside : InsideCode w part) (tail : BitString) (need : Nat) :
    walk w (part ++ tail) [] (need + 1) = walk w tail part (need + 1) := by
  obtain rfl | ⟨b, valid, proper⟩ := inside
  · rfl
  · obtain ⟨shorter, rest, code⟩ := (isProperPrefix_iff _ _).1 proper
    have more : rest ≠ [] := by
      rintro rfl
      rw [← code, List.append_nil] at shorter
      exact lt_irrefl _ shorter
    exact walk_part free valid tail need more part code.symm

/-- Whole codes are walked to their symbols, and the walk goes on behind them. -/
theorem walk_codes_append {out : List Symbol} (valid : ∀ b ∈ out, tableGet w.ctValid b = true)
    (nonempty : ∀ b : Symbol, tableGet w.ctValid b = true → 1 ≤ (tableGet w.ct b).len.toNat) (tail : BitString) (need : Nat) :
    walk w (out.flatMap (codeOf w) ++ tail) [] (out.length + need) = out.foldr WalkResult.prepend (walk w tail [] need) := by
  induction out with
  | nil => rw [List.length_nil, Nat.zero_add]; rfl
  | cons b out ih =>
    obtain ⟨validB, valid⟩ := List.forall_mem_cons.1 valid
    have code : codeOf w b ≠ [] := List.ne_nil_of_length_pos (by rw [codeOf_length]; exact nonempty b validB)
    rw [List.flatMap_cons, List.append_assoc, List.length_cons, Nat.add_right_comm,
      walk_code free validB _ _ (List.nil_append _).symm code, ih valid]
    rfl

end Walk

theorem foldr_prepend_truncated (out : List Symbol) : out.foldr WalkResult.prepend .truncated = .truncated := by
  induction out with
  | nil => rfl
  | cons b out ih => rw [List.foldr_cons, ih]; rfl

theorem foldr_prepend_invalid (out : List Symbol) : out.foldr WalkResult.prepend .invalid = .invalid := by
  induction out with
  | nil => rfl
  | cons b out ih => rw [List.foldr_cons, ih]; rfl

/-- A bit with which the accumulated bits leave all codes ends the walk (42_decoder_stages.md R157). -/
theorem walk_of_leaving {w : Work} {part : BitString} {x : Bool}
    (leaves : ∀ b : Symbol, tableGet w.ctValid b = true → ¬ part ++ [x] <+: codeOf w b) (tail : BitString) (need : Nat) :
    walk w (x :: tail) part (need + 1) = .invalid := by
  have noCode : (validSymbols w).filter (fun a => codeOf w a == part ++ [x]) = [] := by
    refine List.filter_eq_nil_iff.2 fun a valid same => leaves a (mem_validSymbols.1 valid) ?_
    rw [beq_iff_eq.1 same]
  have noPart : extends_ w (part ++ [x]) = false := by
    refine List.any_eq_false.2 fun a valid proper => leaves a (mem_validSymbols.1 valid) ?_
    exact ((isProperPrefix_iff _ _).1 proper).2
  rw [walk, symbolOf, noCode, noPart]
  rfl

/-- Fewer than TOTAL whole codes and a proper part of a code, as D_WALK's statements assume them. -/
structure WalkStuck (w : Work) (out : List Symbol) (part : BitString) : Prop where
  free : prefixFree w
  nonempty : ∀ b : Symbol, tableGet w.ctValid b = true → 1 ≤ (tableGet w.ct b).len.toNat
  fewer : out.length < w.total.toNat
  valid : ∀ b ∈ out, tableGet w.ctValid b = true
  inside : InsideCode w part

namespace WalkStuck

variable {w : Work} {out : List Symbol} {part : BitString} (h : WalkStuck w out part)
include h

/-- The walk reaches the end of the part with a symbol still to recover. -/
theorem walk_eq (tail : BitString) : ∃ need, walk w (out.flatMap (codeOf w) ++ (part ++ tail)) [] w.total.toNat =
    out.foldr WalkResult.prepend (walk w tail part (need + 1)) := by
  obtain ⟨need, total⟩ := Nat.exists_eq_add_of_lt h.fewer
  refine ⟨need, ?_⟩
  rw [total, Nat.add_assoc, walk_codes_append h.free h.valid h.nonempty, walk_insideCode_append h.free h.inside]

theorem walk_truncated : walk w (out.flatMap (codeOf w) ++ part) [] w.total.toNat = .truncated := by
  obtain ⟨need, walked⟩ := h.walk_eq []
  rw [List.append_nil] at walked
  rw [walked, walk, foldr_prepend_truncated]

theorem walk_invalid {x : Bool} (leaves : ∀ b : Symbol, tableGet w.ctValid b = true → ¬ part ++ [x] <+: codeOf w b)
    (tail : BitString) : walk w (out.flatMap (codeOf w) ++ part ++ x :: tail) [] w.total.toNat = .invalid := by
  obtain ⟨need, walked⟩ := h.walk_eq (x :: tail)
  rw [List.append_assoc, walked, walk_of_leaving leaves, foldr_prepend_invalid]

end WalkStuck

/-- Settles O49: behind the whole codes the walk accumulates the part, and there it lacks a bit or finds one too many. -/
theorem dWalkErrorsAreTheFirstMet : Obligations.DWalkErrorsAreTheFirstMet := by
  intro s out part room range free nonempty fewer valid inside
  have stuck : WalkStuck s.work out part := ⟨free, nonempty, fewer, valid, inside⟩
  refine ⟨fun bits => ?_, fun x tail bits leaves => ?_⟩
  · exact execDWalk_of_truncated room range (bits ▸ stuck.walk_truncated)
  · rw [exec, execDWalk, if_neg (BitVec.not_lt.2 room), bits, stuck.walk_invalid leaves]
    rfl

/-! ### Bits after the last code -/

theorem WalkResult.prepend_eq_recovered {s : Symbol} {r : WalkResult} {out : List Symbol} (h : r.prepend s = .recovered out) :
    ∃ rest, r = .recovered rest := by
  cases r with
  | recovered rest => exact ⟨rest, rfl⟩
  | truncated => cases h
  | invalid => cases h

/-- A walk that has recovered its symbols reads no bit more (42_decoder_stages.md R159). -/
theorem walk_append_of_recovered {w : Work} (extra bits : BitString) : ∀ {acc : BitString} {need : Nat} {out : List Symbol},
    walk w bits acc need = .recovered out → walk w (bits ++ extra) acc need = .recovered out := by
  induction bits with
  | nil =>
    intro acc need out h
    cases need with
    | zero => rwa [walk] at h ⊢
    | succ need => cases h
  | cons b bits ih =>
    intro acc need out h
    cases need with
    | zero => rwa [walk] at h ⊢
    | succ need =>
      rw [walk] at h
      rw [List.cons_append, walk]
      cases found : symbolOf w (acc ++ [b]) with
      | some s =>
        rw [found] at h
        obtain ⟨rest, recovered⟩ := WalkResult.prepend_eq_recovered h
        simp only [recovered, ih recovered] at h ⊢
        exact h
      | none =>
        simp only [found] at h ⊢
        split_ifs at h ⊢
        exact ih h

/-- Settles O50: the walk over more bits recovers the same symbols, and D_WALK writes nothing else. -/
theorem bitsAfterTheLastCodeAreIgnored : Obligations.BitsAfterTheLastCodeAreIgnored := by
  intro s t ibuf inLen pad extra _ executed noError bits
  obtain ⟨-, rfl⟩ | ⟨room, ⟨-, -, rfl⟩ | ⟨-, rfl⟩ | ⟨out, recovered, -, rfl⟩⟩ := execDWalk_next executed
  · exact absurd rfl (ne_raise_of_err noError _)
  · exact absurd rfl (ne_raise_of_err noError _)
  · exact absurd rfl (ne_raise_of_err noError _)
  · have sameCodes : SameCodes s.work { s.work with pad := pad } := ⟨rfl, fun _ _ => rfl⟩
    have walked := walk_append_of_recovered extra _ recovered
    rw [← bits, ← walk_congr sameCodes] at walked
    exact execDWalk_of_recovered (s := { s with ibuf := ibuf, inLen := inLen, work := { s.work with pad := pad } }) room walked
      (walk_recovered_length _ recovered)

/-! ### Addresses outside a buffer -/

theorem engineInput_of_outside {s : State} (outside : s.params.ibufSize < s.inLen) :
    engineInput s = .error (.ibufOutside s.params.ibufSize.toNat) :=
  if_pos outside

theorem enginePut_outside {s : State} {base : Nat} {bytes : List Byte} (positive : 1 ≤ bytes.length)
    (outside : s.params.obufSize.toNat < base + bytes.length) :
    enginePut s base bytes = .error (.obufOutside (max base s.params.obufSize.toNat)) :=
  if_neg (by omega)

/-- Settles O51: each stage tests its addresses before it reads or writes, and D_WALK where it lacks a bit. -/
theorem engineAddressOutsideABufferStops : Obligations.EngineAddressOutsideABufferStops := by
  intro s
  refine ⟨fun outside => ?_, fun outside => ?_, fun range positive outside => ?_, ?_⟩
  · rw [exec, exec, execEMeasure, execEPack, engineInput_of_outside outside, orFault_error, orFault_error]
    exact ⟨rfl, rfl⟩
  · rw [exec, execEHeader, enginePut_outside (by omega) (by omega), orFault_error, Nat.zero_max]
  · rw [exec, execEPack, engineInput_of_range range, orFault_ok,
      enginePut_outside (by rwa [payloadBytes_length]) (by rwa [payloadBytes_length]), orFault_error]
  · intro out part room free nonempty fewer valid inside bits missing
    have stuck : WalkStuck s.work out part := ⟨free, nonempty, fewer, valid, inside⟩
    have truncated : walk s.work (dataBits s) [] s.work.total.toNat = .truncated := bits ▸ stuck.walk_truncated
    rw [exec, execDWalk, if_neg (BitVec.not_lt.2 room), truncated]
    exact if_pos missing

end Sys2Proof.Machine
end

section
/-! PROOFS. The merges of E_BUILD one by one (41_encoder_stages.md R132, R133): each new node takes the two least members of the
queue, and the queue is what no internal node has taken so far. -/

namespace Sys2Proof.Machine

/-! ### The least member -/

theorem mem_of_least {t : Vector Node 511} {q : List Nat} {a : Nat} (h : least t q = some a) : a ∈ q := by
  have nonempty : q ≠ [] := by
    rintro rfl
    cases h
  obtain ⟨b, mem, found⟩ := exists_least t nonempty
  cases h.symm.trans found
  exact mem

/-- The least member precedes every other one (41_encoder_stages.md R133). -/
theorem precedes_of_least {t : Vector Node 511} {q : List Nat} : ∀ {a : Nat}, least t q = some a →
    ∀ c ∈ q, c ≠ a → precedes t a c = true := by
  induction q with
  | nil => exact nofun
  | cons x xs ih =>
    intro a h c mem ne
    rw [least] at h
    by_cases single : xs = []
    · subst single
      cases h
      exact absurd (List.mem_singleton.1 mem) ne
    obtain ⟨y, -, found⟩ := exists_least t single
    have rest : c ∈ xs → c ≠ y → precedes t y c = true := ih found c
    simp only [found] at h
    split_ifs at h with before <;> cases h
    · obtain rfl | mem := List.mem_cons.1 mem
      · exact before
      · exact rest mem ne
    · obtain same | mem := List.mem_cons.1 mem
      · exact absurd same ne
      rw [precedes_iff] at before ⊢
      by_cases same : c = y
      · subst same
        omega
      · have := precedes_iff.1 (rest mem same)
        omega

/-! ### What the merges leave alone -/

/-- The merges of `q` write the entries from `next` up to `next + |q| - 2`. -/
theorem nodeGet_mergeNodes {i : Nat} (fuel : Nat) : ∀ {q : List Nat} {next : Nat} {t : Vector Node 511},
    i < next ∨ next + (q.length - 1) ≤ i → nodeGet (mergeNodes fuel q next t) i = nodeGet t i := by
  induction fuel with
  | zero => exact fun _ => rfl
  | succ fuel ih =>
    intro q next t outside
    rw [mergeNodes]
    cases leastA : least t q with
    | none => rfl
    | some a =>
      cases leastB : least t (q.erase a) with
      | none => simp only [leastB]
      | some b =>
        have lengthA := List.length_erase_of_mem (mem_of_least leastA)
        have lengthB := List.length_erase_of_mem (mem_of_least leastB)
        have two := List.length_pos_of_mem (mem_of_least leastB)
        simp only [leastB]
        rw [ih (by simp only [List.length_append, List.length_singleton]; omega), nodeGet_nodePut_ne _ _ (by omega)]

theorem nodeGet_placeLeaves_above (w : Work) (ss : List Symbol) : ∀ (k : Nat) (t : Vector Node 511) {j : Nat}, k + ss.length ≤ j →
    nodeGet (placeLeaves w k ss t) j = nodeGet t j := by
  induction ss with
  | nil => exact fun _ _ _ _ => rfl
  | cons s ss ih =>
    intro k t j above
    rw [List.length_cons] at above
    rw [placeLeaves, ih (k + 1) _ (by omega), nodeGet_nodePut_ne _ _ (by omega)]

/-! ### The queue -/

/-- The list `q` is the queue when node `next` is made: what no internal node has taken, whose children come before it. -/
structure Queue (t : Vector Node 511) (n next : Nat) (q : List Nat) : Prop where
  nodup : q.Nodup
  mem_iff : ∀ c, c ∈ q ↔ inQueue t n next c
  children : ∀ j w lo hi, n ≤ j → j < next → nodeGet t j = some (.internal w lo hi) → lo.toNat < next ∧ hi.toNat < next

theorem Queue.lt {t : Vector Node 511} {n next : Nat} {q : List Nat} (h : Queue t n next q) {c : Nat} (mem : c ∈ q) : c < next :=
  ((h.mem_iff c).1 mem).1

theorem queue_range (t : Vector Node 511) (n : Nat) : Queue t n n (List.range n) where
  nodup := List.nodup_range
  mem_iff _ := List.mem_range.trans ⟨fun lt => ⟨lt, fun _ _ _ _ le lt => absurd le (Nat.not_le.2 lt)⟩, fun h => h.1⟩
  children _ _ _ _ le lt := absurd le (Nat.not_le.2 lt)

section Round

variable {t : Vector Node 511} {n next : Nat} {q : List Nat} (h : Queue t n next q) (room : next < 511) {a b : Nat}
  (memA : a ∈ q) (memB : b ∈ q.erase a) (weight : BitVec 32)
include h room memA memB

/-- The internal nodes up to the new one: the old ones, and the one that takes `a` and `b`. -/
theorem Queue.entry_cases {j : Nat} {w : BitVec 32} {lo hi : BitVec 9} (lt : j < next + 1)
    (entry : nodeGet (nodePut t next (.internal weight (BitVec.ofNat 9 a) (BitVec.ofNat 9 b))) j = some (.internal w lo hi)) :
    j < next ∧ nodeGet t j = some (.internal w lo hi) ∨ j = next ∧ lo.toNat = a ∧ hi.toNat = b := by
  by_cases last : j = next
  · subst last
    rw [nodeGet_nodePut_self _ _ room] at entry
    cases entry
    have ltA := h.lt memA
    have ltB := h.lt (List.mem_of_mem_erase memB)
    exact .inr ⟨rfl, toNat_ofNat_index (ltA.trans room), toNat_ofNat_index (ltB.trans room)⟩
  · rw [nodeGet_nodePut_ne _ _ last] at entry
    exact .inl ⟨by omega, entry⟩

/-- The new node takes two members off the queue and enters it. -/
theorem Queue.round (le : n ≤ next) : Queue (nodePut t next (.internal weight (BitVec.ofNat 9 a) (BitVec.ofNat 9 b))) n (next + 1)
    ((q.erase a).erase b ++ [next]) := by
  have ltA := h.lt memA
  have ltB := h.lt (List.mem_of_mem_erase memB)
  have mem_rest (c : Nat) : c ∈ (q.erase a).erase b ↔ c ≠ b ∧ c ≠ a ∧ c ∈ q := by
    rw [(h.nodup.erase a).mem_erase_iff, h.nodup.mem_erase_iff]
  refine ⟨?_, fun c => ?_, fun j w lo hi leJ ltJ entry => ?_⟩
  · refine List.nodup_append.2 ⟨(h.nodup.erase a).erase b, List.nodup_singleton next, fun c mem d last => ?_⟩
    rw [List.mem_singleton.1 last]
    exact Nat.ne_of_lt (h.lt ((mem_rest c).1 mem).2.2)
  · rw [List.mem_append, List.mem_singleton, mem_rest]
    constructor
    · rintro (⟨neB, neA, mem⟩ | rfl)
      · obtain ⟨ltC, untaken⟩ := (h.mem_iff c).1 mem
        refine ⟨by omega, fun j w lo hi leJ ltJ entry => ?_⟩
        obtain ⟨before, entry⟩ | ⟨-, low, high⟩ := h.entry_cases room memA memB weight ltJ entry
        · exact untaken j w lo hi leJ before entry
        · exact ⟨by omega, by omega⟩
      · refine ⟨Nat.lt_succ_self c, fun j w lo hi leJ ltJ entry => ?_⟩
        obtain ⟨before, entry⟩ | ⟨-, low, high⟩ := h.entry_cases room memA memB weight ltJ entry
        · have := h.children j w lo hi leJ before entry
          omega
        · omega
    · rintro ⟨ltC, untaken⟩
      by_cases last : c = next
      · exact .inr last
      have free := untaken next weight _ _ le (Nat.lt_succ_self next) (nodeGet_nodePut_self _ _ room)
      rw [toNat_ofNat_index (ltA.trans room), toNat_ofNat_index (ltB.trans room)] at free
      refine .inl ⟨free.2.symm, free.1.symm, (h.mem_iff c).2 ⟨by omega, fun j w lo hi leJ ltJ entry => ?_⟩⟩
      refine untaken j w lo hi leJ (by omega) ?_
      rwa [nodeGet_nodePut_ne _ _ (by omega)]
  · obtain ⟨before, entry⟩ | ⟨-, low, high⟩ := h.entry_cases room memA memB weight ltJ entry
    · have := h.children j w lo hi leJ before entry
      omega
    · omega

end Round

/-! ### One merge -/

/-- Node `k` is made of the two least members of the queue at its time, the least as `low` (41_encoder_stages.md R132). -/
def TakesTwoLeast (t : Vector Node 511) (n k : Nat) : Prop :=
  ∃ a b w, nodeGet t k = some (.internal w (BitVec.ofNat 9 a) (BitVec.ofNat 9 b)) ∧
    w.toNat = weightAt t a + weightAt t b ∧ a ≠ b ∧ inQueue t n k a ∧ inQueue t n k b ∧
    ∀ c, inQueue t n k c → c ≠ a → precedes t a c = true ∧ (c ≠ b → precedes t b c = true)

theorem AgreeBelow.inQueue_iff {k : Nat} {t t' : Vector Node 511} (h : AgreeBelow k t t') (n c : Nat) :
    inQueue t' n k c ↔ inQueue t n k c := by
  refine and_congr_right fun _ => forall_congr' fun j => forall_congr' fun w => forall_congr' fun lo => forall_congr' fun hi =>
    forall_congr' fun _ => forall_congr' fun lt => ?_
  rw [h j lt]

/-- Entries above `k` do not matter for it. -/
theorem AgreeBelow.takesTwoLeast {k n : Nat} {t t' : Vector Node 511} (h : AgreeBelow (k + 1) t t') (taken : TakesTwoLeast t n k) :
    TakesTwoLeast t' n k := by
  have below := h.mono (Nat.le_succ k)
  obtain ⟨a, b, w, entry, weight, ne, queuedA, queuedB, first⟩ := taken
  refine ⟨a, b, w, (h k (Nat.lt_succ_self k)).trans entry, ?_, ne, (below.inQueue_iff n a).2 queuedA,
    (below.inQueue_iff n b).2 queuedB, fun c queuedC neA => ?_⟩
  · rw [below.weightAt queuedA.1, below.weightAt queuedB.1, weight]
  · have queuedC := (below.inQueue_iff n c).1 queuedC
    rw [below.precedes queuedA.1 queuedC.1, below.precedes queuedB.1 queuedC.1]
    exact first c queuedC neA

/-- The weight of a queue: the sum of its members' weights. -/
def queueWeight (t : Vector Node 511) (q : List Nat) : Nat := (q.map (weightAt t)).sum

/-- The table after the merge of `a` and `b`. -/
def mergeOnce (t : Vector Node 511) (next a b : Nat) : Vector Node 511 :=
  nodePut t next (.internal (fit 32 (weightAt t a + weightAt t b)) (BitVec.ofNat 9 a) (BitVec.ofNat 9 b))

section Merge

variable {t : Vector Node 511} {n next : Nat} {q : List Nat} (h : Queue t n next q) (room : next < 511)
  (light : queueWeight t q < 2 ^ 32) {a b : Nat} (leastA : least t q = some a) (leastB : least t (q.erase a) = some b)

include leastA leastB

theorem queueWeight_eq : queueWeight t q = weightAt t a + weightAt t b + queueWeight t ((q.erase a).erase b) := by
  have perm := (List.perm_cons_erase (mem_of_least leastA)).trans ((List.perm_cons_erase (mem_of_least leastB)).cons a)
  rw [queueWeight, (perm.map _).sum_eq, List.map_cons, List.map_cons, List.sum_cons, List.sum_cons, Nat.add_assoc]
  rfl

include light

theorem fit_weight : (fit 32 (weightAt t a + weightAt t b)).toNat = weightAt t a + weightAt t b := by
  have := queueWeight_eq leastA leastB
  exact fit_toNat (by omega)

include h room

/-- The new node weighs what its children weighed. -/
theorem queueWeight_mergeOnce : queueWeight (mergeOnce t next a b) ((q.erase a).erase b ++ [next]) = queueWeight t q := by
  have old : ((q.erase a).erase b).map (weightAt (mergeOnce t next a b)) = ((q.erase a).erase b).map (weightAt t) :=
    List.map_congr_left fun c mem =>
      (agreeBelow_nodePut t le_rfl _).weightAt (h.lt (List.mem_of_mem_erase (List.mem_of_mem_erase mem)))
  have new : weightAt (mergeOnce t next a b) next = weightAt t a + weightAt t b := by
    refine (weightAt_of_entry (nodeGet_nodePut_self t _ room)).trans ?_
    exact fit_weight light leastA leastB
  rw [queueWeight_eq leastA leastB, queueWeight, List.map_append, old, List.sum_append, List.map_singleton, new, List.sum_singleton,
    Nat.add_comm]
  rfl

theorem takesTwoLeast_mergeOnce : TakesTwoLeast (mergeOnce t next a b) n next := by
  have memA := mem_of_least leastA
  have memB := mem_of_least leastB
  have below : AgreeBelow next t (mergeOnce t next a b) := agreeBelow_nodePut t le_rfl _
  obtain ⟨neBA, memB'⟩ := h.nodup.mem_erase_iff.1 memB
  refine ⟨a, b, _, nodeGet_nodePut_self _ _ room, ?_, neBA.symm, (below.inQueue_iff n a).2 ((h.mem_iff a).1 memA),
    (below.inQueue_iff n b).2 ((h.mem_iff b).1 memB'), fun c queued neA => ?_⟩
  · rw [fit_weight light leastA leastB, below.weightAt (h.lt memA), below.weightAt (h.lt memB')]
  · have memC := (h.mem_iff c).2 ((below.inQueue_iff n c).1 queued)
    rw [below.precedes (h.lt memA) (h.lt memC), below.precedes (h.lt memB') (h.lt memC)]
    exact ⟨precedes_of_least leastA c memC neA,
      precedes_of_least leastB c (h.nodup.mem_erase_iff.2 ⟨neA, memC⟩)⟩

end Merge

/-! ### All merges -/

theorem mergeNodes_eq_mergeOnce {q : List Nat} (two : 2 ≤ q.length) (fuel next : Nat) (t : Vector Node 511) :
    ∃ a b, least t q = some a ∧ least t (q.erase a) = some b ∧
      mergeNodes (fuel + 1) q next t = mergeNodes fuel ((q.erase a).erase b ++ [next]) (next + 1) (mergeOnce t next a b) := by
  obtain ⟨a, memA, leastA⟩ := exists_least t (List.ne_nil_of_length_pos (show 0 < q.length by omega))
  have lengthA := List.length_erase_of_mem memA
  obtain ⟨b, -, leastB⟩ := exists_least t (List.ne_nil_of_length_pos (show 0 < (q.erase a).length by omega))
  exact ⟨a, b, leastA, leastB, by simp only [mergeNodes, leastA, leastB, mergeOnce]⟩

theorem takesTwoLeast_mergeNodes {n k : Nat} : ∀ {fuel next : Nat} {q : List Nat} {t : Vector Node 511}, q.length = k + 1 →
    k ≤ fuel → next + k ≤ 511 → n ≤ next → Queue t n next q → queueWeight t q < 2 ^ 32 →
    ∀ j, next ≤ j → j < next + k → TakesTwoLeast (mergeNodes fuel q next t) n j := by
  induction k with
  | zero =>
    intro fuel next q t _ _ _ _ _ _ j ge lt
    omega
  | succ k ih =>
    intro fuel next q t length enough room le h light j ge lt
    obtain ⟨fuel, rfl⟩ : ∃ f, fuel = f + 1 := ⟨fuel - 1, by omega⟩
    obtain ⟨a, b, leastA, leastB, merged⟩ := mergeNodes_eq_mergeOnce (q := q) (by omega) fuel next t
    have memA := mem_of_least leastA
    have memB := mem_of_least leastB
    have last : next < 511 := by omega
    rw [merged]
    by_cases now : j = next
    · subst now
      refine AgreeBelow.takesTwoLeast (fun i below => nodeGet_mergeNodes fuel (.inl below)) ?_
      exact takesTwoLeast_mergeOnce h last light leastA leastB
    · have shorter : ((q.erase a).erase b ++ [next]).length = k + 1 := by
        rw [List.length_append, List.length_erase_of_mem memB, List.length_erase_of_mem memA, List.length_singleton]
        omega
      refine ih shorter (by omega) (by omega) (by omega) (h.round last memA memB _ le) ?_ j (by omega) (by omega)
      exact (queueWeight_mergeOnce h last light leastA leastB).trans_lt light

/-! ### E_BUILD -/

theorem weightAt_placeLeaves (w : Work) {ss : List Symbol} (few : ss.length ≤ 511) (t : Vector Node 511) {i : Nat}
    (lt : i < ss.length) : weightAt (placeLeaves w 0 ss t) i = (tableGet w.count ss[i]).toNat := by
  have entry := nodeGet_placeLeaves w ss 0 t (by omega) i lt
  rw [Nat.zero_add] at entry
  rw [weightAt_of_entry entry]
  rfl

theorem queueWeight_placeLeaves (w : Work) {ss : List Symbol} (few : ss.length ≤ 511) (t : Vector Node 511) :
    queueWeight (placeLeaves w 0 ss t) (List.range ss.length) = (ss.map fun b => (tableGet w.count b).toNat).sum := by
  rw [queueWeight]
  congr 1
  refine List.ext_getElem (by simp) fun i _ lt => ?_
  rw [List.length_map] at lt
  simp [weightAt_placeLeaves w few t lt]

/-- The node table E_BUILD leaves for two symbols or more. -/
def mergedNodes (w : Work) : Vector Node 511 :=
  mergeNodes w.nsym.toNat (List.range w.nsym.toNat) w.nsym.toNat (placeLeaves w 0 (presentSymbols w) w.node)

theorem buildTree_of_two {w : Work} (two : 2 ≤ w.nsym.toNat) (few : w.nsym.toNat ≤ 256) : buildTree w =
    { w with node := mergedNodes w, root := BitVec.ofNat 9 (2 * w.nsym.toNat - 2)
             nnode := BitVec.ofNat 9 (2 * w.nsym.toNat - 1) } := by
  simp only [buildTree, if_neg (show ¬ w.nsym.toNat = 1 by omega), if_neg (show ¬ w.nsym.toNat = 0 by omega),
    fit_eq_ofNat (show 2 * w.nsym.toNat - 2 < 2 ^ 9 by omega), fit_eq_ofNat (show 2 * w.nsym.toNat - 1 < 2 ^ 9 by omega)]
  rfl

/-- Settles O29: round by round the queue is what no node has taken, and the counts' sum bounds every weight. -/
theorem eBuildMergesTheTwoLeast : Obligations.EBuildMergesTheTwoLeast := by
  intro s nsym two counts light
  have counted : Counted s.work := ⟨nsym, by omega⟩
  have few := counted.few
  have executed := execEBuild_of_counts (zeroWeight_eq_false counts) few
  rw [buildTree_of_two two few] at executed
  have weight := queueWeight_placeLeaves s.work (ss := presentSymbols s.work) (by omega) s.work.node
  rw [← nsym] at weight
  refine ⟨mergedNodes s.work, executed, fun k b symbol => ?_, fun k ge lt => ?_, fun k above => ?_⟩
  · obtain ⟨lt, rfl⟩ := List.getElem?_eq_some_iff.1 symbol
    have leaf := nodeGet_placeLeaves s.work (presentSymbols s.work) 0 s.work.node (by omega) k lt
    rw [Nat.zero_add] at leaf
    exact (nodeGet_mergeNodes _ (.inl (by omega))).trans leaf
  · exact takesTwoLeast_mergeNodes (k := s.work.nsym.toNat - 1) (by rw [List.length_range]; omega) (by omega) (by omega) le_rfl
      (queue_range _ _) (weight ▸ light) k ge (by omega)
  · rw [mergedNodes, nodeGet_mergeNodes _ (.inr (by rw [List.length_range]; omega)),
      nodeGet_placeLeaves_above _ _ _ _ (by omega)]

end Sys2Proof.Machine
end
